-- ==== Sys2Proof/Word.lean ====
section
/-! DEFINITION. The word types of the BVE: scalars, command words, register numbers, bit arrays. -/

namespace Sys2Proof

/-- A scalar register's content: 32 bits, read as a two's-complement integer with `BitVec.toInt`
(00_scope.md R9). -/
abbrev Scalar := BitVec 32

/-- A command word as the host presents it to the command port (30_encoding.md R70). -/
abbrev Command := BitVec 32

/-- The number of a scalar register, a 4-bit instruction slot (30_encoding.md R71). -/
abbrev SReg := BitVec 4

/-- The number of a vector register, a 4-bit instruction slot (30_encoding.md R71). -/
abbrev VReg := BitVec 4

/-- A bit vector value (00_scope.md R5): the list's length is `size`, its head is `bit[0]`, the
leftmost bit and the most significant one of the integer value (R6). -/
abbrev BitArray := List Bool

end Sys2Proof
end

