-- ==== Sys2Proof/Syntax.lean ====
section
/-! DEFINITION. The 65 instructions of BVE-1 (30_encoding.md R75), one constructor for each row of
spec/opcode_table.json. Operands stand in the order of the assembler syntax (R80): destinations,
vector sources, scalar sources, immediate. -/

namespace Sys2Proof

/-- An instruction of BVE-1, with the fields its row of the opcode map gives it (30_encoding.md R75). -/
inductive Instr where
  /-- `NOP`, opcode 0x00, rule R90. -/
  | nop
  /-- `CLRERR`, opcode 0x01, rule R91. -/
  | clrerr
  /-- `RDST sd`, opcode 0x02, rule R92. -/
  | rdst (sd : SReg)
  /-- `SLI sd, imm16`, opcode 0x04, rule R93. -/
  | sli (sd : SReg) (imm16 : BitVec 16)
  /-- `SLIH sd, imm16`, opcode 0x05, rule R94. -/
  | slih (sd : SReg) (imm16 : BitVec 16)
  /-- `SADDI sd, imm16`, opcode 0x06, rule R95. -/
  | saddi (sd : SReg) (imm16 : BitVec 16)
  /-- `IXCLR`, opcode 0x08, rule R96. -/
  | ixclr
  /-- `IXPUSH sa`, opcode 0x09, rule R97. -/
  | ixpush (sa : SReg)
  /-- `IXLEN sd`, opcode 0x0A, rule R98. -/
  | ixlen (sd : SReg)
  /-- `IXGET sd, sa`, opcode 0x0B, rule R99. -/
  | ixget (sd : SReg) (sa : SReg)
  /-- `VZERO vd, sa`, opcode 0x10, rule R110. -/
  | vzero (vd : VReg) (sa : SReg)
  /-- `VINT vd, sa`, opcode 0x11, rule R111. -/
  | vint (vd : VReg) (sa : SReg)
  /-- `VINTS vd, sa, sb`, opcode 0x12, rule R112. -/
  | vints (vd : VReg) (sa : SReg) (sb : SReg)
  /-- `VTOINT sd, va`, opcode 0x13, rule R113. -/
  | vtoint (sd : SReg) (va : VReg)
  /-- `VSIZE sd, va`, opcode 0x14, rule R114. -/
  | vsize (sd : SReg) (va : VReg)
  /-- `GETB sd, va, sa`, opcode 0x15, rule R115. -/
  | getb (sd : SReg) (va : VReg) (sa : SReg)
  /-- `SETB vd, sa, sb`, opcode 0x16, rule R116. -/
  | setb (vd : VReg) (sa : SReg) (sb : SReg)
  /-- `VFILL vd, sa`, opcode 0x17, rule R117. -/
  | vfill (vd : VReg) (sa : SReg)
  /-- `VSLICE vd, va, sa, sb`, opcode 0x18, rule R119. -/
  | vslice (vd : VReg) (va : VReg) (sa : SReg) (sb : SReg)
  /-- `VSLSET vd, va, sa, sb`, opcode 0x19, rule R120. -/
  | vslset (vd : VReg) (va : VReg) (sa : SReg) (sb : SReg)
  /-- `GETW sd, va, sa`, opcode 0x1A, rule R121. -/
  | getw (sd : SReg) (va : VReg) (sa : SReg)
  /-- `SETW vd, sa, sb`, opcode 0x1B, rule R122. -/
  | setw (vd : VReg) (sa : SReg) (sb : SReg)
  /-- `VMOV vd, va`, opcode 0x1C, rule R123. -/
  | vmov (vd : VReg) (va : VReg)
  /-- `VAND vd, va, vb`, opcode 0x20, rule R140. -/
  | vand (vd : VReg) (va : VReg) (vb : VReg)
  /-- `VOR vd, va, vb`, opcode 0x21, rule R141. -/
  | vor (vd : VReg) (va : VReg) (vb : VReg)
  /-- `VXOR vd, va, vb`, opcode 0x22, rule R142. -/
  | vxor (vd : VReg) (va : VReg) (vb : VReg)
  /-- `VNOT vd, va`, opcode 0x23, rule R143. -/
  | vnot (vd : VReg) (va : VReg)
  /-- `VCAT vd, va, vb`, opcode 0x24, rule R144. -/
  | vcat (vd : VReg) (va : VReg) (vb : VReg)
  /-- `VCEQ sd, va, vb`, opcode 0x28, rule R145. -/
  | vceq (sd : SReg) (va : VReg) (vb : VReg)
  /-- `VCNE sd, va, vb`, opcode 0x29, rule R146. -/
  | vcne (sd : SReg) (va : VReg) (vb : VReg)
  /-- `VCLT sd, va, vb`, opcode 0x2A, rule R147. -/
  | vclt (sd : SReg) (va : VReg) (vb : VReg)
  /-- `VCLE sd, va, vb`, opcode 0x2B, rule R148. -/
  | vcle (sd : SReg) (va : VReg) (vb : VReg)
  /-- `VCGT sd, va, vb`, opcode 0x2C, rule R149. -/
  | vcgt (sd : SReg) (va : VReg) (vb : VReg)
  /-- `VCGE sd, va, vb`, opcode 0x2D, rule R150. -/
  | vcge (sd : SReg) (va : VReg) (vb : VReg)
  /-- `VCONT sd, va, vb`, opcode 0x2E, rule R151. -/
  | vcont (sd : SReg) (va : VReg) (vb : VReg)
  /-- `VROL vd, sa`, opcode 0x30, rule R160. -/
  | vrol (vd : VReg) (sa : SReg)
  /-- `VROR vd, sa`, opcode 0x31, rule R161. -/
  | vror (vd : VReg) (sa : SReg)
  /-- `VSHL vd, sa`, opcode 0x32, rule R162. -/
  | vshl (vd : VReg) (sa : SReg)
  /-- `VSHR vd, sa`, opcode 0x33, rule R163. -/
  | vshr (vd : VReg) (sa : SReg)
  /-- `VPERM vd, va`, opcode 0x38, rule R170. -/
  | vperm (vd : VReg) (va : VReg)
  /-- `VUNPERM vd, va`, opcode 0x39, rule R171. -/
  | vunperm (vd : VReg) (va : VReg)
  /-- `VHALF0 vd, va`, opcode 0x3A, rule R172. -/
  | vhalf0 (vd : VReg) (va : VReg)
  /-- `VHALF1 vd, va`, opcode 0x3B, rule R173. -/
  | vhalf1 (vd : VReg) (va : VReg)
  /-- `POPC sd, va`, opcode 0x40, rule R180. -/
  | popc (sd : SReg) (va : VReg)
  /-- `POPCS sd, va`, opcode 0x41, rule R181. -/
  | popcs (sd : SReg) (va : VReg)
  /-- `NSB sd, va, sa`, opcode 0x42, rule R182. -/
  | nsb (sd : SReg) (va : VReg) (sa : SReg)
  /-- `RANK sd, va, sa`, opcode 0x43, rule R183. -/
  | rank (sd : SReg) (va : VReg) (sa : SReg)
  /-- `ISP2 sd, va`, opcode 0x44, rule R184. -/
  | isp2 (sd : SReg) (va : VReg)
  /-- `ISP2S sd, va`, opcode 0x45, rule R185. -/
  | isp2s (sd : SReg) (va : VReg)
  /-- `VREV vd, va`, opcode 0x46, rule R186. -/
  | vrev (vd : VReg) (va : VReg)
  /-- `VRUNS sd, va`, opcode 0x47, rule R189. -/
  | vruns (sd : SReg) (va : VReg)
  /-- `HAMM sd, va, vb`, opcode 0x48, rule R190. -/
  | hamm (sd : SReg) (va : VReg) (vb : VReg)
  /-- `JSIM sd, se, va, vb`, opcode 0x49, rule R191. -/
  | jsim (sd : SReg) (se : SReg) (va : VReg) (vb : VReg)
  /-- `JDIST sd, se, va, vb`, opcode 0x4A, rule R192. -/
  | jdist (sd : SReg) (se : SReg) (va : VReg) (vb : VReg)
  /-- `GFMUL vd, va, vb`, opcode 0x50, rule R200. -/
  | gfmul (vd : VReg) (va : VReg) (vb : VReg)
  /-- `GFQUO vd, va, vb, sa`, opcode 0x51, rule R201. -/
  | gfquo (vd : VReg) (va : VReg) (vb : VReg) (sa : SReg)
  /-- `GFREM vd, va, vb, sa`, opcode 0x52, rule R202. -/
  | gfrem (vd : VReg) (va : VReg) (vb : VReg) (sa : SReg)
  /-- `GFMULM vd, va, vb, vc, sa`, opcode 0x53, rule R203. -/
  | gfmulm (vd : VReg) (va : VReg) (vb : VReg) (vc : VReg) (sa : SReg)
  /-- `GFMI vd, va, vb, sa`, opcode 0x54, rule R204. -/
  | gfmi (vd : VReg) (va : VReg) (vb : VReg) (sa : SReg)
  /-- `MODINV vd, va, vb`, opcode 0x55, rule R205. -/
  | modinv (vd : VReg) (va : VReg) (vb : VReg)
  /-- `VGCD vd, va, vb`, opcode 0x56, rule R206. -/
  | vgcd (vd : VReg) (va : VReg) (vb : VReg)
  /-- `PRIME sd, va, sa`, opcode 0x57, rule R207. -/
  | prime (sd : SReg) (va : VReg) (sa : SReg)
  /-- `RANDP vd, sa`, opcode 0x58, rule R208. -/
  | randp (vd : VReg) (sa : SReg)
  /-- `GETBYTE sd, va, sa`, opcode 0x60, rule R230. -/
  | getbyte (sd : SReg) (va : VReg) (sa : SReg)
  /-- `APPBYTE vd, sa`, opcode 0x61, rule R231. -/
  | appbyte (vd : VReg) (sa : SReg)
deriving DecidableEq, Repr

end Sys2Proof
end

