-- ==== Sys2Proof/Decode.lean ====
section
/-! DEFINITION. Decoding a command word (30_encoding.md R82) and assembling one (R75). -/

namespace Sys2Proof

/-- Why a word is reserved. Executing a reserved word of either kind raises `E_ILLEGAL`. -/
inductive DecodeError where
  /-- The opcode is not in the map (30_encoding.md R77). -/
  | unassignedOpcode (op : BitVec 8)
  /-- A slot the instruction of that row does not use is not zero (30_encoding.md R76). -/
  | unusedSlotNotZero (mnemonic : String)
deriving DecidableEq, Repr

/-- The opcode slot, bits 31:24 (30_encoding.md R71). -/
def fieldOp (w : Command) : BitVec 8 := w.extractLsb' 24 8

/-- The `SD` slot, bits 23:20. -/
def fieldSD (w : Command) : BitVec 4 := w.extractLsb' 20 4

/-- The `SA` slot, bits 19:16. -/
def fieldSA (w : Command) : BitVec 4 := w.extractLsb' 16 4

/-- The `SB` slot, bits 15:12. -/
def fieldSB (w : Command) : BitVec 4 := w.extractLsb' 12 4

/-- The `VD` slot, bits 11:8. -/
def fieldVD (w : Command) : BitVec 4 := w.extractLsb' 8 4

/-- The `VA` slot, bits 7:4. -/
def fieldVA (w : Command) : BitVec 4 := w.extractLsb' 4 4

/-- The `VB` slot, bits 3:0. -/
def fieldVB (w : Command) : BitVec 4 := w.extractLsb' 0 4

/-- The immediate of format I, bits 15:0 (30_encoding.md R72). -/
def fieldImm16 (w : Command) : BitVec 16 := w.extractLsb' 0 16

/-- One row of the opcode map (30_encoding.md R75): `match` is the opcode in bits 31:24. -/
structure OpcodeRow where
  mnemonic : String
  op : BitVec 8
  mask : BitVec 32
  build : Command → Instr

/-- The rows of 40_system_scalar.md R90 to R99. -/
def systemRows : List OpcodeRow :=
  [
    ⟨"NOP", 0x00#8, 0xFFFFFFFF#32, fun _ => .nop⟩,
    ⟨"CLRERR", 0x01#8, 0xFFFFFFFF#32, fun _ => .clrerr⟩,
    ⟨"RDST", 0x02#8, 0xFF0FFFFF#32, fun w => .rdst (fieldSD w)⟩,
    ⟨"SLI", 0x04#8, 0xFF0F0000#32, fun w => .sli (fieldSD w) (fieldImm16 w)⟩,
    ⟨"SLIH", 0x05#8, 0xFF0F0000#32, fun w => .slih (fieldSD w) (fieldImm16 w)⟩,
    ⟨"SADDI", 0x06#8, 0xFF0F0000#32, fun w => .saddi (fieldSD w) (fieldImm16 w)⟩,
    ⟨"IXCLR", 0x08#8, 0xFFFFFFFF#32, fun _ => .ixclr⟩,
    ⟨"IXPUSH", 0x09#8, 0xFFF0FFFF#32, fun w => .ixpush (fieldSA w)⟩,
    ⟨"IXLEN", 0x0A#8, 0xFF0FFFFF#32, fun w => .ixlen (fieldSD w)⟩,
    ⟨"IXGET", 0x0B#8, 0xFF00FFFF#32, fun w => .ixget (fieldSD w) (fieldSA w)⟩]

/-- The rows of 41_storage_core.md R110 to R123. -/
def storageRows : List OpcodeRow :=
  [
    ⟨"VZERO", 0x10#8, 0xFFF0F0FF#32, fun w => .vzero (fieldVD w) (fieldSA w)⟩,
    ⟨"VINT", 0x11#8, 0xFFF0F0FF#32, fun w => .vint (fieldVD w) (fieldSA w)⟩,
    ⟨"VINTS", 0x12#8, 0xFFF000FF#32, fun w => .vints (fieldVD w) (fieldSA w) (fieldSB w)⟩,
    ⟨"VTOINT", 0x13#8, 0xFF0FFF0F#32, fun w => .vtoint (fieldSD w) (fieldVA w)⟩,
    ⟨"VSIZE", 0x14#8, 0xFF0FFF0F#32, fun w => .vsize (fieldSD w) (fieldVA w)⟩,
    ⟨"GETB", 0x15#8, 0xFF00FF0F#32, fun w => .getb (fieldSD w) (fieldVA w) (fieldSA w)⟩,
    ⟨"SETB", 0x16#8, 0xFFF000FF#32, fun w => .setb (fieldVD w) (fieldSA w) (fieldSB w)⟩,
    ⟨"VFILL", 0x17#8, 0xFFF0F0FF#32, fun w => .vfill (fieldVD w) (fieldSA w)⟩,
    ⟨"VSLICE", 0x18#8, 0xFFF0000F#32, fun w => .vslice (fieldVD w) (fieldVA w) (fieldSA w) (fieldSB w)⟩,
    ⟨"VSLSET", 0x19#8, 0xFFF0000F#32, fun w => .vslset (fieldVD w) (fieldVA w) (fieldSA w) (fieldSB w)⟩,
    ⟨"GETW", 0x1A#8, 0xFF00FF0F#32, fun w => .getw (fieldSD w) (fieldVA w) (fieldSA w)⟩,
    ⟨"SETW", 0x1B#8, 0xFFF000FF#32, fun w => .setw (fieldVD w) (fieldSA w) (fieldSB w)⟩,
    ⟨"VMOV", 0x1C#8, 0xFFFFF00F#32, fun w => .vmov (fieldVD w) (fieldVA w)⟩]

/-- The rows of 42_bitwise_relational.md R140 to R151. -/
def bitwiseRows : List OpcodeRow :=
  [
    ⟨"VAND", 0x20#8, 0xFFFFF000#32, fun w => .vand (fieldVD w) (fieldVA w) (fieldVB w)⟩,
    ⟨"VOR", 0x21#8, 0xFFFFF000#32, fun w => .vor (fieldVD w) (fieldVA w) (fieldVB w)⟩,
    ⟨"VXOR", 0x22#8, 0xFFFFF000#32, fun w => .vxor (fieldVD w) (fieldVA w) (fieldVB w)⟩,
    ⟨"VNOT", 0x23#8, 0xFFFFF00F#32, fun w => .vnot (fieldVD w) (fieldVA w)⟩,
    ⟨"VCAT", 0x24#8, 0xFFFFF000#32, fun w => .vcat (fieldVD w) (fieldVA w) (fieldVB w)⟩,
    ⟨"VCEQ", 0x28#8, 0xFF0FFF00#32, fun w => .vceq (fieldSD w) (fieldVA w) (fieldVB w)⟩,
    ⟨"VCNE", 0x29#8, 0xFF0FFF00#32, fun w => .vcne (fieldSD w) (fieldVA w) (fieldVB w)⟩,
    ⟨"VCLT", 0x2A#8, 0xFF0FFF00#32, fun w => .vclt (fieldSD w) (fieldVA w) (fieldVB w)⟩,
    ⟨"VCLE", 0x2B#8, 0xFF0FFF00#32, fun w => .vcle (fieldSD w) (fieldVA w) (fieldVB w)⟩,
    ⟨"VCGT", 0x2C#8, 0xFF0FFF00#32, fun w => .vcgt (fieldSD w) (fieldVA w) (fieldVB w)⟩,
    ⟨"VCGE", 0x2D#8, 0xFF0FFF00#32, fun w => .vcge (fieldSD w) (fieldVA w) (fieldVB w)⟩,
    ⟨"VCONT", 0x2E#8, 0xFF0FFF00#32, fun w => .vcont (fieldSD w) (fieldVA w) (fieldVB w)⟩]

/-- The rows of 43_shift.md R160 to R163. -/
def shiftRows : List OpcodeRow :=
  [
    ⟨"VROL", 0x30#8, 0xFFF0F0FF#32, fun w => .vrol (fieldVD w) (fieldSA w)⟩,
    ⟨"VROR", 0x31#8, 0xFFF0F0FF#32, fun w => .vror (fieldVD w) (fieldSA w)⟩,
    ⟨"VSHL", 0x32#8, 0xFFF0F0FF#32, fun w => .vshl (fieldVD w) (fieldSA w)⟩,
    ⟨"VSHR", 0x33#8, 0xFFF0F0FF#32, fun w => .vshr (fieldVD w) (fieldSA w)⟩]

/-- The rows of 44_permutation.md R170 to R173. -/
def permutationRows : List OpcodeRow :=
  [
    ⟨"VPERM", 0x38#8, 0xFFFFF00F#32, fun w => .vperm (fieldVD w) (fieldVA w)⟩,
    ⟨"VUNPERM", 0x39#8, 0xFFFFF00F#32, fun w => .vunperm (fieldVD w) (fieldVA w)⟩,
    ⟨"VHALF0", 0x3A#8, 0xFFFFF00F#32, fun w => .vhalf0 (fieldVD w) (fieldVA w)⟩,
    ⟨"VHALF1", 0x3B#8, 0xFFFFF00F#32, fun w => .vhalf1 (fieldVD w) (fieldVA w)⟩]

/-- The rows of 45_bit_analysis.md R180 to R192. -/
def analysisRows : List OpcodeRow :=
  [
    ⟨"POPC", 0x40#8, 0xFF0FFF0F#32, fun w => .popc (fieldSD w) (fieldVA w)⟩,
    ⟨"POPCS", 0x41#8, 0xFF0FFF0F#32, fun w => .popcs (fieldSD w) (fieldVA w)⟩,
    ⟨"NSB", 0x42#8, 0xFF00FF0F#32, fun w => .nsb (fieldSD w) (fieldVA w) (fieldSA w)⟩,
    ⟨"RANK", 0x43#8, 0xFF00FF0F#32, fun w => .rank (fieldSD w) (fieldVA w) (fieldSA w)⟩,
    ⟨"ISP2", 0x44#8, 0xFF0FFF0F#32, fun w => .isp2 (fieldSD w) (fieldVA w)⟩,
    ⟨"ISP2S", 0x45#8, 0xFF0FFF0F#32, fun w => .isp2s (fieldSD w) (fieldVA w)⟩,
    ⟨"VREV", 0x46#8, 0xFFFFF00F#32, fun w => .vrev (fieldVD w) (fieldVA w)⟩,
    ⟨"VRUNS", 0x47#8, 0xFF0FFF0F#32, fun w => .vruns (fieldSD w) (fieldVA w)⟩,
    ⟨"HAMM", 0x48#8, 0xFF0FFF00#32, fun w => .hamm (fieldSD w) (fieldVA w) (fieldVB w)⟩,
    ⟨"JSIM", 0x49#8, 0xFF00FF00#32, fun w => .jsim (fieldSD w) (fieldSA w) (fieldVA w) (fieldVB w)⟩,
    ⟨"JDIST", 0x4A#8, 0xFF00FF00#32, fun w => .jdist (fieldSD w) (fieldSA w) (fieldVA w) (fieldVB w)⟩]

/-- The rows of 46_galois_field.md R200 to R208. -/
def galoisRows : List OpcodeRow :=
  [
    ⟨"GFMUL", 0x50#8, 0xFFFFF000#32, fun w => .gfmul (fieldVD w) (fieldVA w) (fieldVB w)⟩,
    ⟨"GFQUO", 0x51#8, 0xFFF0F000#32, fun w => .gfquo (fieldVD w) (fieldVA w) (fieldVB w) (fieldSA w)⟩,
    ⟨"GFREM", 0x52#8, 0xFFF0F000#32, fun w => .gfrem (fieldVD w) (fieldVA w) (fieldVB w) (fieldSA w)⟩,
    ⟨"GFMULM", 0x53#8, 0xFFF00000#32, fun w => .gfmulm (fieldVD w) (fieldVA w) (fieldVB w) (fieldSB w) (fieldSA w)⟩,
    ⟨"GFMI", 0x54#8, 0xFFF0F000#32, fun w => .gfmi (fieldVD w) (fieldVA w) (fieldVB w) (fieldSA w)⟩,
    ⟨"MODINV", 0x55#8, 0xFFFFF000#32, fun w => .modinv (fieldVD w) (fieldVA w) (fieldVB w)⟩,
    ⟨"VGCD", 0x56#8, 0xFFFFF000#32, fun w => .vgcd (fieldVD w) (fieldVA w) (fieldVB w)⟩,
    ⟨"PRIME", 0x57#8, 0xFF00FF0F#32, fun w => .prime (fieldSD w) (fieldVA w) (fieldSA w)⟩,
    ⟨"RANDP", 0x58#8, 0xFFF0F0FF#32, fun w => .randp (fieldVD w) (fieldSA w)⟩]

/-- The rows of 47_byte_packing.md R230, R231. -/
def byteRows : List OpcodeRow :=
  [
    ⟨"GETBYTE", 0x60#8, 0xFF00FF0F#32, fun w => .getbyte (fieldSD w) (fieldVA w) (fieldSA w)⟩,
    ⟨"APPBYTE", 0x61#8, 0xFFF0F0FF#32, fun w => .appbyte (fieldVD w) (fieldSA w)⟩]

/-- The opcode map (30_encoding.md R75), all 65 rows in its order. -/
def opcodeMap : List OpcodeRow :=
  systemRows ++ storageRows ++ bitwiseRows ++ shiftRows ++ permutationRows ++ analysisRows ++
    galoisRows ++ byteRows

/-- The row of an opcode, if the map has one. -/
def rowOf (op : BitVec 8) : Option OpcodeRow :=
  opcodeMap.find? (fun r => r.op == op)

/-- The row's `match`: its opcode in bits 31:24 and zeros below. -/
def OpcodeRow.matchWord (r : OpcodeRow) : Command := r.op ++ 0#24

/-- Decoding (30_encoding.md R82): the row of the opcode, then the test `(w AND mask) = match`. Total:
every 32-bit word is one instruction or reserved. -/
def decode (w : Command) : Except DecodeError Instr :=
  match rowOf (fieldOp w) with
  | none => .error (.unassignedOpcode (fieldOp w))
  | some r =>
    if w &&& r.mask = r.matchWord then .ok (r.build w) else .error (.unusedSlotNotZero r.mnemonic)

/-- The command word of a table row's `nbits` bits, the bits above them zero. A command is one 32-bit
value presented to the port, so no byte order enters (30_encoding.md R70). -/
def tableCommand (nbits w : Nat) : Command := BitVec.ofNat 32 (w % 2 ^ nbits)

/-- The instruction the decoder reads from a table word of `nbits` bits. -/
def decodeTableWord (nbits w : Nat) : Option Instr := (decode (tableCommand nbits w)).toOption

/-- A word of format R (30_encoding.md R71): opcode, then the six slots from bit 23 down. -/
def formatR (op : BitVec 8) (sd sa sb vd va vb : BitVec 4) : Command :=
  op ++ sd ++ sa ++ sb ++ vd ++ va ++ vb

/-- A word of format I (30_encoding.md R72): opcode, `SD`, bits 19:16 zero, immediate. -/
def formatI (op : BitVec 8) (sd : BitVec 4) (imm16 : BitVec 16) : Command :=
  op ++ sd ++ 0#4 ++ imm16

/-- The word of an instruction (30_encoding.md R75, "To assemble a word"), unused slots 0. -/
def encode : Instr → Command
  | .nop => formatR 0x00#8 0 0 0 0 0 0
  | .clrerr => formatR 0x01#8 0 0 0 0 0 0
  | .rdst sd => formatR 0x02#8 sd 0 0 0 0 0
  | .sli sd imm16 => formatI 0x04#8 sd imm16
  | .slih sd imm16 => formatI 0x05#8 sd imm16
  | .saddi sd imm16 => formatI 0x06#8 sd imm16
  | .ixclr => formatR 0x08#8 0 0 0 0 0 0
  | .ixpush sa => formatR 0x09#8 0 sa 0 0 0 0
  | .ixlen sd => formatR 0x0A#8 sd 0 0 0 0 0
  | .ixget sd sa => formatR 0x0B#8 sd sa 0 0 0 0
  | .vzero vd sa => formatR 0x10#8 0 sa 0 vd 0 0
  | .vint vd sa => formatR 0x11#8 0 sa 0 vd 0 0
  | .vints vd sa sb => formatR 0x12#8 0 sa sb vd 0 0
  | .vtoint sd va => formatR 0x13#8 sd 0 0 0 va 0
  | .vsize sd va => formatR 0x14#8 sd 0 0 0 va 0
  | .getb sd va sa => formatR 0x15#8 sd sa 0 0 va 0
  | .setb vd sa sb => formatR 0x16#8 0 sa sb vd 0 0
  | .vfill vd sa => formatR 0x17#8 0 sa 0 vd 0 0
  | .vslice vd va sa sb => formatR 0x18#8 0 sa sb vd va 0
  | .vslset vd va sa sb => formatR 0x19#8 0 sa sb vd va 0
  | .getw sd va sa => formatR 0x1A#8 sd sa 0 0 va 0
  | .setw vd sa sb => formatR 0x1B#8 0 sa sb vd 0 0
  | .vmov vd va => formatR 0x1C#8 0 0 0 vd va 0
  | .vand vd va vb => formatR 0x20#8 0 0 0 vd va vb
  | .vor vd va vb => formatR 0x21#8 0 0 0 vd va vb
  | .vxor vd va vb => formatR 0x22#8 0 0 0 vd va vb
  | .vnot vd va => formatR 0x23#8 0 0 0 vd va 0
  | .vcat vd va vb => formatR 0x24#8 0 0 0 vd va vb
  | .vceq sd va vb => formatR 0x28#8 sd 0 0 0 va vb
  | .vcne sd va vb => formatR 0x29#8 sd 0 0 0 va vb
  | .vclt sd va vb => formatR 0x2A#8 sd 0 0 0 va vb
  | .vcle sd va vb => formatR 0x2B#8 sd 0 0 0 va vb
  | .vcgt sd va vb => formatR 0x2C#8 sd 0 0 0 va vb
  | .vcge sd va vb => formatR 0x2D#8 sd 0 0 0 va vb
  | .vcont sd va vb => formatR 0x2E#8 sd 0 0 0 va vb
  | .vrol vd sa => formatR 0x30#8 0 sa 0 vd 0 0
  | .vror vd sa => formatR 0x31#8 0 sa 0 vd 0 0
  | .vshl vd sa => formatR 0x32#8 0 sa 0 vd 0 0
  | .vshr vd sa => formatR 0x33#8 0 sa 0 vd 0 0
  | .vperm vd va => formatR 0x38#8 0 0 0 vd va 0
  | .vunperm vd va => formatR 0x39#8 0 0 0 vd va 0
  | .vhalf0 vd va => formatR 0x3A#8 0 0 0 vd va 0
  | .vhalf1 vd va => formatR 0x3B#8 0 0 0 vd va 0
  | .popc sd va => formatR 0x40#8 sd 0 0 0 va 0
  | .popcs sd va => formatR 0x41#8 sd 0 0 0 va 0
  | .nsb sd va sa => formatR 0x42#8 sd sa 0 0 va 0
  | .rank sd va sa => formatR 0x43#8 sd sa 0 0 va 0
  | .isp2 sd va => formatR 0x44#8 sd 0 0 0 va 0
  | .isp2s sd va => formatR 0x45#8 sd 0 0 0 va 0
  | .vrev vd va => formatR 0x46#8 0 0 0 vd va 0
  | .vruns sd va => formatR 0x47#8 sd 0 0 0 va 0
  | .hamm sd va vb => formatR 0x48#8 sd 0 0 0 va vb
  | .jsim sd se va vb => formatR 0x49#8 sd se 0 0 va vb
  | .jdist sd se va vb => formatR 0x4A#8 sd se 0 0 va vb
  | .gfmul vd va vb => formatR 0x50#8 0 0 0 vd va vb
  | .gfquo vd va vb sa => formatR 0x51#8 0 sa 0 vd va vb
  | .gfrem vd va vb sa => formatR 0x52#8 0 sa 0 vd va vb
  | .gfmulm vd va vb vc sa => formatR 0x53#8 0 sa vc vd va vb
  | .gfmi vd va vb sa => formatR 0x54#8 0 sa 0 vd va vb
  | .modinv vd va vb => formatR 0x55#8 0 0 0 vd va vb
  | .vgcd vd va vb => formatR 0x56#8 0 0 0 vd va vb
  | .prime sd va sa => formatR 0x57#8 sd sa 0 0 va 0
  | .randp vd sa => formatR 0x58#8 0 sa 0 vd 0 0
  | .getbyte sd va sa => formatR 0x60#8 sd sa 0 0 va 0
  | .appbyte vd sa => formatR 0x61#8 0 sa 0 vd 0 0

end Sys2Proof
end

