-- ==== Sys2Proof/Machine/Bits.lean ====
section
/-! DEFINITION. Functions on bit vector values (00_scope.md section 5), used by the meanings. -/

namespace Sys2Proof.Machine

/-- `int(v)`, the big-endian unsigned value (00_scope.md R6); `int("") = 0`. -/
def intOf (v : BitArray) : Nat := v.foldl (fun n b => 2 * n + b.toNat) 0

/-- `fromint(N, s)`: the `s`-bit vector of value `N`, for `N < 2^s` (00_scope.md R7). -/
def fromInt (n s : Nat) : BitArray := (List.range s).map fun k => n.testBit (s - 1 - k)

/-- `len(N)`: the size of the minimal representation, 1 for 0 (00_scope.md R7). -/
def minLen (n : Nat) : Nat := if n = 0 then 1 else Nat.log2 n + 1

/-- `minrep(N)`: the minimal big-endian representation, `"0"` for 0 (00_scope.md R7). -/
def minRep (n : Nat) : BitArray := fromInt n (minLen n)

/-- `popcount(v)` (00_scope.md R11). -/
def popcount (v : BitArray) : Nat := v.count true

/-- `zeros(s)` (00_scope.md R11). -/
def zeros (s : Nat) : BitArray := List.replicate s false

/-- `v[i:j]`, for `i ≤ j ≤ size` (00_scope.md R11). -/
def slice (v : BitArray) (i j : Nat) : BitArray := (v.take j).drop i

/-- The numeric value of bits given least significant first. -/
def ofBitsLE (bits : List Bool) : Nat := bits.foldr (fun b n => b.toNat + 2 * n) 0

/-- The number of storage words of a vector, `ceil(size / W)` (20_memory.md R51). -/
def wordCount (width size : Nat) : Nat := (size + width - 1) / width

/-- Storage word `k` of a vector, its padding bits taken from `fill` (20_memory.md R51, R52): offset 0
is the least significant bit. -/
def wordRead (width : Nat) (v : BitArray) (k fill : Nat) : Nat :=
  ofBitsLE ((List.range width).map fun t => v.getD (k * width + t) (fill.testBit t))

/-- The vector after storage word `k` is written with `w`; bits of `w` that fall on padding are
dropped (20_memory.md R53, R54). -/
def wordWrite (width : Nat) (v : BitArray) (k w : Nat) : BitArray :=
  v.mapIdx fun p b => if p / width = k then w.testBit (p % width) else b

/-- Byte `k` of a vector, most significant bit first (47_byte_packing.md R232). -/
def byteOf (v : BitArray) (k : Nat) : Nat := intOf (slice v (8 * k) (8 * k + 8))

/-- Circular left shift by `n` (43_shift.md R160): toward index 0, the count taken modulo the size. -/
def rotateLeft (v : BitArray) (n : Nat) : BitArray :=
  v.drop (n % v.length) ++ v.take (n % v.length)

/-- Circular right shift by `n` (43_shift.md R161): left by `size - (n mod size)`. -/
def rotateRight (v : BitArray) (n : Nat) : BitArray :=
  v.drop (v.length - n % v.length) ++ v.take (v.length - n % v.length)

/-- Non-circular left shift by `n` (43_shift.md R162), zeros entering at the right. -/
def shiftLeft (v : BitArray) (n : Nat) : BitArray :=
  v.drop n ++ zeros (min n v.length)

/-- Non-circular right shift by `n` (43_shift.md R163), zeros entering at the left. -/
def shiftRight (v : BitArray) (n : Nat) : BitArray :=
  zeros (min n v.length) ++ v.take (v.length - n)

/-- The vector of size `len(indices)` whose bit `k` is the source's bit at `indices[k]`
(44_permutation.md R170). -/
def permute (v : BitArray) (indices : List Scalar) : BitArray :=
  indices.map fun i => v.getD i.toNat false

/-- The loop of 44_permutation.md R171: each source bit is stored at its index, a later one over an
earlier one; positions no index names stay 0. -/
def unpermute (v : BitArray) (indices : List Scalar) : BitArray :=
  (indices.zip v).foldl (fun out ib => out.set ib.1.toNat ib.2) (zeros v.length)

/-- Whether the pattern `b` stands somewhere in `a` (42_bitwise_relational.md R151). -/
def occursIn (b : BitArray) : BitArray → Bool
  | [] => b.isEmpty
  | x :: a => b.isPrefixOf (x :: a) || occursIn b a

/-- The least set position at or after `start` (45_bit_analysis.md R182). -/
def nextSetBit (v : BitArray) (start : Int) : Option Nat :=
  (List.range v.length).find? fun p => decide (start ≤ p) && v.getD p false

/-- The run decomposition, value and length of each run from left to right (45_bit_analysis.md R187). -/
def runs : BitArray → List (Bool × Nat)
  | [] => []
  | b :: v =>
    match runs v with
    | (c, n) :: rest => if b = c then (c, n + 1) :: rest else (b, 1) :: (c, n) :: rest
    | [] => [(b, 1)]

end Sys2Proof.Machine
end

