-- ==== Sys2Proof/Config.lean ====
section
/-! DEFINITION. The parameters of a BVE (00_scope.md R4) and the free values of the model. -/

namespace Sys2Proof

/-- The parameters fixed when a BVE is built (00_scope.md R4, 10_state.md R27). `IDXCAP` equals `CAP`. -/
structure Params where
  /-- `W`, bits in one storage word. -/
  wordWidth : Nat
  /-- `CAP`, the largest `size` of a vector register, and the largest `len` of the index list. -/
  cap : Nat
deriving DecidableEq, Repr

/-- The legal values of the parameters (00_scope.md R4): `W` a power of two in 8..32, `CAP` a multiple
of `W` and of 8 in 32..2^24. -/
abbrev Params.Legal (p : Params) : Prop :=
  (p.wordWidth = 8 ∨ p.wordWidth = 16 ∨ p.wordWidth = 32) ∧
    p.cap % p.wordWidth = 0 ∧ p.cap % 8 = 0 ∧ 32 ≤ p.cap ∧ p.cap ≤ 2 ^ 24

/-- The reference values `W = 16`, `CAP = 4096` of 00_scope.md R4.
DESIGN CHOICE (entry 3, unsafe): the spec leaves both parameters open. -/
def Params.reference : Params := { wordWidth := 16, cap := 4096 }

/-- The answers of the entropy input once the supplied ones are used up, one for each number of
draws already made (10_state.md R29, 93_implementation_defined.md U2).
DESIGN CHOICE (entry 4, safe): a free value, nothing in Lean can evaluate it. -/
opaque Config.entropySource : Nat → Nat

/-- The words that fill the padding bits `GETW` reads once the supplied ones are used up, one for each
word already used (20_memory.md R54, 93_implementation_defined.md U1).
DESIGN CHOICE (entry 5, safe): a free value, nothing in Lean can evaluate it. -/
opaque Config.paddingSource : Nat → Nat

end Sys2Proof
end

