-- ==== Sys2Proof/Machine/State.lean ====
section
/-! DEFINITION. The state of a BVE (10_state.md), the inputs its step reads, and its reset value. -/

namespace Sys2Proof.Machine

/-- The errors a command can fail with (60_exceptions.md R240). -/
inductive ErrCode where
  /-- `E_ILLEGAL`: a reserved word, or `JSIM`/`JDIST` with equal destinations. -/
  | illegal
  /-- `E_INDEX`: a bit, word, byte, rank or index-list index out of bounds. -/
  | index
  /-- `E_VALUE`: a scalar argument the operation does not accept. -/
  | value
  /-- `E_SIZE`: two sizes that must agree do not. -/
  | size
  /-- `E_PERM`: an index-list entry outside the vector being permuted. -/
  | perm
  /-- `E_ODD`: a vector of odd size cannot be halved. -/
  | odd
  /-- `E_SLICE`: bad slice bounds, or a source of the wrong size. -/
  | slice
  /-- `E_DIVZERO`: a modulus of value 0. -/
  | divZero
  /-- `E_UNDEF`: a Jaccard ratio of two all-zero vectors. -/
  | undef
  /-- `E_CAP`: the result does not fit. -/
  | cap
deriving DecidableEq, Repr

/-- What the host does at the BVE's ports (60_exceptions.md R250, R258).
DESIGN CHOICE (entries 1 and 7): the host's actions are data the step reads. -/
inductive HostEvent where
  /-- The host offers a command word and the BVE takes it. -/
  | command (w : Command)
  /-- The host asserts `rst` (70_reset_and_hazards.md R271). -/
  | reset
deriving DecidableEq, Repr

/-- A stream of free values: those the environment has supplied, then an opaque value for each number
of values already taken. DESIGN CHOICE (entries 4 and 5). -/
structure FreeStream where
  /-- Values the environment supplies, the next one first. -/
  supplied : List Nat
  /-- How many values have been taken so far. -/
  taken : Nat
deriving DecidableEq, Repr

/-- The state of a BVE and of its inputs. The spec's own state is `scalars`, `vectors`, `indices`, `err`,
`nr` (10_state.md section 1) and the response port `resp` (60_exceptions.md R250). -/
structure State where
  /-- `W` and `CAP`, fixed when the block is built (00_scope.md R4). No instruction writes them. -/
  params : Params
  /-- `S[0]` .. `S[15]` (10_state.md R20). -/
  scalars : Vector Scalar 16
  /-- `V[0]` .. `V[15]` (10_state.md R21). -/
  vectors : Vector BitArray 16
  /-- The index list `IDX`: `IDX.len` is its length, entries are signed (10_state.md R23). -/
  indices : List Scalar
  /-- `STATUS.ERR`, the first-error latch (10_state.md R26). -/
  err : BitVec 8
  /-- `STATUS.NR`, the "no result" flag (10_state.md R25). -/
  nr : Bool
  /-- The response of the last step: the code of the command it ran, `none` if it ran none
  (60_exceptions.md R243, R250; entry 2). -/
  resp : Option (BitVec 8)
  /-- The host's events not yet taken, oldest first (entry 1). -/
  host : List HostEvent
  /-- The entropy input's answers (10_state.md R29; entry 4). -/
  entropy : FreeStream
  /-- The words that fill the padding bits `GETW` reads (20_memory.md R54; entry 5). -/
  padding : FreeStream
deriving DecidableEq, Repr

/-- Reasons a step stops with a fault. There is none: from any state, for any command, a step yields
exactly one next state (70_reset_and_hazards.md R282), so this type has no constructor and no step of
the model can fault (entry 12). A failing command is a next state (60_exceptions.md R243). -/
inductive Fault where
deriving DecidableEq, Repr

/-- Reasons a step refuses an instruction. -/
inductive Refusal where
  /-- Raised by an arm of `exec` that has no meaning yet, with the row's mnemonic. Safe: the model
  stops where the hardware goes on. No arm raises it now. -/
  | notModelled (mnemonic : String)
deriving DecidableEq, Repr

/-- What a meaning answers. -/
abbrev Result := Host.Outcome State Fault Refusal

/-- The state after reset (10_state.md R31, 70_reset_and_hazards.md R270), for a BVE built with the
reference parameters (entry 3), with no host event and no free value supplied (entries 1, 4, 5). -/
def State.reset : State where
  params := Params.reference
  scalars := Vector.replicate 16 0
  vectors := Vector.replicate 16 []
  indices := []
  err := 0
  nr := false
  resp := none
  host := []
  entropy := { supplied := [], taken := 0 }
  padding := { supplied := [], taken := 0 }

end Sys2Proof.Machine
end

