-- ==== Sys2Proof/Machine/Flags.lean ====
section
/-! DEFINITION. The error codes and the status register (10_state.md R25, R26; 60_exceptions.md R240). -/

namespace Sys2Proof.Machine

/-- The response code 0: the command succeeded (60_exceptions.md R240). -/
def okCode : BitVec 8 := 0

/-- The number of an error (60_exceptions.md R240). -/
def ErrCode.code : ErrCode → BitVec 8
  | .illegal => 1
  | .index => 2
  | .value => 3
  | .size => 4
  | .perm => 5
  | .odd => 6
  | .slice => 7
  | .divZero => 8
  | .undef => 9
  | .cap => 10

/-- What `STATUS.ERR` becomes when a command fails: the first code since it was last 0 stays
(10_state.md R26, 60_exceptions.md R243, R247). -/
def latch (err : BitVec 8) (e : ErrCode) : BitVec 8 := if err = 0 then e.code else err

/-- The register `STATUS` (10_state.md R26): `ERR` in bits 7:0, `NR` in bit 8, zeros in bits 31:9. -/
def State.status (s : State) : BitVec 32 := 0#23 ++ BitVec.ofBool s.nr ++ s.err

/-- `STATUS.ERR <- 0` (40_system_scalar.md R91). -/
def State.clearErr (s : State) : State := { s with err := 0 }

/-- `STATUS.NR <- b` (10_state.md R25). -/
def State.setNr (s : State) (b : Bool) : State := { s with nr := b }

end Sys2Proof.Machine
end

