-- ==== Sys2Proof/Machine/Ops.lean ====
section
/-! DEFINITION. The shared operations: registers, the index list, how a command fails or succeeds, the
free values, the host's read port. -/

namespace Sys2Proof.Machine

/-- `S[r]`, the 32-bit pattern (10_state.md R20). -/
def State.scalar (s : State) (r : SReg) : Scalar := s.scalars[r.toNat]'r.isLt

/-- `S[r] <- v`, as a 32-bit pattern. -/
def State.setScalar (s : State) (r : SReg) (v : Scalar) : State :=
  { s with scalars := s.scalars.set r.toNat v r.isLt }

/-- `S[r]` read as a signed integer (00_scope.md R9). -/
def State.int (s : State) (r : SReg) : Int := (s.scalar r).toInt

/-- `S[r] <- v` for an integer `v`, which every rule keeps in range (00_scope.md R10). -/
def State.setInt (s : State) (r : SReg) (v : Int) : State := s.setScalar r (BitVec.ofInt 32 v)

/-- `V[r]` (10_state.md R21). -/
def State.vec (s : State) (r : VReg) : BitArray := s.vectors[r.toNat]'r.isLt

/-- `V[r] <- v`, size and bits (00_scope.md R10). -/
def State.setVec (s : State) (r : VReg) (v : BitArray) : State :=
  { s with vectors := s.vectors.set r.toNat v r.isLt }

/-- `V[r].size`. -/
def State.size (s : State) (r : VReg) : Nat := (s.vec r).length

/-- Replace the whole index list (10_state.md R23). -/
def State.setIndices (s : State) (l : List Scalar) : State := { s with indices := l }

/-- `raise e`: the one operation by which a command fails (60_exceptions.md R243). Nothing changes but
`STATUS.ERR`, and that only if it holds 0; the response is the error's code. There is no handler, and
so nothing is saved and nothing is returned from (R247). -/
def raise (e : ErrCode) (s : State) : Result :=
  .next { s with err := latch s.err e, resp := some e.code }

/-- A command succeeds (60_exceptions.md R243): its writes stand and the response is 0. -/
def succeed (s : State) : Result := .next { s with resp := some okCode }

/-- Take the next value of a free stream: a supplied one, or the opaque source's value for the number
of values taken so far (entries 4 and 5). -/
def takeFree (source : Nat → Nat) (f : FreeStream) : Nat × FreeStream :=
  match f.supplied with
  | [] => (source f.taken, { supplied := [], taken := f.taken + 1 })
  | x :: rest => (x, { supplied := rest, taken := f.taken + 1 })

/-- A raw free value brought into `lo..hi`; a value already there stays itself, so every value of the
range is possible (10_state.md R29; entry 4). -/
def fitRange (lo hi x : Nat) : Nat := if lo ≤ x ∧ x ≤ hi then x else lo + x % (hi - lo + 1)

/-- `draw(lo, hi)` (10_state.md R29, 93_implementation_defined.md U2). -/
def draw (lo hi : Nat) (e : FreeStream) : Nat × FreeStream :=
  let (x, e') := takeFree Config.entropySource e
  (fitRange lo hi x, e')

/-- The entropy stream after a command's draws. -/
def State.setEntropy (s : State) (e : FreeStream) : State := { s with entropy := e }

/-- The padding stream after a word is read. -/
def State.setPadding (s : State) (p : FreeStream) : State := { s with padding := p }

/-- The host's read port (60_exceptions.md R250, 10_state.md R33): 0..15 a scalar, 16 `STATUS`, 17..31
read 0. It has no side effect. -/
def State.readPort (s : State) (sel : BitVec 5) : BitVec 32 :=
  if sel.toNat < 16 then s.scalar (sel.setWidth 4)
  else if sel.toNat = 16 then s.status
  else 0

end Sys2Proof.Machine
end

