-- ==== Sys2Proof/Machine/Operands.lean ====
section
/-! DEFINITION. The operand checks the rules share. Every operand of BVE-1 is a register or the one
immediate (30_encoding.md R74). -/

namespace Sys2Proof.Machine

/-- `SLI`, `SADDI`: the immediate sign-extended to 32 bits (30_encoding.md R74). -/
def signedImm (imm16 : BitVec 16) : Scalar := imm16.signExtend 32

/-- `SLIH`: the immediate zero-extended to 32 bits (30_encoding.md R74). -/
def unsignedImm (imm16 : BitVec 16) : Scalar := imm16.setWidth 32

/-- `normidx(i, size)` (41_storage_core.md R124): a negative index counts from the end; `none` where it
fails. Legal indices are `-size .. size-1`. -/
def normIdx (i : Int) (size : Nat) : Option Nat :=
  if i ≥ size ∨ -i > size then none
  else if i ≥ 0 then some i.toNat
  else some (size + i).toNat

/-- An index that does not count from the end: `0 ≤ i < n` (41_storage_core.md R124, last sentence). -/
def plainIdx (i : Int) (n : Nat) : Option Nat :=
  if i < 0 ∨ i ≥ n then none else some i.toNat

/-- A bit given by a scalar: 0 or 1, anything else is not accepted (41_storage_core.md R116). -/
def bitValue (v : Int) : Option Bool :=
  if v = 0 then some false else if v = 1 then some true else none

/-- Slice bounds (41_storage_core.md R119): `0 ≤ i ≤ j ≤ size`. -/
def sliceBounds (i j : Int) (size : Nat) : Bool := decide (0 ≤ i ∧ i ≤ j ∧ j ≤ size)

/-- Whether every entry of the index list names a bit of a vector of that size (44_permutation.md
R170, R171). -/
def indicesInRange (indices : List Scalar) (size : Nat) : Bool :=
  indices.all fun i => decide (0 ≤ i.toInt ∧ i.toInt < size)

/-- `modcheck(M, n)` (46_galois_field.md R209): the error of the first check that fails. -/
def modCheck (m : BitArray) (n : Int) : Option ErrCode :=
  if n < 1 then some .value
  else if (m.length : Int) ≠ n + 1 then some .size
  else if intOf m = 0 then some .divZero
  else none

/-- A truth value as a scalar, 1 or 0 (10_state.md R25). -/
def truth (b : Bool) : Int := if b then 1 else 0

end Sys2Proof.Machine
end

