-- ==== Sys2Proof/Machine/Analysis.lean ====
section
/-! DEFINITION. Bit-analysis instructions (45_bit_analysis.md R180 to R192). -/

namespace Sys2Proof.Machine

/-- The common rule of `POPC` and `POPCS` (R180, R181): they differ in cost only. -/
def countBits (sd : SReg) (va : VReg) (s : State) : Result :=
  succeed (s.setInt sd (popcount (s.vec va)))

/-- The common rule of `ISP2` and `ISP2S` (R184, R185): they differ in cost only. -/
def isPowerOfTwo (sd : SReg) (va : VReg) (s : State) : Result :=
  succeed (s.setInt sd (truth (popcount (s.vec va) == 1)))

/-- `POPC sd, va` (R180). -/
def execPopc (sd : SReg) (va : VReg) (s : State) : Result := countBits sd va s

/-- `POPCS sd, va` (R181). -/
def execPopcs (sd : SReg) (va : VReg) (s : State) : Result := countBits sd va s

/-- `NSB sd, va, sa` (R182): the sentinel is -1. -/
def execNsb (sd : SReg) (va : VReg) (sa : SReg) (s : State) : Result :=
  match nextSetBit (s.vec va) (s.int sa) with
  | some p => succeed (s.setInt sd p)
  | none => succeed (s.setInt sd (-1))

/-- `RANK sd, va, sa` (R183): 0 where bit `i` is 0. -/
def execRank (sd : SReg) (va : VReg) (sa : SReg) (s : State) : Result :=
  match plainIdx (s.int sa) (s.size va) with
  | none => raise .index s
  | some i =>
    if (s.vec va).getD i false then succeed (s.setInt sd (popcount ((s.vec va).take (i + 1))))
    else succeed (s.setInt sd 0)

/-- `ISP2 sd, va` (R184). -/
def execIsp2 (sd : SReg) (va : VReg) (s : State) : Result := isPowerOfTwo sd va s

/-- `ISP2S sd, va` (R185). -/
def execIsp2s (sd : SReg) (va : VReg) (s : State) : Result := isPowerOfTwo sd va s

/-- `VREV vd, va` (R186). -/
def execVrev (vd va : VReg) (s : State) : Result := succeed (s.setVec vd (s.vec va).reverse)

/-- `VRUNS sd, va` (R189): the run lengths replace the index list, the scalar gets the value of the
first run. -/
def execVruns (sd : SReg) (va : VReg) (s : State) : Result :=
  let lengths := (runs (s.vec va)).map fun r => BitVec.ofNat 32 r.2
  succeed ((s.setIndices lengths).setInt sd (truth ((s.vec va).headD false)))

/-- `HAMM sd, va, vb` (R190). -/
def execHamm (sd : SReg) (va vb : VReg) (s : State) : Result :=
  if s.size va ≠ s.size vb then raise .size s
  else succeed (s.setInt sd (popcount (List.zipWith (· != ·) (s.vec va) (s.vec vb))))

/-- The Jaccard counts (R188): `I = popcount(A AND B)` and `U = popcount(A OR B)`. -/
def jaccardCounts (a b : BitArray) : Nat × Nat :=
  (popcount (List.zipWith (· && ·) a b), popcount (List.zipWith (· || ·) a b))

/-- The common rule of `JSIM` and `JDIST` (R191, R192): three checks in order, then the numerator,
made from `I` and `U`, and the denominator `U`. -/
def jaccard (numerator : Nat → Nat → Int) (sd se : SReg) (va vb : VReg) (s : State) : Result :=
  if sd = se then raise .illegal s
  else if s.size va ≠ s.size vb then raise .size s
  else
    let c := jaccardCounts (s.vec va) (s.vec vb)
    if c.2 = 0 then raise .undef s
    else succeed ((s.setInt sd (numerator c.1 c.2)).setInt se c.2)

/-- `JSIM sd, se, va, vb` (R191). -/
def execJsim (sd se : SReg) (va vb : VReg) (s : State) : Result :=
  jaccard (fun i _ => i) sd se va vb s

/-- `JDIST sd, se, va, vb` (R192). -/
def execJdist (sd se : SReg) (va vb : VReg) (s : State) : Result :=
  jaccard (fun i u => (u : Int) - i) sd se va vb s

end Sys2Proof.Machine
end

