-- ==== Sys2Proof/Machine/Bitwise.lean ====
section
/-! DEFINITION. Bitwise and relational instructions (42_bitwise_relational.md R140 to R152). -/

namespace Sys2Proof.Machine

/-- The common rule of `VAND`, `VOR`, `VXOR` (R152): equal sizes, then bit by bit. -/
def logical (op : Bool → Bool → Bool) (vd va vb : VReg) (s : State) : Result :=
  if s.size va ≠ s.size vb then raise .size s
  else succeed (s.setVec vd (List.zipWith op (s.vec va) (s.vec vb)))

/-- The common rule of the six comparisons (R145): integer values, whatever the sizes. -/
def compareValues (rel : Nat → Nat → Bool) (sd : SReg) (va vb : VReg) (s : State) : Result :=
  succeed (s.setInt sd (truth (rel (intOf (s.vec va)) (intOf (s.vec vb)))))

/-- `VAND vd, va, vb` (R140). -/
def execVand (vd va vb : VReg) (s : State) : Result := logical (· && ·) vd va vb s

/-- `VOR vd, va, vb` (R141). -/
def execVor (vd va vb : VReg) (s : State) : Result := logical (· || ·) vd va vb s

/-- `VXOR vd, va, vb` (R142). -/
def execVxor (vd va vb : VReg) (s : State) : Result := logical (· != ·) vd va vb s

/-- `VNOT vd, va` (R143). -/
def execVnot (vd va : VReg) (s : State) : Result := succeed (s.setVec vd ((s.vec va).map (!·)))

/-- `VCAT vd, va, vb` (R144). -/
def execVcat (vd va vb : VReg) (s : State) : Result :=
  if s.size va + s.size vb > s.params.cap then raise .cap s
  else succeed (s.setVec vd (s.vec va ++ s.vec vb))

/-- `VCEQ sd, va, vb` (R145). -/
def execVceq (sd : SReg) (va vb : VReg) (s : State) : Result :=
  compareValues (fun a b => decide (a = b)) sd va vb s

/-- `VCNE sd, va, vb` (R146). -/
def execVcne (sd : SReg) (va vb : VReg) (s : State) : Result :=
  compareValues (fun a b => decide (a ≠ b)) sd va vb s

/-- `VCLT sd, va, vb` (R147). -/
def execVclt (sd : SReg) (va vb : VReg) (s : State) : Result :=
  compareValues (fun a b => decide (a < b)) sd va vb s

/-- `VCLE sd, va, vb` (R148). -/
def execVcle (sd : SReg) (va vb : VReg) (s : State) : Result :=
  compareValues (fun a b => decide (a ≤ b)) sd va vb s

/-- `VCGT sd, va, vb` (R149). -/
def execVcgt (sd : SReg) (va vb : VReg) (s : State) : Result :=
  compareValues (fun a b => decide (a > b)) sd va vb s

/-- `VCGE sd, va, vb` (R150). -/
def execVcge (sd : SReg) (va vb : VReg) (s : State) : Result :=
  compareValues (fun a b => decide (a ≥ b)) sd va vb s

/-- `VCONT sd, va, vb` (R151): whether the pattern `V[vb]` stands in `V[va]`. -/
def execVcont (sd : SReg) (va vb : VReg) (s : State) : Result :=
  succeed (s.setInt sd (truth (occursIn (s.vec vb) (s.vec va))))

end Sys2Proof.Machine
end

