-- ==== Sys2Proof/Machine/BytePack.lean ====
section
/-! DEFINITION. Byte packing instructions (47_byte_packing.md R230 to R232). -/

namespace Sys2Proof.Machine

/-- `GETBYTE sd, va, sa` (R230): only complete bytes exist. -/
def execGetbyte (sd : SReg) (va : VReg) (sa : SReg) (s : State) : Result :=
  match plainIdx (s.int sa) (s.size va / 8) with
  | none => raise .index s
  | some k => succeed (s.setInt sd (byteOf (s.vec va) k))

/-- `APPBYTE vd, sa` (R231). -/
def execAppbyte (vd : VReg) (sa : SReg) (s : State) : Result :=
  if s.int sa < 0 ∨ s.int sa > 255 then raise .value s
  else if s.size vd + 8 > s.params.cap then raise .cap s
  else succeed (s.setVec vd (s.vec vd ++ fromInt (s.int sa).toNat 8))

end Sys2Proof.Machine
end

