-- ==== Sys2Proof/Machine/Number.lean ====
section
/-! DEFINITION. The number theory of 46_galois_field.md: the inverse modulo an integer, and the
Miller-Rabin test. -/

namespace Sys2Proof.Machine

/-- The extended Euclidean loop of 46_galois_field.md R205. The first argument bounds the number of
rounds: each one lowers the second remainder. -/
def intEuclid : Nat → Nat → Nat → Int → Int → Nat × Int
  | 0, r0, _, t0, _ => (r0, t0)
  | fuel + 1, r0, r1, t0, t1 =>
    if r1 = 0 then (r0, t0)
    else intEuclid fuel r1 (r0 - r0 / r1 * r1) t1 (t0 - (r0 / r1 : Nat) * t1)

/-- The inverse of `a` modulo `m ≠ 0`, if there is one (46_galois_field.md R205). -/
def modInverse (a m : Nat) : Option Nat :=
  let gt := intEuclid (m + 1) m (a % m) 0 1
  if gt.1 = 1 then some (gt.2 % m).toNat else none

/-- `a^d mod n` by squaring, over the binary digits of `d` (46_galois_field.md R210). -/
def powMod (a d n : Nat) : Nat :=
  (minRep d).foldl (fun x b => if b then x * x % n * a % n else x * x % n) (1 % n)

/-- `n = 2^r * d` with `d` odd: from `(r, n)`, halve while even. The first argument bounds the number
of rounds. -/
def oddPart : Nat → Nat → Nat → Nat × Nat
  | 0, r, d => (r, d)
  | fuel + 1, r, d => if d % 2 = 0 then oddPart fuel (r + 1) (d / 2) else (r, d)

/-- Whether one of the next `j` squarings of `x` gives `n - 1`. -/
def squareHits (n : Nat) : Nat → Nat → Bool
  | 0, _ => false
  | j + 1, x => x * x % n == n - 1 || squareHits n j (x * x % n)

/-- Whether the round of base `a` passes, `n - 1 = 2^r * d` (46_galois_field.md R210). -/
def roundPasses (n r d a : Nat) : Bool :=
  let x := powMod a d n
  x == 1 || x == n - 1 || squareHits n (r - 1) x

/-- `MR` (46_galois_field.md R210): `k` rounds, one draw each; it stops at the first that fails. -/
def millerRabin (n r d : Nat) : Nat → FreeStream → Bool × FreeStream
  | 0, e => (true, e)
  | k + 1, e =>
    if roundPasses n r d (draw 2 (n - 2) e).1 then millerRabin n r d k (draw 2 (n - 2) e).2
    else (false, (draw 2 (n - 2) e).2)

/-- The cases of `PRIME` (46_galois_field.md R207), `k` the number of rounds. The first three cases
make no draw. -/
def primeTest (n k : Nat) (e : FreeStream) : Bool × FreeStream :=
  if n < 2 then (false, e)
  else if n = 2 ∨ n = 3 then (true, e)
  else if n % 2 = 0 then (false, e)
  else millerRabin n (oddPart n 0 (n - 1)).1 (oddPart n 0 (n - 1)).2 k e

/-- `k` bits drawn one after another (46_galois_field.md R208). -/
def drawBits : Nat → FreeStream → BitArray × FreeStream
  | 0, e => ([], e)
  | k + 1, e =>
    let (b, e') := draw 0 1 e
    let (bits, e'') := drawBits k e'
    ((b == 1) :: bits, e'')

/-- The candidate of `RANDP` of width `w ≥ 1` (46_galois_field.md R208): ends 1, inner bits drawn in
ascending index order. -/
def primeCandidate (w : Nat) (e : FreeStream) : BitArray × FreeStream :=
  if w = 1 then ([true], e)
  else
    let (bits, e') := drawBits (w - 2) e
    (true :: (bits ++ [true]), e')

end Sys2Proof.Machine
end

