-- ==== Sys2Proof/Machine/Polynomial.lean ====
section
/-! DEFINITION. Polynomials over GF(2), each held as the natural number with its binary digits, the
`pint` of 00_scope.md R8: addition is XOR, and the polynomial of a vector is its integer value. -/

namespace Sys2Proof.Machine

/-- The degree of a non-zero polynomial. -/
def degree (p : Nat) : Nat := Nat.log2 p

/-- The carry-less product of a polynomial given by its coefficients, highest first, and another
(00_scope.md R8): each step multiplies what is there by `x` and adds the next partial product. -/
def mulBits (a : BitArray) (b : Nat) : Nat :=
  a.foldl (fun p c => (p <<< 1) ^^^ (if c then b else 0)) 0

/-- The carry-less product of two polynomials. -/
def polyMul (a b : Nat) : Nat := mulBits (minRep a) b

/-- The long division of 46_galois_field.md R201, from quotient `q` and remainder `r`. The first
argument bounds the number of rounds: each one lowers the degree of the remainder. -/
def polyDivLoop (m : Nat) : Nat → Nat → Nat → Nat × Nat
  | 0, q, r => (q, r)
  | fuel + 1, q, r =>
    if r ≠ 0 ∧ degree m ≤ degree r then
      polyDivLoop m fuel (q ^^^ (1 <<< (degree r - degree m))) (r ^^^ (m <<< (degree r - degree m)))
    else (q, r)

/-- Quotient and remainder of `a` by `m ≠ 0` (00_scope.md R8). -/
def polyDivMod (a m : Nat) : Nat × Nat := polyDivLoop m (degree a + 1) 0 a

/-- The extended Euclidean loop of 46_galois_field.md R204: at its end the first component is the
greatest common divisor. The first argument bounds the number of rounds. -/
def polyEuclid : Nat → Nat → Nat → Nat → Nat → Nat × Nat
  | 0, r0, _, t0, _ => (r0, t0)
  | fuel + 1, r0, r1, t0, t1 =>
    if r1 = 0 then (r0, t0)
    else polyEuclid fuel r1 (polyDivMod r0 r1).2 t1 (t0 ^^^ polyMul (polyDivMod r0 r1).1 t1)

/-- The inverse of `a` modulo `m`, if there is one (46_galois_field.md R204). A residue of 0 has none,
whatever the modulus, the constant 1 included (entry 11). -/
def polyInverse (a m : Nat) : Option Nat :=
  let r := (polyDivMod a m).2
  let gt := polyEuclid (degree m + 2) m r 0 1
  if r ≠ 0 ∧ gt.1 = 1 then some (polyDivMod gt.2 m).2 else none

end Sys2Proof.Machine
end

