-- ==== Sys2Proof/Machine/Galois.lean ====
section
/-! DEFINITION. Galois-field and number-theoretic instructions (46_galois_field.md R200 to R211). -/

namespace Sys2Proof.Machine

/-- `GFMUL vd, va, vb` (R200): size `max(0, a.size + b.size - 1)`, leading zeros kept (90_conflicts.md
C1). -/
def execGfmul (vd va vb : VReg) (s : State) : Result :=
  let size := s.size va + s.size vb - 1
  if size > s.params.cap then raise .cap s
  else succeed (s.setVec vd (fromInt (mulBits (s.vec va) (intOf (s.vec vb))) size))

/-- `GFQUO vd, va, vb, sa` (R201): the quotient has the dividend's size. -/
def execGfquo (vd va vb : VReg) (sa : SReg) (s : State) : Result :=
  match modCheck (s.vec vb) (s.int sa) with
  | some e => raise e s
  | none =>
    let q := (polyDivMod (intOf (s.vec va)) (intOf (s.vec vb))).1
    succeed (s.setVec vd (fromInt q (s.size va)))

/-- `GFREM vd, va, vb, sa` (R202): the remainder has exactly `n` bits (90_conflicts.md C3). -/
def execGfrem (vd va vb : VReg) (sa : SReg) (s : State) : Result :=
  match modCheck (s.vec vb) (s.int sa) with
  | some e => raise e s
  | none =>
    let r := (polyDivMod (intOf (s.vec va)) (intOf (s.vec vb))).2
    succeed (s.setVec vd (fromInt r (s.int sa).toNat))

/-- `GFMULM vd, va, vb, vc, sa` (R203): the unreduced product is internal and not subject to `CAP`. -/
def execGfmulm (vd va vb vc : VReg) (sa : SReg) (s : State) : Result :=
  match modCheck (s.vec vc) (s.int sa) with
  | some e => raise e s
  | none =>
    let p := mulBits (s.vec va) (intOf (s.vec vb))
    succeed (s.setVec vd (fromInt (polyDivMod p (intOf (s.vec vc))).2 (s.int sa).toNat))

/-- `GFMI vd, va, vb, sa` (R204): no inverse is no error, it is the empty vector and `NR = 1`. -/
def execGfmi (vd va vb : VReg) (sa : SReg) (s : State) : Result :=
  match modCheck (s.vec vb) (s.int sa) with
  | some e => raise e s
  | none =>
    match polyInverse (intOf (s.vec va)) (intOf (s.vec vb)) with
    | some b => succeed ((s.setVec vd (fromInt b (s.int sa).toNat)).setNr false)
    | none => succeed ((s.setVec vd []).setNr true)

/-- `MODINV vd, va, vb` (R205). -/
def execModinv (vd va vb : VReg) (s : State) : Result :=
  if intOf (s.vec vb) = 0 then raise .divZero s
  else
    match modInverse (intOf (s.vec va)) (intOf (s.vec vb)) with
    | some x => succeed ((s.setVec vd (minRep x)).setNr false)
    | none => succeed ((s.setVec vd []).setNr true)

/-- `VGCD vd, va, vb` (R206): the greatest common divisor of the integer values. -/
def execVgcd (vd va vb : VReg) (s : State) : Result :=
  succeed (s.setVec vd (minRep (Nat.gcd (intOf (s.vec va)) (intOf (s.vec vb)))))

/-- `PRIME sd, va, sa` (R207): the draws it makes are taken from the entropy input. -/
def execPrime (sd : SReg) (va : VReg) (sa : SReg) (s : State) : Result :=
  if s.int sa < 1 then raise .value s
  else
    let t := primeTest (intOf (s.vec va)) (s.int sa).toNat s.entropy
    succeed ((s.setInt sd (truth t.1)).setEntropy t.2)

/-- `RANDP vd, sa` (R208). -/
def execRandp (vd : VReg) (sa : SReg) (s : State) : Result :=
  if s.int sa < 1 then raise .value s
  else if s.int sa > s.params.cap then raise .cap s
  else
    let c := primeCandidate (s.int sa).toNat s.entropy
    succeed ((s.setVec vd c.1).setEntropy c.2)

end Sys2Proof.Machine
end

