-- ==== Sys2Proof/Machine/Permutation.lean ====
section
/-! DEFINITION. Permutation instructions (44_permutation.md R170 to R173). -/

namespace Sys2Proof.Machine

/-- `VPERM vd, va` (R170): the whole index list is checked before anything is written. -/
def execVperm (vd va : VReg) (s : State) : Result :=
  if indicesInRange s.indices (s.size va) then succeed (s.setVec vd (permute (s.vec va) s.indices))
  else raise .perm s

/-- `VUNPERM vd, va` (R171): the length of the list is checked before its entries. -/
def execVunperm (vd va : VReg) (s : State) : Result :=
  if s.indices.length ≠ s.size va then raise .size s
  else if indicesInRange s.indices (s.size va) then
    succeed (s.setVec vd (unpermute (s.vec va) s.indices))
  else raise .perm s

/-- `VHALF0 vd, va` (R172): the first half. -/
def execVhalf0 (vd va : VReg) (s : State) : Result :=
  if s.size va % 2 = 1 then raise .odd s
  else succeed (s.setVec vd (slice (s.vec va) 0 (s.size va / 2)))

/-- `VHALF1 vd, va` (R173): the second half. -/
def execVhalf1 (vd va : VReg) (s : State) : Result :=
  if s.size va % 2 = 1 then raise .odd s
  else succeed (s.setVec vd (slice (s.vec va) (s.size va / 2) (s.size va)))

end Sys2Proof.Machine
end

