-- ==== Sys2Proof/Machine/Shift.lean ====
section
/-! DEFINITION. Shift instructions (43_shift.md R160 to R164), all in place. -/

namespace Sys2Proof.Machine

/-- The common rule of the four shifts (R164): a negative count fails, then the register is shifted in
place, its size unchanged. -/
def shiftInPlace (op : BitArray → Nat → BitArray) (vd : VReg) (sa : SReg) (s : State) : Result :=
  if s.int sa < 0 then raise .value s
  else succeed (s.setVec vd (op (s.vec vd) (s.int sa).toNat))

/-- `VROL vd, sa` (R160). -/
def execVrol (vd : VReg) (sa : SReg) (s : State) : Result := shiftInPlace rotateLeft vd sa s

/-- `VROR vd, sa` (R161). -/
def execVror (vd : VReg) (sa : SReg) (s : State) : Result := shiftInPlace rotateRight vd sa s

/-- `VSHL vd, sa` (R162). -/
def execVshl (vd : VReg) (sa : SReg) (s : State) : Result := shiftInPlace shiftLeft vd sa s

/-- `VSHR vd, sa` (R163). -/
def execVshr (vd : VReg) (sa : SReg) (s : State) : Result := shiftInPlace shiftRight vd sa s

end Sys2Proof.Machine
end

