-- ==== Sys2Proof/Machine/Storage.lean ====
section
/-! DEFINITION. Packed storage core instructions (41_storage_core.md R110 to R124). `setValue` (R118) has
no instruction: it is any write of a whole vector register. -/

namespace Sys2Proof.Machine

/-- `VZERO vd, sa` (R110). -/
def execVzero (vd : VReg) (sa : SReg) (s : State) : Result :=
  if s.int sa < 0 then raise .value s
  else if s.int sa > s.params.cap then raise .cap s
  else succeed (s.setVec vd (zeros (s.int sa).toNat))

/-- `VINT vd, sa` (R111). -/
def execVint (vd : VReg) (sa : SReg) (s : State) : Result :=
  if s.int sa < 0 then raise .value s
  else succeed (s.setVec vd (minRep (s.int sa).toNat))

/-- `VINTS vd, sa, sb` (R112). -/
def execVints (vd : VReg) (sa sb : SReg) (s : State) : Result :=
  if s.int sa < 0 then raise .value s
  else if s.int sb < 0 then raise .value s
  else if s.int sb < minLen (s.int sa).toNat then raise .value s
  else if s.int sb > s.params.cap then raise .cap s
  else succeed (s.setVec vd (fromInt (s.int sa).toNat (s.int sb).toNat))

/-- `VTOINT sd, va` (R113). -/
def execVtoint (sd : SReg) (va : VReg) (s : State) : Result :=
  if intOf (s.vec va) > 2 ^ 31 - 1 then raise .cap s
  else succeed (s.setInt sd (intOf (s.vec va)))

/-- `VSIZE sd, va` (R114). -/
def execVsize (sd : SReg) (va : VReg) (s : State) : Result := succeed (s.setInt sd (s.size va))

/-- `GETB sd, va, sa` (R115). -/
def execGetb (sd : SReg) (va : VReg) (sa : SReg) (s : State) : Result :=
  match normIdx (s.int sa) (s.size va) with
  | none => raise .index s
  | some p => succeed (s.setInt sd (truth ((s.vec va).getD p false)))

/-- `SETB vd, sa, sb` (R116): the value is checked before the index. -/
def execSetb (vd : VReg) (sa sb : SReg) (s : State) : Result :=
  match bitValue (s.int sb) with
  | none => raise .value s
  | some b =>
    match normIdx (s.int sa) (s.size vd) with
    | none => raise .index s
    | some p => succeed (s.setVec vd ((s.vec vd).set p b))

/-- `VFILL vd, sa` (R117). -/
def execVfill (vd : VReg) (sa : SReg) (s : State) : Result :=
  match bitValue (s.int sa) with
  | none => raise .value s
  | some b => succeed (s.setVec vd (List.replicate (s.size vd) b))

/-- `VSLICE vd, va, sa, sb` (R119). -/
def execVslice (vd va : VReg) (sa sb : SReg) (s : State) : Result :=
  if sliceBounds (s.int sa) (s.int sb) (s.size va) then
    succeed (s.setVec vd (slice (s.vec va) (s.int sa).toNat (s.int sb).toNat))
  else raise .slice s

/-- `VSLSET vd, va, sa, sb` (R120): bits `i..j-1` of the destination become the source's. -/
def execVslset (vd va : VReg) (sa sb : SReg) (s : State) : Result :=
  if sliceBounds (s.int sa) (s.int sb) (s.size vd) then
    if (s.size va : Int) ≠ s.int sb - s.int sa then raise .slice s
    else
      succeed (s.setVec vd
        ((s.vec vd).take (s.int sa).toNat ++ s.vec va ++ (s.vec vd).drop (s.int sb).toNat))
  else raise .slice s

/-- `GETW sd, va, sa` (R121): zero-extended; padding bits are free, a fresh word of them at each read
(20_memory.md R54; entry 5). -/
def execGetw (sd : SReg) (va : VReg) (sa : SReg) (s : State) : Result :=
  match plainIdx (s.int sa) (wordCount s.params.wordWidth (s.size va)) with
  | none => raise .index s
  | some k =>
    let (fill, rest) := takeFree Config.paddingSource s.padding
    let word := wordRead s.params.wordWidth (s.vec va) k fill
    succeed ((s.setScalar sd (BitVec.ofNat 32 word)).setPadding rest)

/-- `SETW vd, sa, sb` (R122): the low `W` bits of the scalar's pattern. -/
def execSetw (vd : VReg) (sa sb : SReg) (s : State) : Result :=
  match plainIdx (s.int sa) (wordCount s.params.wordWidth (s.size vd)) with
  | none => raise .index s
  | some k =>
    succeed (s.setVec vd (wordWrite s.params.wordWidth (s.vec vd) k (s.scalar sb).toNat))

/-- `VMOV vd, va` (R123). -/
def execVmov (vd va : VReg) (s : State) : Result := succeed (s.setVec vd (s.vec va))

end Sys2Proof.Machine
end

