-- ==== Sys2Proof/Machine/System.lean ====
section
/-! DEFINITION. System, scalar and index-list instructions (40_system_scalar.md R90 to R99). -/

namespace Sys2Proof.Machine

/-- `NOP` (R90). -/
def execNop (s : State) : Result := succeed s

/-- `CLRERR` (R91). -/
def execClrerr (s : State) : Result := succeed s.clearErr

/-- `RDST sd` (R92). -/
def execRdst (sd : SReg) (s : State) : Result := succeed (s.setScalar sd s.status)

/-- `SLI sd, imm16` (R93). -/
def execSli (sd : SReg) (imm16 : BitVec 16) (s : State) : Result :=
  succeed (s.setScalar sd (signedImm imm16))

/-- `SLIH sd, imm16` (R94): the old value moves up 16 bits, its upper half is lost. -/
def execSlih (sd : SReg) (imm16 : BitVec 16) (s : State) : Result :=
  succeed (s.setScalar sd ((s.scalar sd <<< 16) ||| unsignedImm imm16))

/-- `SADDI sd, imm16` (R95): addition modulo 2^32. -/
def execSaddi (sd : SReg) (imm16 : BitVec 16) (s : State) : Result :=
  succeed (s.setScalar sd (s.scalar sd + signedImm imm16))

/-- `IXCLR` (R96). -/
def execIxclr (s : State) : Result := succeed (s.setIndices [])

/-- `IXPUSH sa` (R97). `IDXCAP` is `CAP` (00_scope.md R4). -/
def execIxpush (sa : SReg) (s : State) : Result :=
  if s.indices.length = s.params.cap then raise .cap s
  else succeed (s.setIndices (s.indices ++ [s.scalar sa]))

/-- `IXLEN sd` (R98). -/
def execIxlen (sd : SReg) (s : State) : Result := succeed (s.setInt sd s.indices.length)

/-- `IXGET sd, sa` (R99). -/
def execIxget (sd sa : SReg) (s : State) : Result :=
  match plainIdx (s.int sa) s.indices.length with
  | none => raise .index s
  | some k => succeed (s.setScalar sd (s.indices.getD k 0))

end Sys2Proof.Machine
end

