-- ==== Sys2Proof/Machine/Dispatch.lean ====
section
/-! DEFINITION. What each instruction does: one arm for each constructor of `Instr`. -/

namespace Sys2Proof.Machine

/-- The effect of one command, its response included (60_exceptions.md R243). -/
def exec (i : Instr) (s : State) : Host.Outcome State Fault Refusal :=
  match i with
  | .nop => Sys2Proof.Machine.execNop s
  | .clrerr => Sys2Proof.Machine.execClrerr s
  | .rdst sd => Sys2Proof.Machine.execRdst sd s
  | .sli sd imm16 => Sys2Proof.Machine.execSli sd imm16 s
  | .slih sd imm16 => Sys2Proof.Machine.execSlih sd imm16 s
  | .saddi sd imm16 => Sys2Proof.Machine.execSaddi sd imm16 s
  | .ixclr => Sys2Proof.Machine.execIxclr s
  | .ixpush sa => Sys2Proof.Machine.execIxpush sa s
  | .ixlen sd => Sys2Proof.Machine.execIxlen sd s
  | .ixget sd sa => Sys2Proof.Machine.execIxget sd sa s
  | .vzero vd sa => Sys2Proof.Machine.execVzero vd sa s
  | .vint vd sa => Sys2Proof.Machine.execVint vd sa s
  | .vints vd sa sb => Sys2Proof.Machine.execVints vd sa sb s
  | .vtoint sd va => Sys2Proof.Machine.execVtoint sd va s
  | .vsize sd va => Sys2Proof.Machine.execVsize sd va s
  | .getb sd va sa => Sys2Proof.Machine.execGetb sd va sa s
  | .setb vd sa sb => Sys2Proof.Machine.execSetb vd sa sb s
  | .vfill vd sa => Sys2Proof.Machine.execVfill vd sa s
  | .vslice vd va sa sb => Sys2Proof.Machine.execVslice vd va sa sb s
  | .vslset vd va sa sb => Sys2Proof.Machine.execVslset vd va sa sb s
  | .getw sd va sa => Sys2Proof.Machine.execGetw sd va sa s
  | .setw vd sa sb => Sys2Proof.Machine.execSetw vd sa sb s
  | .vmov vd va => Sys2Proof.Machine.execVmov vd va s
  | .vand vd va vb => Sys2Proof.Machine.execVand vd va vb s
  | .vor vd va vb => Sys2Proof.Machine.execVor vd va vb s
  | .vxor vd va vb => Sys2Proof.Machine.execVxor vd va vb s
  | .vnot vd va => Sys2Proof.Machine.execVnot vd va s
  | .vcat vd va vb => Sys2Proof.Machine.execVcat vd va vb s
  | .vceq sd va vb => Sys2Proof.Machine.execVceq sd va vb s
  | .vcne sd va vb => Sys2Proof.Machine.execVcne sd va vb s
  | .vclt sd va vb => Sys2Proof.Machine.execVclt sd va vb s
  | .vcle sd va vb => Sys2Proof.Machine.execVcle sd va vb s
  | .vcgt sd va vb => Sys2Proof.Machine.execVcgt sd va vb s
  | .vcge sd va vb => Sys2Proof.Machine.execVcge sd va vb s
  | .vcont sd va vb => Sys2Proof.Machine.execVcont sd va vb s
  | .vrol vd sa => Sys2Proof.Machine.execVrol vd sa s
  | .vror vd sa => Sys2Proof.Machine.execVror vd sa s
  | .vshl vd sa => Sys2Proof.Machine.execVshl vd sa s
  | .vshr vd sa => Sys2Proof.Machine.execVshr vd sa s
  | .vperm vd va => Sys2Proof.Machine.execVperm vd va s
  | .vunperm vd va => Sys2Proof.Machine.execVunperm vd va s
  | .vhalf0 vd va => Sys2Proof.Machine.execVhalf0 vd va s
  | .vhalf1 vd va => Sys2Proof.Machine.execVhalf1 vd va s
  | .popc sd va => Sys2Proof.Machine.execPopc sd va s
  | .popcs sd va => Sys2Proof.Machine.execPopcs sd va s
  | .nsb sd va sa => Sys2Proof.Machine.execNsb sd va sa s
  | .rank sd va sa => Sys2Proof.Machine.execRank sd va sa s
  | .isp2 sd va => Sys2Proof.Machine.execIsp2 sd va s
  | .isp2s sd va => Sys2Proof.Machine.execIsp2s sd va s
  | .vrev vd va => Sys2Proof.Machine.execVrev vd va s
  | .vruns sd va => Sys2Proof.Machine.execVruns sd va s
  | .hamm sd va vb => Sys2Proof.Machine.execHamm sd va vb s
  | .jsim sd se va vb => Sys2Proof.Machine.execJsim sd se va vb s
  | .jdist sd se va vb => Sys2Proof.Machine.execJdist sd se va vb s
  | .gfmul vd va vb => Sys2Proof.Machine.execGfmul vd va vb s
  | .gfquo vd va vb sa => Sys2Proof.Machine.execGfquo vd va vb sa s
  | .gfrem vd va vb sa => Sys2Proof.Machine.execGfrem vd va vb sa s
  | .gfmulm vd va vb vc sa => Sys2Proof.Machine.execGfmulm vd va vb vc sa s
  | .gfmi vd va vb sa => Sys2Proof.Machine.execGfmi vd va vb sa s
  | .modinv vd va vb => Sys2Proof.Machine.execModinv vd va vb s
  | .vgcd vd va vb => Sys2Proof.Machine.execVgcd vd va vb s
  | .prime sd va sa => Sys2Proof.Machine.execPrime sd va sa s
  | .randp vd sa => Sys2Proof.Machine.execRandp vd sa s
  | .getbyte sd va sa => Sys2Proof.Machine.execGetbyte sd va sa s
  | .appbyte vd sa => Sys2Proof.Machine.execAppbyte vd sa s

end Sys2Proof.Machine
end

