-- ==== Sys2Proof/Machine/Port.lean ====
section
/-! DEFINITION. The command port and the reset line (60_exceptions.md R243, R250; 70_reset_and_hazards.md
R270, R271). -/

namespace Sys2Proof.Machine

/-- The step function of 60_exceptions.md R243 for one command word: decode, then the instruction's
rule; a reserved word raises `E_ILLEGAL` (30_encoding.md R76, R77). -/
def runCommand (w : Command) (s : State) : Result :=
  match decode w with
  | .ok i => exec i s
  | .error _ => raise .illegal s

/-- The state once the BVE has taken the oldest event of the host. -/
def State.withHost (s : State) (rest : List HostEvent) : State := { s with host := rest }

/-- No event: an idle BVE keeps all its state (60_exceptions.md R256), and no response is given. -/
def State.idle (s : State) : State := { s with resp := none }

/-- The reset line (70_reset_and_hazards.md R270, R271): the reset state, in the same block. The
parameters are built in, the host's further events and the free values are not state of the BVE
(10_state.md R29; entries 3, 6 and 7). -/
def State.applyReset (s : State) : State :=
  { State.reset with
    params := s.params, host := s.host, entropy := s.entropy, padding := s.padding }

/-- `cmd_ready` between two steps (60_exceptions.md R250): the model's step is atomic, so the BVE is
always idle there (10_state.md R30). -/
def State.cmdReady (_ : State) : Bool := true

/-- `resp_valid` (60_exceptions.md R250): the last step ran a command. -/
def State.respValid (s : State) : Bool := s.resp.isSome

end Sys2Proof.Machine
end

