-- ==== Sys2Proof/Machine/Step.lean ====
section
/-! DEFINITION. One step of the BVE. There is no program counter and no fetch (10_state.md R24): the
host's next event is the one the step takes (entry 1). -/

namespace Sys2Proof.Machine

/-- One step: take the host's oldest event. A command runs to its response (20_memory.md R58); the reset
line gives the reset state (70_reset_and_hazards.md R271); with no event the BVE is idle. -/
def step (s : State) : Host.Outcome State Fault Refusal :=
  match s.host with
  | [] => .next s.idle
  | .reset :: rest => .next (s.withHost rest).applyReset
  | .command w :: rest => runCommand w (s.withHost rest)

/-- `s` with the command word offered to the port ahead of all other events, so that the next step takes
it (entry 1). Nothing else changes. -/
def State.withFetchWord (s : State) (nbits w : Nat) : State :=
  s.withHost (.command (tableCommand nbits w) :: s.host)

end Sys2Proof.Machine
end

