-- ==== Sys2Proof/Machine/Assembler.lean ====
section
/-! DEFINITION. The assembler syntax of one command and the pseudo-instructions (30_encoding.md R80,
R81). Neither is part of a step: the host writes programs with them. -/

namespace Sys2Proof.Machine

/-- An operand as the assembler writes it (30_encoding.md R80). -/
inductive AsmOperand where
  /-- `s0` to `s15`. -/
  | scalar (r : SReg)
  /-- `v0` to `v15`. -/
  | vector (r : VReg)
  /-- A decimal immediate. -/
  | immediate (n : Int)
deriving DecidableEq, Repr

/-- The operands of an instruction in the order of its syntax (30_encoding.md R75, R80). -/
def asmOperands : Instr → List AsmOperand
  | .nop => []
  | .clrerr => []
  | .rdst sd => [.scalar sd]
  | .sli sd imm16 => [.scalar sd, .immediate imm16.toInt]
  | .slih sd imm16 => [.scalar sd, .immediate imm16.toNat]
  | .saddi sd imm16 => [.scalar sd, .immediate imm16.toInt]
  | .ixclr => []
  | .ixpush sa => [.scalar sa]
  | .ixlen sd => [.scalar sd]
  | .ixget sd sa => [.scalar sd, .scalar sa]
  | .vzero vd sa => [.vector vd, .scalar sa]
  | .vint vd sa => [.vector vd, .scalar sa]
  | .vints vd sa sb => [.vector vd, .scalar sa, .scalar sb]
  | .vtoint sd va => [.scalar sd, .vector va]
  | .vsize sd va => [.scalar sd, .vector va]
  | .getb sd va sa => [.scalar sd, .vector va, .scalar sa]
  | .setb vd sa sb => [.vector vd, .scalar sa, .scalar sb]
  | .vfill vd sa => [.vector vd, .scalar sa]
  | .vslice vd va sa sb => [.vector vd, .vector va, .scalar sa, .scalar sb]
  | .vslset vd va sa sb => [.vector vd, .vector va, .scalar sa, .scalar sb]
  | .getw sd va sa => [.scalar sd, .vector va, .scalar sa]
  | .setw vd sa sb => [.vector vd, .scalar sa, .scalar sb]
  | .vmov vd va => [.vector vd, .vector va]
  | .vand vd va vb => [.vector vd, .vector va, .vector vb]
  | .vor vd va vb => [.vector vd, .vector va, .vector vb]
  | .vxor vd va vb => [.vector vd, .vector va, .vector vb]
  | .vnot vd va => [.vector vd, .vector va]
  | .vcat vd va vb => [.vector vd, .vector va, .vector vb]
  | .vceq sd va vb => [.scalar sd, .vector va, .vector vb]
  | .vcne sd va vb => [.scalar sd, .vector va, .vector vb]
  | .vclt sd va vb => [.scalar sd, .vector va, .vector vb]
  | .vcle sd va vb => [.scalar sd, .vector va, .vector vb]
  | .vcgt sd va vb => [.scalar sd, .vector va, .vector vb]
  | .vcge sd va vb => [.scalar sd, .vector va, .vector vb]
  | .vcont sd va vb => [.scalar sd, .vector va, .vector vb]
  | .vrol vd sa => [.vector vd, .scalar sa]
  | .vror vd sa => [.vector vd, .scalar sa]
  | .vshl vd sa => [.vector vd, .scalar sa]
  | .vshr vd sa => [.vector vd, .scalar sa]
  | .vperm vd va => [.vector vd, .vector va]
  | .vunperm vd va => [.vector vd, .vector va]
  | .vhalf0 vd va => [.vector vd, .vector va]
  | .vhalf1 vd va => [.vector vd, .vector va]
  | .popc sd va => [.scalar sd, .vector va]
  | .popcs sd va => [.scalar sd, .vector va]
  | .nsb sd va sa => [.scalar sd, .vector va, .scalar sa]
  | .rank sd va sa => [.scalar sd, .vector va, .scalar sa]
  | .isp2 sd va => [.scalar sd, .vector va]
  | .isp2s sd va => [.scalar sd, .vector va]
  | .vrev vd va => [.vector vd, .vector va]
  | .vruns sd va => [.scalar sd, .vector va]
  | .hamm sd va vb => [.scalar sd, .vector va, .vector vb]
  | .jsim sd se va vb => [.scalar sd, .scalar se, .vector va, .vector vb]
  | .jdist sd se va vb => [.scalar sd, .scalar se, .vector va, .vector vb]
  | .gfmul vd va vb => [.vector vd, .vector va, .vector vb]
  | .gfquo vd va vb sa => [.vector vd, .vector va, .vector vb, .scalar sa]
  | .gfrem vd va vb sa => [.vector vd, .vector va, .vector vb, .scalar sa]
  | .gfmulm vd va vb vc sa => [.vector vd, .vector va, .vector vb, .vector vc, .scalar sa]
  | .gfmi vd va vb sa => [.vector vd, .vector va, .vector vb, .scalar sa]
  | .modinv vd va vb => [.vector vd, .vector va, .vector vb]
  | .vgcd vd va vb => [.vector vd, .vector va, .vector vb]
  | .prime sd va sa => [.scalar sd, .vector va, .scalar sa]
  | .randp vd sa => [.vector vd, .scalar sa]
  | .getbyte sd va sa => [.scalar sd, .vector va, .scalar sa]
  | .appbyte vd sa => [.vector vd, .scalar sa]

/-- The mnemonic of an instruction, read from its row of the opcode map. -/
def mnemonicOf (i : Instr) : Option String := (rowOf (fieldOp (encode i))).map (·.mnemonic)

/-- One operand as text. -/
def AsmOperand.text : AsmOperand → String
  | .scalar r => "s" ++ toString r.toNat
  | .vector r => "v" ++ toString r.toNat
  | .immediate n => toString n

/-- One command as a line of assembler text (30_encoding.md R80). -/
def asmLine (i : Instr) : Option String :=
  (mnemonicOf i).map fun m =>
    match asmOperands i with
    | [] => m
    | ops => m ++ " " ++ String.intercalate ", " (ops.map (·.text))

/-- A decimal immediate the assembler accepts (30_encoding.md R80): -32768..32767 for `SLI` and `SADDI`,
0..65535 for `SLIH`. -/
def decimalImmediate (isSlih : Bool) (n : Int) : Option (BitVec 16) :=
  if isSlih then if 0 ≤ n ∧ n ≤ 65535 then some (BitVec.ofInt 16 n) else none
  else if -32768 ≤ n ∧ n ≤ 32767 then some (BitVec.ofInt 16 n) else none

/-- A hexadecimal immediate the assembler accepts (30_encoding.md R80): any 16 bits. -/
def hexImmediate (n : Nat) : Option (BitVec 16) :=
  if n ≤ 0xFFFF then some (BitVec.ofNat 16 n) else none

/-- The pseudo-instruction `SLI32 sd, imm32` (30_encoding.md R81). -/
def sli32 (sd : SReg) (imm32 : BitVec 32) : List Instr :=
  [.sli sd (imm32.extractLsb' 16 16), .slih sd (imm32.extractLsb' 0 16)]

/-- The pseudo-instruction `VCLR vd` with the scratch scalar `sx` (30_encoding.md R81). -/
def vclr (vd : VReg) (sx : SReg) : List Instr := [.sli sx 0, .vzero vd sx]

/-- The commands of `VBITS` that set the 1 bits among `bits`, the first of which has index `k`. -/
def setBits (vd : VReg) (sx sy : SReg) : Nat → BitArray → List Instr
  | _, [] => []
  | k, b :: bits =>
    (if b then [.sli sx (BitVec.ofNat 16 k), .setb vd sx sy] else []) ++
      setBits vd sx sy (k + 1) bits

/-- The pseudo-instruction `VBITS vd, bits` with the scratch scalars `sx` and `sy`, for at most 32767
bits (30_encoding.md R81). -/
def vbits (vd : VReg) (sx sy : SReg) (bits : BitArray) : List Instr :=
  [.sli sx (BitVec.ofNat 16 bits.length), .vzero vd sx, .sli sy 1] ++ setBits vd sx sy 0 bits

end Sys2Proof.Machine
end

