-- ==== Sys2Proof/WellFormed.lean ====
section
/-! DEFINITION. Well-formed instructions. Register numbers and immediates are fields of exactly the
width the encoding gives them, so the types of `Instr` already exclude every operand the encoding
cannot hold. What is left is the one operand-field check of the spec: the two scalar destinations of
`JSIM` and `JDIST` differ (45_bit_analysis.md R191, 30_encoding.md R78). -/

namespace Sys2Proof

/-- The two scalar destinations of an instruction that has two, `none` for every other one
(10_state.md R30: only `JSIM` and `JDIST` have two). -/
def Instr.destinationPair : Instr → Option (SReg × SReg)
  | .jsim sd se _ _ => some (sd, se)
  | .jdist sd se _ _ => some (sd, se)
  | _ => none

/-- An instruction no operand-field check refuses (60_exceptions.md R244, first step of the plan). An
ill-formed one still decodes, and raises `E_ILLEGAL` when it is executed (30_encoding.md R78). -/
def Instr.wellFormed (i : Instr) : Bool :=
  match i.destinationPair with
  | some (sd, se) => sd != se
  | none => true

end Sys2Proof
end

