-- ==== Sys2Proof/Safety.lean ====
section
/-! DEFINITION. The terms the claims are stated in: what a command that succeeds and one that fails
leave, which registers an instruction may write, the invariant, and the mathematical readings of a bit
vector. Nothing here is part of the machine. -/

namespace Sys2Proof

/-- The scalar destinations of an instruction (30_encoding.md R75; the `se` of R71 included). -/
def Instr.scalarDests (i : Instr) : List SReg :=
  match i with
  | .rdst sd | .sli sd _ | .slih sd _ | .saddi sd _ | .ixlen sd | .ixget sd _ | .vtoint sd _
  | .vsize sd _ | .getb sd _ _ | .getw sd _ _ | .vceq sd _ _ | .vcne sd _ _ | .vclt sd _ _
  | .vcle sd _ _ | .vcgt sd _ _ | .vcge sd _ _ | .vcont sd _ _ | .popc sd _ | .popcs sd _
  | .nsb sd _ _ | .rank sd _ _ | .isp2 sd _ | .isp2s sd _ | .vruns sd _ | .hamm sd _ _
  | .prime sd _ _ | .getbyte sd _ _ => [sd]
  | .jsim sd se _ _ | .jdist sd se _ _ => [sd, se]
  | .nop | .clrerr | .ixclr | .ixpush _ | .vzero _ _ | .vint _ _ | .vints _ _ _ | .setb _ _ _
  | .vfill _ _ | .vslice _ _ _ _ | .vslset _ _ _ _ | .setw _ _ _ | .vmov _ _ | .vand _ _ _
  | .vor _ _ _ | .vxor _ _ _ | .vnot _ _ | .vcat _ _ _ | .vrol _ _ | .vror _ _ | .vshl _ _
  | .vshr _ _ | .vperm _ _ | .vunperm _ _ | .vhalf0 _ _ | .vhalf1 _ _ | .vrev _ _ | .gfmul _ _ _
  | .gfquo _ _ _ _ | .gfrem _ _ _ _ | .gfmulm _ _ _ _ _ | .gfmi _ _ _ _ | .modinv _ _ _
  | .vgcd _ _ _ | .randp _ _ | .appbyte _ _ => []

/-- The vector destination of an instruction, if it has one (30_encoding.md R75). -/
def Instr.vectorDest (i : Instr) : Option VReg :=
  match i with
  | .vzero vd _ | .vint vd _ | .vints vd _ _ | .setb vd _ _ | .vfill vd _ | .vslice vd _ _ _
  | .vslset vd _ _ _ | .setw vd _ _ | .vmov vd _ | .vand vd _ _ | .vor vd _ _ | .vxor vd _ _
  | .vnot vd _ | .vcat vd _ _ | .vrol vd _ | .vror vd _ | .vshl vd _ | .vshr vd _ | .vperm vd _
  | .vunperm vd _ | .vhalf0 vd _ | .vhalf1 vd _ | .vrev vd _ | .gfmul vd _ _ | .gfquo vd _ _ _
  | .gfrem vd _ _ _ | .gfmulm vd _ _ _ _ | .gfmi vd _ _ _ | .modinv vd _ _ | .vgcd vd _ _
  | .randp vd _ | .appbyte vd _ => some vd
  | .nop | .clrerr | .rdst _ | .sli _ _ | .slih _ _ | .saddi _ _ | .ixclr | .ixpush _ | .ixlen _
  | .ixget _ _ | .vtoint _ _ | .vsize _ _ | .getb _ _ _ | .getw _ _ _ | .vceq _ _ _ | .vcne _ _ _
  | .vclt _ _ _ | .vcle _ _ _ | .vcgt _ _ _ | .vcge _ _ _ | .vcont _ _ _ | .popc _ _ | .popcs _ _
  | .nsb _ _ _ | .rank _ _ _ | .isp2 _ _ | .isp2s _ _ | .vruns _ _ | .hamm _ _ _ | .jsim _ _ _ _
  | .jdist _ _ _ _ | .prime _ _ _ | .getbyte _ _ _ => none

/-- The instructions that write the index list (10_state.md section 1). -/
def Instr.writesIndices (i : Instr) : Bool :=
  match i with
  | .ixclr | .ixpush _ | .vruns _ _ => true
  | _ => false

/-- The instructions that write `NR` (10_state.md R25). -/
def Instr.writesNr (i : Instr) : Bool :=
  match i with
  | .gfmi _ _ _ _ | .modinv _ _ _ => true
  | _ => false

/-- The instructions that draw from the entropy input (10_state.md R29). -/
def Instr.draws (i : Instr) : Bool :=
  match i with
  | .prime _ _ _ | .randp _ _ => true
  | _ => false

/-- The instruction whose result holds padding bits (10_state.md R32). -/
def Instr.readsPadding (i : Instr) : Bool :=
  match i with
  | .getw _ _ _ => true
  | _ => false

/-- The opcodes 30_encoding.md R77 lists as not in the map. -/
def unassignedOpcode (op : Nat) : Bool :=
  op == 0x03 || op == 0x07 || (0x0C ≤ op && op ≤ 0x0F) || (0x1D ≤ op && op ≤ 0x1F) ||
    (0x25 ≤ op && op ≤ 0x27) || op == 0x2F || (0x34 ≤ op && op ≤ 0x37) ||
    (0x3C ≤ op && op ≤ 0x3F) || (0x4B ≤ op && op ≤ 0x4F) || (0x59 ≤ op && op ≤ 0x5F) ||
    (0x62 ≤ op && op ≤ 0xFF)

namespace Machine

/-- `t` with the response 0: what a command leaves whose writes make `t` (60_exceptions.md R243). -/
def done (t : State) : State := { t with resp := some 0 }

/-- What a command failing with `e` leaves of `s` (60_exceptions.md R243 (1) to (3)): nothing changes but
`STATUS.ERR`, and that only if it held 0, and the response. -/
def failed (e : ErrCode) (s : State) : State :=
  { s with err := if s.err = 0 then e.code else s.err, resp := some e.code }

/-- `v` has that size and its bit `k` is `bit k`, for every `k` below the size (00_scope.md R5). -/
def IsVector (v : BitArray) (size : Nat) (bit : Nat → Bool) : Prop :=
  v.length = size ∧ ∀ k, k < size → v[k]? = some (bit k)

/-- `v` is the minimal big-endian representation of `n` (00_scope.md R7): its first bit is 1, or it is
the one bit `"0"`. -/
def IsMinRep (v : BitArray) (n : Nat) : Prop :=
  intOf v = n ∧ (v = [false] ∨ v.head? = some true)

/-- `rs` is the run decomposition of `v` (45_bit_analysis.md R187). -/
def IsRuns (v : BitArray) (rs : List (Bool × Nat)) : Prop :=
  (rs.flatMap fun r => List.replicate r.2 r.1) = v ∧ (∀ r ∈ rs, 1 ≤ r.2) ∧
    rs.IsChain (fun a b => a.1 ≠ b.1)

/-- How many positions of a vector of that size satisfy `p`. -/
def countBelow (size : Nat) (p : Nat → Bool) : Nat := ((List.range size).filter p).length

/-- `poly(v)`, the polynomial over GF(2) with the bits as coefficients (00_scope.md R8). -/
noncomputable def polyOf (v : BitArray) : Polynomial (ZMod 2) :=
  ∑ k ∈ Finset.range v.length,
    if v.getD k false then Polynomial.X ^ (v.length - 1 - k) else 0

/-- Whether base `a` lets the odd `n` pass one Miller-Rabin round (46_galois_field.md R210), in terms of
powers: `n - 1 = 2^r * d` with `d` odd. -/
def PassesRound (n a : Nat) : Prop :=
  ∃ r d, n - 1 = 2 ^ r * d ∧ d % 2 = 1 ∧
    (a ^ d % n = 1 ∨ ∃ j, j < r ∧ a ^ (2 ^ j * d) % n = n - 1)

/-- The invariant of the reachable states (10_state.md R22 (a), R23, R26; 00_scope.md R4;
60_exceptions.md R240). -/
structure State.Inv (s : State) : Prop where
  /-- The parameters are legal. -/
  legal : s.params.Legal
  /-- No vector register is larger than `CAP`. -/
  sizes : ∀ r, s.size r ≤ s.params.cap
  /-- The index list holds at most `IDXCAP` entries. -/
  indices : s.indices.length ≤ s.params.cap
  /-- `STATUS.ERR` holds a code of the table. -/
  err : s.err.toNat ≤ 10
  /-- The response, if any, is a code of the table. -/
  resp : ∀ c, s.resp = some c → c.toNat ≤ 10

/-- On a failing check of `modcheck(m, n)` the instruction fails with that check's error
(46_galois_field.md R209, checks a, b and c in their order). -/
def ChecksModulus (i : Instr) (m : BitArray) (n : Int) (s : State) : Prop :=
  (n < 1 → exec i s = .next (failed .value s)) ∧
    (1 ≤ n → (m.length : Int) ≠ n + 1 → exec i s = .next (failed .size s)) ∧
    (1 ≤ n → (m.length : Int) = n + 1 → (∀ b ∈ m, b = false) →
      exec i s = .next (failed .divZero s))

/-- Run instructions one after another (20_memory.md R58), stopping where one gives no next state. -/
def execAll : List Instr → State → Option State
  | [], s => some s
  | i :: rest, s =>
    match exec i s with
    | .next t => execAll rest t
    | _ => none

end Machine

end Sys2Proof
end

