-- ==== Sys2Proof/Certificates/Slice0/Obligations.lean ====
section
/-! DEFINITION. The statements about the BVE for the provers. `done t` is `t` with the response 0,
`failed e s` is what a command failing with `e` leaves (Sys2Proof/Safety.lean): an equation
`exec i s = .next (done t)` says both what the command writes and that it writes nothing else. -/

open Sys2Proof Sys2Proof.Machine

/-! ## Reset, the command port, encoding -/

/-- R31: the state right after reset. -/
def Obligations.ResetHoldsTheResetValues : Prop :=
  (∀ r, State.reset.scalar r = 0) ∧ (∀ r, State.reset.vec r = []) ∧ State.reset.indices = [] ∧
    State.reset.status = 0 ∧ State.reset.err = 0 ∧ State.reset.nr = false

/-- 70_reset_and_hazards.md R271 and log entries 3, 6 and 7 (the reset line is a host event, and what is
no state of the BVE stays: the model's choice): a reset event gives the reset values, with no response
pending. -/
def Obligations.ResetEventGivesTheResetState : Prop :=
  ∀ (s : State) (rest : List HostEvent), s.host = .reset :: rest →
    step s = .next { State.reset with
      params := s.params, host := rest, entropy := s.entropy, padding := s.padding }

/-- R243's step function on the command port (log entry 1: the port is a list of host events, the
model's choice): a command word that decodes runs exactly that instruction, on the state without the
event taken; with no event nothing changes but that no response is given; a word placed by
`withFetchWord` is the one the next step runs. -/
def Obligations.StepRunsTheDecodedCommand : Prop :=
  (∀ (s : State) (w : Command) (rest : List HostEvent) (i : Instr),
      s.host = .command w :: rest → decode w = .ok i → step s = exec i { s with host := rest }) ∧
    (∀ s : State, s.host = [] → step s = .next { s with resp := none }) ∧
    (∀ (s : State) (w : Command) (i : Instr), decode w = .ok i →
      step (s.withFetchWord 32 w.toNat) = exec i s)

/-- R76: a word of a known opcode with a non-zero unused slot raises `E_ILLEGAL` and changes nothing
else; for format I the slot is bits 19:16. -/
def Obligations.UnusedSlotsMustBeZero : Prop :=
  (∀ (s : State) (w : Command) (rest : List HostEvent) (r : OpcodeRow),
      s.host = .command w :: rest → rowOf (fieldOp w) = some r →
      (∃ k, k < 24 ∧ r.mask.getLsbD k = true ∧ w.getLsbD k = true) →
      step s = .next (failed .illegal { s with host := rest })) ∧
    (∀ (s : State) (w : Command) (rest : List HostEvent),
      s.host = .command w :: rest → 0x04 ≤ (fieldOp w).toNat → (fieldOp w).toNat ≤ 0x06 →
      fieldSA w ≠ 0 → step s = .next (failed .illegal { s with host := rest })) ∧
    (∀ (s : State) (rest : List HostEvent), s.host = .command 0x20100123#32 :: rest →
      step s = .next (failed .illegal { s with host := rest }))

/-- R77: the 191 opcodes outside the map; executing one raises `E_ILLEGAL` and changes nothing else. -/
def Obligations.UnassignedOpcodesAreReserved : Prop :=
  (∀ (s : State) (w : Command) (rest : List HostEvent), s.host = .command w :: rest →
      unassignedOpcode (fieldOp w).toNat = true →
      step s = .next (failed .illegal { s with host := rest })) ∧
    (∀ op : BitVec 8, unassignedOpcode op.toNat = false ↔ (rowOf op).isSome = true) ∧
    countBelow 256 unassignedOpcode = 191 ∧ opcodeMap.length = 65

/-- R82, R75: the decoder reads back the instruction the encoder wrote, every operand included. -/
def Obligations.DecodeOfEncodeIsTheInstruction : Prop :=
  ∀ i : Instr, decode (encode i) = .ok i

/-- R82: a word that decodes is the word of that instruction, so every instruction has one word and no
bit of a word is ignored; a word that is no instruction's is reserved. -/
def Obligations.DecodedWordIsTheEncoding : Prop :=
  (∀ (w : Command) (i : Instr), decode w = .ok i → encode i = w) ∧
    (∀ w : Command, (∀ i, encode i ≠ w) → ∃ e, decode w = .error e)

/-- The command words of the examples of the section files, one for each family. -/
def Obligations.ExampleWordsDecode : Prop :=
  decode 0x05101B00#32 = .ok (.slih 1 0x1B00) ∧ decode 0x0B320000#32 = .ok (.ixget 3 2) ∧
    decode 0x18034210#32 = .ok (.vslice 2 1 3 4) ∧ decode 0x24000312#32 = .ok (.vcat 3 1 2) ∧
    decode 0x31020100#32 = .ok (.vror 1 2) ∧ decode 0x39000320#32 = .ok (.vunperm 3 2) ∧
    decode 0x49010012#32 = .ok (.jsim 0 1 1 2) ∧ decode 0x53050312#32 = .ok (.gfmulm 3 1 2 0 5) ∧
    decode 0x60020010#32 = .ok (.getbyte 0 1 2)

/-! ## Rules about every command -/

/-- R282: every step yields a next state; a command yields exactly one response, a code of R240. -/
def Obligations.EveryStepYieldsANextState : Prop :=
  ∀ s : State, ∃ t, step s = .next t ∧
    ∀ (w : Command) (rest : List HostEvent), s.host = .command w :: rest →
      t.host = rest ∧ ∃ c, t.resp = some c ∧ c.toNat ≤ 10

/-- R243: a command that fails changes nothing but `STATUS.ERR`, and that only if it held 0; one that
succeeds leaves `STATUS.ERR` unless it is `CLRERR`. -/
def Obligations.FailingCommandChangesOnlyTheLatch : Prop :=
  ∀ (s : State) (w : Command) (rest : List HostEvent), s.host = .command w :: rest →
    ∃ t c, step s = .next t ∧ t.resp = some c ∧
      (c ≠ 0 → t = { s with
        host := rest, err := if s.err = 0 then c else s.err, resp := some c }) ∧
      (c = 0 → decode w ≠ .ok .clrerr → t.err = s.err)

/-- Log entry 10 names the invariant; the bounds are those of R22 (a), R23, R26, R4 and R240. -/
def Obligations.ResetSatisfiesTheInvariant : Prop := State.reset.Inv

/-- R22 (a), R23, R26: every step keeps the invariant, from every state that has it. -/
def Obligations.EveryStepKeepsTheInvariant : Prop :=
  ∀ s t : State, s.Inv → step s = .next t → t.Inv

/-- 10_state.md sections 1 to 4, 6 and 10: a command writes no register but its destinations, no index list
unless it is one of the three that write it, and no `NR` unless it is `GFMI` or `MODINV`. The clauses on
the fields the model adds (the entropy stream, log entry 4; the padding stream, log entry 5; the
parameters, log entry 3; the host's events, log entry 1: the model's choices) say what sections 7 (R27)
and 9 (R29, R32) then require: no free stream is advanced unless the command uses it, and the parameters
and the host's events never change. -/
def Obligations.CommandWritesOnlyItsDestinations : Prop :=
  ∀ (i : Instr) (s t : State), exec i s = .next t →
    (∀ r, r ∉ i.scalarDests → t.scalar r = s.scalar r) ∧
      (∀ r, i.vectorDest ≠ some r → t.vec r = s.vec r) ∧
      (i.writesIndices = false → t.indices = s.indices) ∧
      (i.writesNr = false → t.nr = s.nr) ∧
      (i.draws = false → t.entropy = s.entropy) ∧
      (i.readsPadding = false → t.padding = s.padding) ∧
      t.params = s.params ∧ t.host = s.host

/-- R32, R29: no command but `GETW` depends on padding bits, and none but `PRIME` and `RANDP` on the
entropy input: on a state that differs in those alone it does the same. -/
def Obligations.FreeInputsReachOnlyTheirReaders : Prop :=
  (∀ (i : Instr) (s t : State) (p : FreeStream), i.readsPadding = false → exec i s = .next t →
      exec i { s with padding := p } = .next { t with padding := p }) ∧
    (∀ (i : Instr) (s t : State) (e : FreeStream), i.draws = false → exec i s = .next t →
      exec i { s with entropy := e } = .next { t with entropy := e })

/-- 20_memory.md R58 and 60_exceptions.md R246, in the model's fields for them (the list of host events,
log entry 1, and the last response, log entry 2: the model's choices): a command sees nothing of the
host's later events, and the response of an earlier command changes no result. -/
def Obligations.LaterCommandsAreInvisible : Prop :=
  ∀ (i : Instr) (s t : State) (h : List HostEvent) (c : Option (BitVec 8)),
    exec i s = .next t →
      exec i { s with host := h, resp := c } = .next { t with host := h }

/-- R33 and the read port of R250: 0 to 15 the scalars, 16 `STATUS`, 17 to 31 zero; the status word is
`ERR + 256 * NR`, its bits 31:9 zero (R26). -/
def Obligations.ReadPortShowsScalarsAndStatus : Prop :=
  ∀ s : State,
    (∀ r : SReg, s.readPort (r.setWidth 5) = s.scalar r) ∧ s.readPort 16 = s.status ∧
      (∀ sel : BitVec 5, 17 ≤ sel.toNat → s.readPort sel = 0) ∧
      s.status.toNat = s.err.toNat + 256 * s.nr.toNat ∧
      (∀ k, 9 ≤ k → s.status.getLsbD k = false)

/-- R10, R22 (c): a register written reads back as written, and no other register changes; an integer in
the range of a scalar reads back as itself (R9). -/
def Obligations.RegisterReadsBackWhatWasWritten : Prop :=
  (∀ (s : State) (r i : SReg) (v : Scalar),
      (s.setScalar r v).scalar i = if i = r then v else s.scalar i) ∧
    (∀ (s : State) (r : SReg) (v : Int), -2 ^ 31 ≤ v → v < 2 ^ 31 → (s.setInt r v).int r = v) ∧
    (∀ (s : State) (r i : VReg) (v : BitArray),
      (s.setVec r v).vec i = if i = r then v else s.vec i)

/-- R6: the integer value is the big-endian sum of the bits. -/
def Obligations.IntegerValueIsBigEndian : Prop :=
  (∀ v : BitArray,
      intOf v = ∑ k ∈ Finset.range v.length, (v.getD k false).toNat * 2 ^ (v.length - 1 - k)) ∧
    intOf [] = 0 ∧ (∀ (v : BitArray) (n : Nat), intOf (zeros n ++ v) = intOf v) ∧
    intOf [false, true, true, false, false, false, true] = 49

/-! ## System, scalar and index list -/

/-- R90, R91, R92. -/
def Obligations.SystemCommandsResult : Prop :=
  ∀ s : State,
    (decode 0x00000000#32 = .ok .nop ∧ exec .nop s = .next (done s)) ∧
      (decode 0x01000000#32 = .ok .clrerr ∧ exec .clrerr s = .next (done { s with err := 0 })) ∧
      ∀ sd : SReg, decode (formatR 0x02 sd 0 0 0 0 0) = .ok (.rdst sd) ∧
        exec (.rdst sd) s = .next (done (s.setInt sd (s.err.toNat + 256 * s.nr.toNat)))

/-- R93, R94, R95. -/
def Obligations.ScalarImmediateCommandsResult : Prop :=
  ∀ (s : State) (sd : SReg) (imm16 : BitVec 16),
    (decode (formatI 0x04 sd imm16) = .ok (.sli sd imm16) ∧
        exec (.sli sd imm16) s = .next (done (s.setInt sd imm16.toInt))) ∧
      (decode (formatI 0x05 sd imm16) = .ok (.slih sd imm16) ∧
        exec (.slih sd imm16) s = .next (done (s.setScalar sd
          (BitVec.ofNat 32 ((s.scalar sd).toNat * 2 ^ 16 + imm16.toNat))))) ∧
      (decode (formatI 0x06 sd imm16) = .ok (.saddi sd imm16) ∧
        exec (.saddi sd imm16) s = .next (done (s.setInt sd (s.int sd + imm16.toInt))))

/-- R96, R97, R98, R99. -/
def Obligations.IndexListCommandsResult : Prop :=
  ∀ (s : State) (sd sa : SReg),
    (decode 0x08000000#32 = .ok .ixclr ∧ exec .ixclr s = .next (done { s with indices := [] })) ∧
      (decode (formatR 0x09 0 sa 0 0 0 0) = .ok (.ixpush sa) ∧
        (s.indices.length = s.params.cap → exec (.ixpush sa) s = .next (failed .cap s)) ∧
        (s.indices.length ≠ s.params.cap → exec (.ixpush sa) s =
          .next (done { s with indices := s.indices ++ [s.scalar sa] }))) ∧
      (decode (formatR 0x0A sd 0 0 0 0 0) = .ok (.ixlen sd) ∧
        exec (.ixlen sd) s = .next (done (s.setInt sd s.indices.length))) ∧
      (decode (formatR 0x0B sd sa 0 0 0 0) = .ok (.ixget sd sa) ∧
        (s.int sa < 0 ∨ s.indices.length ≤ s.int sa →
          exec (.ixget sd sa) s = .next (failed .index s)) ∧
        ∀ (k : Nat) (v : Scalar), s.int sa = k → s.indices[k]? = some v →
          exec (.ixget sd sa) s = .next (done (s.setScalar sd v)))

/-! ## Packed storage core -/

/-- R110, R111, R112. -/
def Obligations.ConstructingCommandsResult : Prop :=
  ∀ (s : State) (vd : VReg) (sa sb : SReg),
    (decode (formatR 0x10 0 sa 0 vd 0 0) = .ok (.vzero vd sa) ∧
        (s.int sa < 0 → exec (.vzero vd sa) s = .next (failed .value s)) ∧
        (0 ≤ s.int sa → s.params.cap < s.int sa →
          exec (.vzero vd sa) s = .next (failed .cap s)) ∧
        (0 ≤ s.int sa → s.int sa ≤ s.params.cap →
          ∃ v, IsVector v (s.int sa).toNat (fun _ => false) ∧
            exec (.vzero vd sa) s = .next (done (s.setVec vd v)))) ∧
      (decode (formatR 0x11 0 sa 0 vd 0 0) = .ok (.vint vd sa) ∧
        (s.int sa < 0 → exec (.vint vd sa) s = .next (failed .value s)) ∧
        (0 ≤ s.int sa → ∃ v, IsMinRep v (s.int sa).toNat ∧ v.length ≤ 31 ∧
          exec (.vint vd sa) s = .next (done (s.setVec vd v)))) ∧
      (decode (formatR 0x12 0 sa sb vd 0 0) = .ok (.vints vd sa sb) ∧
        (s.int sa < 0 ∨ s.int sb < 1 ∨ 2 ^ (s.int sb).toNat ≤ (s.int sa).toNat →
          exec (.vints vd sa sb) s = .next (failed .value s)) ∧
        (0 ≤ s.int sa → 1 ≤ s.int sb → (s.int sa).toNat < 2 ^ (s.int sb).toNat →
          (s.params.cap < s.int sb → exec (.vints vd sa sb) s = .next (failed .cap s)) ∧
          (s.int sb ≤ s.params.cap →
            ∃ v, v.length = (s.int sb).toNat ∧ intOf v = (s.int sa).toNat ∧
              exec (.vints vd sa sb) s = .next (done (s.setVec vd v)))))

/-- R113, R114. -/
def Obligations.ValueAndSizeCommandsResult : Prop :=
  ∀ (s : State) (sd : SReg) (va : VReg),
    (decode (formatR 0x13 sd 0 0 0 va 0) = .ok (.vtoint sd va) ∧
        (2 ^ 31 - 1 < intOf (s.vec va) → exec (.vtoint sd va) s = .next (failed .cap s)) ∧
        (intOf (s.vec va) ≤ 2 ^ 31 - 1 →
          exec (.vtoint sd va) s = .next (done (s.setInt sd (intOf (s.vec va)))))) ∧
      (decode (formatR 0x14 sd 0 0 0 va 0) = .ok (.vsize sd va) ∧
        exec (.vsize sd va) s = .next (done (s.setInt sd (s.vec va).length)))

/-- R115, R116, R124: `GETB` reads the bit at its index and `SETB` changes it, a negative index counting
from the end; `SETB` checks the value before the index. -/
def Obligations.SingleBitCommandsResult : Prop :=
  ∀ (s : State) (sd sa sb : SReg) (vd va : VReg),
    (decode (formatR 0x15 sd sa 0 0 va 0) = .ok (.getb sd va sa) ∧
        ((s.size va : Int) ≤ s.int sa ∨ (s.size va : Int) < -s.int sa →
          exec (.getb sd va sa) s = .next (failed .index s)) ∧
        ∀ (p : Nat) (b : Bool), (s.int sa = p ∨ s.int sa < 0 ∧ s.int sa + s.size va = p) →
          (s.vec va)[p]? = some b →
          exec (.getb sd va sa) s = .next (done (s.setInt sd (if b then 1 else 0)))) ∧
      (decode (formatR 0x16 0 sa sb vd 0 0) = .ok (.setb vd sa sb) ∧
        (s.int sb ≠ 0 → s.int sb ≠ 1 → exec (.setb vd sa sb) s = .next (failed .value s)) ∧
        (s.int sb = 0 ∨ s.int sb = 1 →
          (s.size vd : Int) ≤ s.int sa ∨ (s.size vd : Int) < -s.int sa →
          exec (.setb vd sa sb) s = .next (failed .index s)) ∧
        ∀ p : Nat, s.int sb = 0 ∨ s.int sb = 1 →
          (s.int sa = p ∨ s.int sa < 0 ∧ s.int sa + s.size vd = p) → p < s.size vd →
          ∃ v, IsVector v (s.size vd)
              (fun k => if k = p then s.int sb == 1 else (s.vec vd).getD k false) ∧
            exec (.setb vd sa sb) s = .next (done (s.setVec vd v)))

/-- R117, R123. That `VFILL` gives every bit one value is R117's sentence marked as not in its source. -/
def Obligations.FillAndCopyResult : Prop :=
  ∀ (s : State) (vd va : VReg) (sa : SReg),
    (decode (formatR 0x17 0 sa 0 vd 0 0) = .ok (.vfill vd sa) ∧
        (s.int sa ≠ 0 → s.int sa ≠ 1 → exec (.vfill vd sa) s = .next (failed .value s)) ∧
        (s.int sa = 0 ∨ s.int sa = 1 →
          ∃ v, IsVector v (s.size vd) (fun _ => s.int sa == 1) ∧
            exec (.vfill vd sa) s = .next (done (s.setVec vd v)))) ∧
      (decode (formatR 0x1C 0 0 0 vd va 0) = .ok (.vmov vd va) ∧
        exec (.vmov vd va) s = .next (done (s.setVec vd (s.vec va))))

/-- R119, R120. -/
def Obligations.SliceCommandsResult : Prop :=
  ∀ (s : State) (vd va : VReg) (sa sb : SReg) (i j : Int), s.int sa = i → s.int sb = j →
    (decode (formatR 0x18 0 sa sb vd va 0) = .ok (.vslice vd va sa sb) ∧
        (¬(0 ≤ i ∧ i ≤ j ∧ j ≤ s.size va) →
          exec (.vslice vd va sa sb) s = .next (failed .slice s)) ∧
        (0 ≤ i → i ≤ j → j ≤ s.size va →
          ∃ v, IsVector v (j - i).toNat (fun t => (s.vec va).getD (i.toNat + t) false) ∧
            exec (.vslice vd va sa sb) s = .next (done (s.setVec vd v)))) ∧
      (decode (formatR 0x19 0 sa sb vd va 0) = .ok (.vslset vd va sa sb) ∧
        (¬(0 ≤ i ∧ i ≤ j ∧ j ≤ s.size vd) ∨ (s.size va : Int) ≠ j - i →
          exec (.vslset vd va sa sb) s = .next (failed .slice s)) ∧
        (0 ≤ i → i ≤ j → j ≤ s.size vd → (s.size va : Int) = j - i →
          ∃ v, IsVector v (s.size vd) (fun k =>
              if i ≤ k ∧ k < j then (s.vec va).getD (k - i.toNat) false
              else (s.vec vd).getD k false) ∧
            exec (.vslset vd va sa sb) s = .next (done (s.setVec vd v))))

/-- R121, with R51, R52, R54: `GETW` reads the bits of the word below the vector's size, zero above bit
`W-1`, whatever the padding bits are; a word past the end fails. -/
def Obligations.GetwReadsTheStorageWord : Prop :=
  ∀ (s : State) (sd : SReg) (va : VReg) (sa : SReg), s.params.Legal →
    decode (formatR 0x1A sd sa 0 0 va 0) = .ok (.getw sd va sa) ∧
      (s.int sa < 0 ∨ (s.size va : Int) ≤ s.int sa * s.params.wordWidth →
        exec (.getw sd va sa) s = .next (failed .index s)) ∧
      ∀ k : Nat, s.int sa = k → k * s.params.wordWidth < s.size va →
        ∃ (x : Scalar) (p : FreeStream),
          (∀ t, t < s.params.wordWidth → k * s.params.wordWidth + t < s.size va →
            x.getLsbD t = (s.vec va).getD (k * s.params.wordWidth + t) false) ∧
          (∀ t, s.params.wordWidth ≤ t → x.getLsbD t = false) ∧
          exec (.getw sd va sa) s = .next (done ((s.setScalar sd x).setPadding p))

/-- 93_implementation_defined.md U1 with R54 (log entry 5: where the free bits stand is the model's
choice): every value of the padding bits is possible. -/
def Obligations.GetwAllowsEveryPaddingValue : Prop :=
  ∀ (s : State) (sd : SReg) (va : VReg) (sa : SReg) (k : Nat) (x : Scalar), s.params.Legal →
    s.int sa = k → k * s.params.wordWidth < s.size va →
    (∀ t, t < s.params.wordWidth → k * s.params.wordWidth + t < s.size va →
      x.getLsbD t = (s.vec va).getD (k * s.params.wordWidth + t) false) →
    (∀ t, s.params.wordWidth ≤ t → x.getLsbD t = false) →
    ∃ (p : FreeStream) (t : State),
      exec (.getw sd va sa) { s with padding := p } = .next t ∧ t.scalar sd = x

/-- R122, with R53: `SETW` writes the bits of one storage word, bits on padding dropped. -/
def Obligations.SetwWritesTheStorageWord : Prop :=
  ∀ (s : State) (vd : VReg) (sa sb : SReg), s.params.Legal →
    decode (formatR 0x1B 0 sa sb vd 0 0) = .ok (.setw vd sa sb) ∧
      (s.int sa < 0 ∨ (s.size vd : Int) ≤ s.int sa * s.params.wordWidth →
        exec (.setw vd sa sb) s = .next (failed .index s)) ∧
      ∀ k : Nat, s.int sa = k → k * s.params.wordWidth < s.size vd →
        ∃ v, IsVector v (s.size vd) (fun p =>
            if k * s.params.wordWidth ≤ p ∧ p < (k + 1) * s.params.wordWidth then
              (s.scalar sb).getLsbD (p - k * s.params.wordWidth)
            else (s.vec vd).getD p false) ∧
          exec (.setw vd sa sb) s = .next (done (s.setVec vd v))

/-! ## Bitwise and relational -/

/-- R140, R141, R142, R152: the logical operators work bit by bit on equal sizes. -/
def Obligations.LogicalCommandsResult : Prop :=
  ∀ (s : State) (vd va vb : VReg) (i : Instr) (op : BitVec 8) (f : Bool → Bool → Bool),
    ((op = 0x20 ∧ i = .vand vd va vb ∧ f = and) ∨ (op = 0x21 ∧ i = .vor vd va vb ∧ f = or) ∨
      (op = 0x22 ∧ i = .vxor vd va vb ∧ f = xor)) →
    decode (formatR op 0 0 0 vd va vb) = .ok i ∧
      (s.size va ≠ s.size vb → exec i s = .next (failed .size s)) ∧
      (s.size va = s.size vb →
        ∃ v, IsVector v (s.size va)
            (fun k => f ((s.vec va).getD k false) ((s.vec vb).getD k false)) ∧
          exec i s = .next (done (s.setVec vd v)))

/-- R143, R186: complement and reversal. -/
def Obligations.ComplementAndReversalResult : Prop :=
  ∀ (s : State) (vd va : VReg),
    (decode (formatR 0x23 0 0 0 vd va 0) = .ok (.vnot vd va) ∧
        ∃ v, IsVector v (s.size va) (fun k => !(s.vec va).getD k false) ∧
          exec (.vnot vd va) s = .next (done (s.setVec vd v))) ∧
      (decode (formatR 0x46 0 0 0 vd va 0) = .ok (.vrev vd va) ∧
        ∃ v, IsVector v (s.size va) (fun k => (s.vec va).getD (s.size va - 1 - k) false) ∧
          exec (.vrev vd va) s = .next (done (s.setVec vd v)))

/-- R144: concatenation. -/
def Obligations.VcatAppendsTheSecondOperand : Prop :=
  ∀ (s : State) (vd va vb : VReg),
    decode (formatR 0x24 0 0 0 vd va vb) = .ok (.vcat vd va vb) ∧
      (s.params.cap < s.size va + s.size vb →
        exec (.vcat vd va vb) s = .next (failed .cap s)) ∧
      (s.size va + s.size vb ≤ s.params.cap →
        ∃ v, IsVector v (s.size va + s.size vb) (fun k =>
            if k < s.size va then (s.vec va).getD k false
            else (s.vec vb).getD (k - s.size va) false) ∧
          exec (.vcat vd va vb) s = .next (done (s.setVec vd v)))

/-- R145 to R150: the comparisons compare integer values, whatever the sizes. -/
def Obligations.ComparisonsCompareTheValues : Prop :=
  ∀ (s : State) (sd : SReg) (va vb : VReg) (a b : Nat),
    intOf (s.vec va) = a → intOf (s.vec vb) = b →
    (decode (formatR 0x28 sd 0 0 0 va vb) = .ok (.vceq sd va vb) ∧
        exec (.vceq sd va vb) s = .next (done (s.setInt sd (if a = b then 1 else 0)))) ∧
      (decode (formatR 0x29 sd 0 0 0 va vb) = .ok (.vcne sd va vb) ∧
        exec (.vcne sd va vb) s = .next (done (s.setInt sd (if a = b then 0 else 1)))) ∧
      (decode (formatR 0x2A sd 0 0 0 va vb) = .ok (.vclt sd va vb) ∧
        exec (.vclt sd va vb) s = .next (done (s.setInt sd (if a < b then 1 else 0)))) ∧
      (decode (formatR 0x2B sd 0 0 0 va vb) = .ok (.vcle sd va vb) ∧
        exec (.vcle sd va vb) s = .next (done (s.setInt sd (if b < a then 0 else 1)))) ∧
      (decode (formatR 0x2C sd 0 0 0 va vb) = .ok (.vcgt sd va vb) ∧
        exec (.vcgt sd va vb) s = .next (done (s.setInt sd (if b < a then 1 else 0)))) ∧
      (decode (formatR 0x2D sd 0 0 0 va vb) = .ok (.vcge sd va vb) ∧
        exec (.vcge sd va vb) s = .next (done (s.setInt sd (if a < b then 0 else 1))))

/-- R151: containment is the substring test on patterns. -/
def Obligations.VcontTestsForASubstring : Prop :=
  ∀ (s : State) (sd : SReg) (va vb : VReg) (found : Prop),
    (found ↔ ∃ p, p + s.size vb ≤ s.size va ∧
      ∀ t, t < s.size vb → (s.vec va).getD (p + t) false = (s.vec vb).getD t false) →
    decode (formatR 0x2E sd 0 0 0 va vb) = .ok (.vcont sd va vb) ∧
      (found → exec (.vcont sd va vb) s = .next (done (s.setInt sd 1))) ∧
      (¬found → exec (.vcont sd va vb) s = .next (done (s.setInt sd 0)))

/-! ## Shifts -/

/-- R160, R161: the circular shifts. -/
def Obligations.CircularShiftsResult : Prop :=
  ∀ (s : State) (vd : VReg) (sa : SReg),
    (decode (formatR 0x30 0 sa 0 vd 0 0) = .ok (.vrol vd sa) ∧
        (s.int sa < 0 → exec (.vrol vd sa) s = .next (failed .value s)) ∧
        ∀ n : Nat, s.int sa = n →
          ∃ v, IsVector v (s.size vd) (fun k => (s.vec vd).getD ((k + n) % s.size vd) false) ∧
            exec (.vrol vd sa) s = .next (done (s.setVec vd v))) ∧
      (decode (formatR 0x31 0 sa 0 vd 0 0) = .ok (.vror vd sa) ∧
        (s.int sa < 0 → exec (.vror vd sa) s = .next (failed .value s)) ∧
        ∀ n : Nat, s.int sa = n →
          ∃ v, IsVector v (s.size vd) (fun k =>
              (s.vec vd).getD (((k : Int) - n) % s.size vd).toNat false) ∧
            exec (.vror vd sa) s = .next (done (s.setVec vd v)))

/-- R162, R163: the non-circular shifts. -/
def Obligations.LinearShiftsResult : Prop :=
  ∀ (s : State) (vd : VReg) (sa : SReg),
    (decode (formatR 0x32 0 sa 0 vd 0 0) = .ok (.vshl vd sa) ∧
        (s.int sa < 0 → exec (.vshl vd sa) s = .next (failed .value s)) ∧
        ∀ n : Nat, s.int sa = n →
          ∃ v, IsVector v (s.size vd) (fun k => (s.vec vd).getD (k + n) false) ∧
            exec (.vshl vd sa) s = .next (done (s.setVec vd v))) ∧
      (decode (formatR 0x33 0 sa 0 vd 0 0) = .ok (.vshr vd sa) ∧
        (s.int sa < 0 → exec (.vshr vd sa) s = .next (failed .value s)) ∧
        ∀ n : Nat, s.int sa = n →
          ∃ v, IsVector v (s.size vd) (fun k =>
              if n ≤ k then (s.vec vd).getD (k - n) false else false) ∧
            exec (.vshr vd sa) s = .next (done (s.setVec vd v)))

/-- Laws of the shifts, inferences of 43_shift.md (section 1 (a) and (e), sections 2 and 3): rotating left
and then right by one count restores the vector; a shift by `n + 1` is a shift by `n` and then one by
1; a linear shift multiplies or divides the value. -/
def Obligations.ShiftLaws : Prop :=
  (∀ (s : State) (vd : VReg) (sa : SReg), 0 ≤ s.int sa →
      ∃ t u, exec (.vrol vd sa) s = .next t ∧ exec (.vror vd sa) t = .next u ∧
        u.vec vd = s.vec vd) ∧
    (∀ (s : State) (vd : VReg) (sa : SReg) (n : Nat) (i : Instr), n + 1 < 2 ^ 31 →
      (i = .vrol vd sa ∨ i = .vror vd sa ∨ i = .vshl vd sa ∨ i = .vshr vd sa) →
      ∃ t u w, exec i (s.setInt sa n) = .next t ∧ exec i (t.setInt sa 1) = .next u ∧
        exec i (s.setInt sa (n + 1)) = .next w ∧ u.vec vd = w.vec vd) ∧
    ∀ (s : State) (vd : VReg) (sa : SReg) (n : Nat), s.int sa = n →
      ∃ t u, exec (.vshl vd sa) s = .next t ∧ exec (.vshr vd sa) s = .next u ∧
        intOf (t.vec vd) = intOf (s.vec vd) * 2 ^ n % 2 ^ s.size vd ∧
        intOf (u.vec vd) = intOf (s.vec vd) / 2 ^ n

/-! ## Permutation -/

/-- R170: `VPERM`. -/
def Obligations.VpermCollectsTheIndexedBits : Prop :=
  ∀ (s : State) (vd va : VReg),
    decode (formatR 0x38 0 0 0 vd va 0) = .ok (.vperm vd va) ∧
      ((∃ i ∈ s.indices, i.toInt < 0 ∨ s.size va ≤ i.toInt) →
        exec (.vperm vd va) s = .next (failed .perm s)) ∧
      ((∀ i ∈ s.indices, 0 ≤ i.toInt ∧ i.toInt < s.size va) →
        ∃ v, IsVector v s.indices.length
            (fun k => (s.vec va).getD (s.indices.getD k 0).toInt.toNat false) ∧
          exec (.vperm vd va) s = .next (done (s.setVec vd v)))

/-- R171: `VUNPERM`: a bit no entry names is 0, and of entries naming one bit the last one wins. -/
def Obligations.VunpermPlacesTheBits : Prop :=
  ∀ (s : State) (vd va : VReg),
    decode (formatR 0x39 0 0 0 vd va 0) = .ok (.vunperm vd va) ∧
      (s.indices.length ≠ s.size va → exec (.vunperm vd va) s = .next (failed .size s)) ∧
      (s.indices.length = s.size va →
        (∃ i ∈ s.indices, i.toInt < 0 ∨ s.size va ≤ i.toInt) →
        exec (.vunperm vd va) s = .next (failed .perm s)) ∧
      (s.indices.length = s.size va →
        (∀ i ∈ s.indices, 0 ≤ i.toInt ∧ i.toInt < s.size va) →
        ∃ v, v.length = s.size va ∧
          (∀ p : Nat, p < s.size va → (∀ i ∈ s.indices, i.toInt ≠ p) → v[p]? = some false) ∧
          (∀ (k : Nat) (i : Scalar), s.indices[k]? = some i →
            (∀ (j : Nat) (i' : Scalar), k < j → s.indices[j]? = some i' → i' ≠ i) →
            v[i.toInt.toNat]? = (s.vec va)[k]?) ∧
          exec (.vunperm vd va) s = .next (done (s.setVec vd v)))

/-- R171: `VPERM` and then `VUNPERM` with one list without repeats, of the vector's size, restore the
vector. -/
def Obligations.UnpermuteUndoesPermute : Prop :=
  ∀ (s : State) (va vd ve : VReg), s.indices.length = s.size va → s.indices.Nodup →
    (∀ i ∈ s.indices, 0 ≤ i.toInt ∧ i.toInt < s.size va) →
    ∃ t u, exec (.vperm vd va) s = .next t ∧ exec (.vunperm ve vd) t = .next u ∧
      u.vec ve = s.vec va

/-- R172, R173: the two halves. -/
def Obligations.HalvingCommandsResult : Prop :=
  ∀ (s : State) (vd va : VReg),
    decode (formatR 0x3A 0 0 0 vd va 0) = .ok (.vhalf0 vd va) ∧
      decode (formatR 0x3B 0 0 0 vd va 0) = .ok (.vhalf1 vd va) ∧
      (s.size va % 2 = 1 → exec (.vhalf0 vd va) s = .next (failed .odd s) ∧
        exec (.vhalf1 vd va) s = .next (failed .odd s)) ∧
      (s.size va % 2 = 0 →
        ∃ v w, IsVector v (s.size va / 2) (fun k => (s.vec va).getD k false) ∧
          IsVector w (s.size va / 2) (fun k => (s.vec va).getD (s.size va / 2 + k) false) ∧
          exec (.vhalf0 vd va) s = .next (done (s.setVec vd v)) ∧
          exec (.vhalf1 vd va) s = .next (done (s.setVec vd w)))

/-- Laws of concatenation, inferences of 42_bitwise_relational.md, 44_permutation.md and
47_byte_packing.md: the value of a concatenation; the halves of a vector, concatenated, give it back; a
byte appended to a whole number of bytes is the byte read there. -/
def Obligations.ConcatenationLaws : Prop :=
  (∀ (s : State) (vd va vb : VReg), s.size va + s.size vb ≤ s.params.cap →
      ∃ t, exec (.vcat vd va vb) s = .next t ∧
        intOf (t.vec vd) = intOf (s.vec va) * 2 ^ s.size vb + intOf (s.vec vb)) ∧
    (∀ (s : State) (va vd ve vf : VReg), vd ≠ va → ve ≠ vd → s.size va % 2 = 0 →
      s.size va ≤ s.params.cap →
      ∃ t u w, exec (.vhalf0 vd va) s = .next t ∧ exec (.vhalf1 ve va) t = .next u ∧
        exec (.vcat vf vd ve) u = .next w ∧ w.vec vf = s.vec va) ∧
    ∀ (s : State) (vd : VReg) (sa sk sd : SReg), 0 ≤ s.int sa → s.int sa ≤ 255 →
      s.size vd % 8 = 0 → s.size vd + 8 ≤ s.params.cap → s.int sk = (s.size vd / 8 : Nat) →
      ∃ t u, exec (.appbyte vd sa) s = .next t ∧ exec (.getbyte sd vd sk) t = .next u ∧
        u.int sd = s.int sa

/-! ## Bit analysis -/

/-- R180, R181, R184, R185: the counts and the power-of-two tests. -/
def Obligations.PopulationCountResult : Prop :=
  ∀ (s : State) (sd : SReg) (va : VReg) (n : Nat),
    countBelow (s.size va) (fun k => (s.vec va).getD k false) = n →
    (decode (formatR 0x40 sd 0 0 0 va 0) = .ok (.popc sd va) ∧
        exec (.popc sd va) s = .next (done (s.setInt sd n))) ∧
      (decode (formatR 0x41 sd 0 0 0 va 0) = .ok (.popcs sd va) ∧
        exec (.popcs sd va) s = .next (done (s.setInt sd n))) ∧
      (decode (formatR 0x44 sd 0 0 0 va 0) = .ok (.isp2 sd va) ∧
        exec (.isp2 sd va) s = .next (done (s.setInt sd (if n = 1 then 1 else 0)))) ∧
      (decode (formatR 0x45 sd 0 0 0 va 0) = .ok (.isp2s sd va) ∧
        exec (.isp2s sd va) s = .next (done (s.setInt sd (if n = 1 then 1 else 0))))

/-- R182, R183: `NSB` finds the least set position at or after the start, or answers -1; `RANK` counts
the set bits up to a set bit. -/
def Obligations.SearchAndRankResult : Prop :=
  ∀ (s : State) (sd : SReg) (va : VReg) (sa : SReg),
    (decode (formatR 0x42 sd sa 0 0 va 0) = .ok (.nsb sd va sa) ∧
        (∀ p : Nat, (s.vec va)[p]? = some true → s.int sa ≤ p →
          (∀ q : Nat, q < p → s.int sa ≤ q → (s.vec va)[q]? = some false) →
          exec (.nsb sd va sa) s = .next (done (s.setInt sd p))) ∧
        ((∀ p : Nat, s.int sa ≤ p → (s.vec va)[p]? ≠ some true) →
          exec (.nsb sd va sa) s = .next (done (s.setInt sd (-1))))) ∧
      (decode (formatR 0x43 sd sa 0 0 va 0) = .ok (.rank sd va sa) ∧
        (s.int sa < 0 ∨ s.size va ≤ s.int sa →
          exec (.rank sd va sa) s = .next (failed .index s)) ∧
        ∀ (i : Nat) (b : Bool), s.int sa = i → (s.vec va)[i]? = some b →
          exec (.rank sd va sa) s = .next (done (s.setInt sd
            (if b then countBelow (i + 1) (fun p => (s.vec va).getD p false) else 0))))

/-- R187, R189: `VRUNS` writes the lengths of the one run decomposition, and the value of its first run. -/
def Obligations.VrunsWritesTheRunLengths : Prop :=
  ∀ (s : State) (sd : SReg) (va : VReg),
    decode (formatR 0x47 sd 0 0 0 va 0) = .ok (.vruns sd va) ∧
      ∃ rs : List (Bool × Nat), IsRuns (s.vec va) rs ∧ (∀ rs', IsRuns (s.vec va) rs' → rs' = rs) ∧
        rs.length ≤ s.size va ∧
        exec (.vruns sd va) s = .next (done
          ((s.setIndices (rs.map fun r => BitVec.ofNat 32 r.2)).setInt sd
            (if rs.head?.map Prod.fst = some true then 1 else 0)))

/-- R188, R190, R191, R192: the metrics. -/
def Obligations.MetricsResult : Prop :=
  ∀ (s : State) (sd se : SReg) (va vb : VReg) (d i u : Nat),
    countBelow (s.size va) (fun k => (s.vec va).getD k false != (s.vec vb).getD k false) = d →
    countBelow (s.size va) (fun k => (s.vec va).getD k false && (s.vec vb).getD k false) = i →
    countBelow (s.size va) (fun k => (s.vec va).getD k false || (s.vec vb).getD k false) = u →
    (decode (formatR 0x48 sd 0 0 0 va vb) = .ok (.hamm sd va vb) ∧
        (s.size va ≠ s.size vb → exec (.hamm sd va vb) s = .next (failed .size s)) ∧
        (s.size va = s.size vb → exec (.hamm sd va vb) s = .next (done (s.setInt sd d)))) ∧
      (decode (formatR 0x49 sd se 0 0 va vb) = .ok (.jsim sd se va vb) ∧
        decode (formatR 0x4A sd se 0 0 va vb) = .ok (.jdist sd se va vb)) ∧
      (sd = se → exec (.jsim sd se va vb) s = .next (failed .illegal s) ∧
        exec (.jdist sd se va vb) s = .next (failed .illegal s)) ∧
      (sd ≠ se → s.size va ≠ s.size vb →
        exec (.jsim sd se va vb) s = .next (failed .size s) ∧
          exec (.jdist sd se va vb) s = .next (failed .size s)) ∧
      (sd ≠ se → s.size va = s.size vb → u = 0 →
        exec (.jsim sd se va vb) s = .next (failed .undef s) ∧
          exec (.jdist sd se va vb) s = .next (failed .undef s)) ∧
      (sd ≠ se → s.size va = s.size vb → u ≠ 0 →
        exec (.jsim sd se va vb) s = .next (done ((s.setInt sd i).setInt se u)) ∧
          exec (.jdist sd se va vb) s = .next (done ((s.setInt sd ((u : Int) - i)).setInt se u)))

/-! ## Galois field and number theory -/

/-- R200 with R8: `GFMUL` multiplies the polynomials; the size of the result is fixed by the sizes. -/
def Obligations.GfmulMultipliesThePolynomials : Prop :=
  ∀ (s : State) (vd va vb : VReg),
    decode (formatR 0x50 0 0 0 vd va vb) = .ok (.gfmul vd va vb) ∧
      (s.params.cap < s.size va + s.size vb - 1 →
        exec (.gfmul vd va vb) s = .next (failed .cap s)) ∧
      (s.size va + s.size vb - 1 ≤ s.params.cap →
        ∃ v, v.length = s.size va + s.size vb - 1 ∧
          polyOf v = polyOf (s.vec va) * polyOf (s.vec vb) ∧
          exec (.gfmul vd va vb) s = .next (done (s.setVec vd v)))

/-- R209: the checks on a modulus, in their order, for the four instructions that make them. -/
def Obligations.ModulusChecksInOrder : Prop :=
  ∀ (s : State) (vd va vb vm : VReg) (sa : SReg) (i : Instr),
    (i = .gfquo vd va vm sa ∨ i = .gfrem vd va vm sa ∨ i = .gfmulm vd va vb vm sa ∨
      i = .gfmi vd va vm sa) →
    ChecksModulus i (s.vec vm) (s.int sa) s ∧
      (1 ≤ s.int sa → (s.size vm : Int) = s.int sa + 1 → (∃ b ∈ s.vec vm, b = true) →
        ∃ t, exec i s = .next t ∧ t.resp = some 0)

/-- R201, R202 with R8: quotient and remainder of the polynomials, in the sizes of the rules. -/
def Obligations.GfquoAndGfremDivideThePolynomials : Prop :=
  ∀ (s : State) (vd va vb : VReg) (sa : SReg),
    decode (formatR 0x51 0 sa 0 vd va vb) = .ok (.gfquo vd va vb sa) ∧
      decode (formatR 0x52 0 sa 0 vd va vb) = .ok (.gfrem vd va vb sa) ∧
      ChecksModulus (.gfquo vd va vb sa) (s.vec vb) (s.int sa) s ∧
      ChecksModulus (.gfrem vd va vb sa) (s.vec vb) (s.int sa) s ∧
      (1 ≤ s.int sa → (s.size vb : Int) = s.int sa + 1 → (∃ b ∈ s.vec vb, b = true) →
        (∃ q, q.length = s.size va ∧ polyOf q = polyOf (s.vec va) / polyOf (s.vec vb) ∧
          exec (.gfquo vd va vb sa) s = .next (done (s.setVec vd q))) ∧
        (∃ r, r.length = (s.int sa).toNat ∧ polyOf r = polyOf (s.vec va) % polyOf (s.vec vb) ∧
          exec (.gfrem vd va vb sa) s = .next (done (s.setVec vd r))))

/-- R203 with R8: `GFMULM` multiplies modulo the modulus; no capacity check. -/
def Obligations.GfmulmMultipliesModuloTheModulus : Prop :=
  ∀ (s : State) (vd va vb vc : VReg) (sa : SReg),
    decode (formatR 0x53 0 sa vc vd va vb) = .ok (.gfmulm vd va vb vc sa) ∧
      ChecksModulus (.gfmulm vd va vb vc sa) (s.vec vc) (s.int sa) s ∧
      (1 ≤ s.int sa → (s.size vc : Int) = s.int sa + 1 → (∃ b ∈ s.vec vc, b = true) →
        ∃ r, r.length = (s.int sa).toNat ∧
          polyOf r = polyOf (s.vec va) * polyOf (s.vec vb) % polyOf (s.vec vc) ∧
          exec (.gfmulm vd va vb vc sa) s = .next (done (s.setVec vd r)))

/-- R204, R251 with R8: `GFMI` finds the inverse exactly when the reduced operand is not 0 and is
coprime to the modulus; otherwise the empty vector and `NR = 1`, and no error. The modulus 1 never has an
inverse, as the rule's sentence and its corner case say (its pseudocode alone would not: log entry 11). -/
def Obligations.GfmiFindsTheInverse : Prop :=
  ∀ (s : State) (vd va vb : VReg) (sa : SReg),
    decode (formatR 0x54 0 sa 0 vd va vb) = .ok (.gfmi vd va vb sa) ∧
      ChecksModulus (.gfmi vd va vb sa) (s.vec vb) (s.int sa) s ∧
      (1 ≤ s.int sa → (s.size vb : Int) = s.int sa + 1 → (∃ b ∈ s.vec vb, b = true) →
        (polyOf (s.vec va) % polyOf (s.vec vb) ≠ 0 ∧
            IsCoprime (polyOf (s.vec va)) (polyOf (s.vec vb)) →
          ∃ v, v.length = (s.int sa).toNat ∧ (polyOf v).degree < (polyOf (s.vec vb)).degree ∧
            polyOf (s.vec va) * polyOf v % polyOf (s.vec vb) = 1 ∧
            exec (.gfmi vd va vb sa) s = .next (done { s.setVec vd v with nr := false })) ∧
        (¬(polyOf (s.vec va) % polyOf (s.vec vb) ≠ 0 ∧
            IsCoprime (polyOf (s.vec va)) (polyOf (s.vec vb))) →
          exec (.gfmi vd va vb sa) s = .next (done { s.setVec vd [] with nr := true })))

/-- R205, R251: `MODINV` finds the inverse modulo an integer exactly when the two are coprime. -/
def Obligations.ModinvFindsTheInverse : Prop :=
  ∀ (s : State) (vd va vb : VReg) (a m : Nat), intOf (s.vec va) = a → intOf (s.vec vb) = m →
    decode (formatR 0x55 0 0 0 vd va vb) = .ok (.modinv vd va vb) ∧
      (m = 0 → exec (.modinv vd va vb) s = .next (failed .divZero s)) ∧
      (m ≠ 0 → Nat.gcd a m = 1 →
        ∃ x v, x < m ∧ a * x % m = 1 % m ∧ IsMinRep v x ∧ v.length ≤ s.size vb ∧
          exec (.modinv vd va vb) s = .next (done { s.setVec vd v with nr := false })) ∧
      (m ≠ 0 → Nat.gcd a m ≠ 1 →
        exec (.modinv vd va vb) s = .next (done { s.setVec vd [] with nr := true }))

/-- R206: `VGCD`. -/
def Obligations.VgcdComputesTheIntegerGcd : Prop :=
  ∀ (s : State) (vd va vb : VReg),
    decode (formatR 0x56 0 0 0 vd va vb) = .ok (.vgcd vd va vb) ∧
      ∃ v g, g ∣ intOf (s.vec va) ∧ g ∣ intOf (s.vec vb) ∧
        (∀ d, d ∣ intOf (s.vec va) → d ∣ intOf (s.vec vb) → d ∣ g) ∧ IsMinRep v g ∧
        v.length ≤ max (max (s.size va) (s.size vb)) 1 ∧
        exec (.vgcd vd va vb) s = .next (done (s.setVec vd v))

/-- R207: the cases of `PRIME` that draw nothing, and that the other case answers 0 or 1. -/
def Obligations.PrimeCasesWithoutDraws : Prop :=
  ∀ (s : State) (sd : SReg) (va : VReg) (sa : SReg) (n : Nat), intOf (s.vec va) = n →
    decode (formatR 0x57 sd sa 0 0 va 0) = .ok (.prime sd va sa) ∧
      (s.int sa < 1 → exec (.prime sd va sa) s = .next (failed .value s)) ∧
      (1 ≤ s.int sa → n < 2 ∨ n % 2 = 0 ∧ n ≠ 2 →
        exec (.prime sd va sa) s = .next (done (s.setInt sd 0))) ∧
      (1 ≤ s.int sa → n = 2 ∨ n = 3 →
        exec (.prime sd va sa) s = .next (done (s.setInt sd 1))) ∧
      (1 ≤ s.int sa → 5 ≤ n → n % 2 = 1 →
        ∃ (b : Bool) (e : FreeStream), exec (.prime sd va sa) s =
          .next (done ({ s with entropy := e }.setInt sd b.toNat)))

/-- R210, R207 (log entry 4: the draws stand in a stream, the model's choice): with the draws given,
`PRIME` of an odd number from 5 answers 1 exactly when every base drawn passes its round. -/
def Obligations.PrimeIsTheMillerRabinTest : Prop :=
  ∀ (s : State) (sd : SReg) (va : VReg) (sa : SReg) (bases rest : List Nat),
    5 ≤ intOf (s.vec va) → intOf (s.vec va) % 2 = 1 → 1 ≤ s.int sa → s.int sa = bases.length →
    (∀ a ∈ bases, 2 ≤ a ∧ a ≤ intOf (s.vec va) - 2) → s.entropy.supplied = bases ++ rest →
    ∃ t, exec (.prime sd va sa) s = .next t ∧ t.resp = some 0 ∧
      ((∀ a ∈ bases, PassesRound (intOf (s.vec va)) a) → t.int sd = 1) ∧
      ((∃ a ∈ bases, ¬PassesRound (intOf (s.vec va)) a) → t.int sd = 0)

/-- R210 (i) and (ii): `PRIME` answers 1 for a prime whatever the draws, and so 0 only for a number that
is not prime. -/
def Obligations.PrimeNeverRejectsAPrime : Prop :=
  ∀ (s : State) (sd : SReg) (va : VReg) (sa : SReg), 1 ≤ s.int sa →
    ∃ t, exec (.prime sd va sa) s = .next t ∧ (t.int sd = 0 ∨ t.int sd = 1) ∧
      (Nat.Prime (intOf (s.vec va)) → t.int sd = 1) ∧
      (t.int sd = 0 → ¬Nat.Prime (intOf (s.vec va)))

/-- R208: the shape of a `RANDP` candidate whatever the draws, and the candidate itself when the draws
are given (log entry 4: where they stand is the model's choice). -/
def Obligations.RandpMakesAnOddCandidate : Prop :=
  ∀ (s : State) (vd : VReg) (sa : SReg),
    decode (formatR 0x58 0 sa 0 vd 0 0) = .ok (.randp vd sa) ∧
      (s.int sa < 1 → exec (.randp vd sa) s = .next (failed .value s)) ∧
      (1 ≤ s.int sa → s.params.cap < s.int sa →
        exec (.randp vd sa) s = .next (failed .cap s)) ∧
      (1 ≤ s.int sa → s.int sa ≤ s.params.cap →
        ∃ (v : BitArray) (e : FreeStream), v.length = (s.int sa).toNat ∧ v.head? = some true ∧
          v.getLast? = some true ∧
          exec (.randp vd sa) s = .next (done { s.setVec vd v with entropy := e }) ∧
          ∀ (inner : BitArray) (rest : List Nat), (inner.length : Int) = s.int sa - 2 →
            s.entropy.supplied = inner.map Bool.toNat ++ rest →
            v = true :: (inner ++ [true]) ∧ e.supplied = rest)

/-! ## Byte packing -/

/-- R230, R231, R232: `GETBYTE` reads a complete byte, most significant bit first; `APPBYTE` appends the
eight bits of a byte. -/
def Obligations.ByteCommandsResult : Prop :=
  (∀ (s : State) (sd : SReg) (va : VReg) (sa : SReg),
      decode (formatR 0x60 sd sa 0 0 va 0) = .ok (.getbyte sd va sa) ∧
        (s.int sa < 0 ∨ (s.size va / 8 : Nat) ≤ s.int sa →
          exec (.getbyte sd va sa) s = .next (failed .index s)) ∧
        ∀ k : Nat, s.int sa = k → k < s.size va / 8 →
          exec (.getbyte sd va sa) s = .next (done (s.setInt sd
            (∑ j ∈ Finset.range 8,
              ((s.vec va).getD (8 * k + j) false).toNat * 2 ^ (7 - j) : Nat)))) ∧
    ∀ (s : State) (vd : VReg) (sa : SReg),
      decode (formatR 0x61 0 sa 0 vd 0 0) = .ok (.appbyte vd sa) ∧
        (s.int sa < 0 ∨ 255 < s.int sa → exec (.appbyte vd sa) s = .next (failed .value s)) ∧
        (0 ≤ s.int sa → s.int sa ≤ 255 → s.params.cap < s.size vd + 8 →
          exec (.appbyte vd sa) s = .next (failed .cap s)) ∧
        (0 ≤ s.int sa → s.int sa ≤ 255 → s.size vd + 8 ≤ s.params.cap →
          ∃ v, IsVector v (s.size vd + 8) (fun k =>
              if k < s.size vd then (s.vec vd).getD k false
              else (s.int sa).toNat.testBit (7 - (k - s.size vd))) ∧
            exec (.appbyte vd sa) s = .next (done (s.setVec vd v)))

/-! ## Pseudo-instructions -/

/-- R81: the expansion of `SLI32` loads any 32-bit pattern, and that of `VCLR` empties a vector. -/
def Obligations.PseudoInstructionsLoadAndClear : Prop :=
  (∀ (s : State) (sd : SReg) (imm32 : BitVec 32),
      execAll (sli32 sd imm32) s = some (done (s.setScalar sd imm32))) ∧
    (∀ (s : State) (vd : VReg) (sx : SReg),
      execAll (vclr vd sx) s = some (done ((s.setScalar sx 0).setVec vd [])))

/-- R81 and the law of 41_storage_core.md section 8: for two different scratch scalars and any sequence
of at most 32767 bits that the capacity allows, the expansion of `VBITS` leaves the sequence in the vector
and changes nothing else but the two scratch scalars; every command of it succeeds (each prefix ends in
the response 0); and after it `VSIZE` reads the sequence's length and `GETB` each of its bits. -/
def Obligations.VbitsBuildsAnySequence : Prop :=
  ∀ (s : State) (vd : VReg) (sx sy : SReg) (bits : BitArray), sx ≠ sy → bits.length ≤ 32767 →
    bits.length ≤ s.params.cap →
    (∃ x, execAll (vbits vd sx sy bits) s =
        some (done (((s.setScalar sx x).setScalar sy 1).setVec vd bits))) ∧
      (∀ p, p ≠ [] → p <+: vbits vd sx sy bits → ∃ t, execAll p s = some t ∧ t.resp = some 0) ∧
      ∀ sd : SReg,
        (∃ t, execAll (vbits vd sx sy bits ++ [.vsize sd vd]) s = some t ∧ t.resp = some 0 ∧
          t.int sd = bits.length) ∧
        ∀ (k : Nat) (b : Bool), bits[k]? = some b →
          ∃ t, execAll (vbits vd sx sy bits ++
              [.sli sx (BitVec.ofNat 16 k), .getb sd vd sx]) s = some t ∧
            t.resp = some 0 ∧ t.int sd = b.toNat
end

