-- ==== Sys2Proof/Laws/Bits.lean ====
section
/-! SUPPORT. What the functions on bit vector values compute: sizes, single bits, integer values. -/

namespace Sys2Proof.Machine

/-! ### The integer value (00_scope.md R6) -/

theorem foldl_intOf (v : BitArray) (n : Nat) :
    v.foldl (fun n b => 2 * n + b.toNat) n = n * 2 ^ v.length + intOf v := by
  induction v generalizing n with
  | nil => simp [intOf]
  | cons b v ih =>
    have h0 : intOf (b :: v) = b.toNat * 2 ^ v.length + intOf v := by
      simpa [intOf] using ih b.toNat
    rw [List.foldl_cons, ih, h0, List.length_cons, Nat.pow_succ]
    ring

@[simp] theorem intOf_nil : intOf [] = 0 := rfl

theorem intOf_cons (b : Bool) (v : BitArray) :
    intOf (b :: v) = b.toNat * 2 ^ v.length + intOf v := by
  simpa [intOf] using foldl_intOf v b.toNat

theorem intOf_append (u v : BitArray) : intOf (u ++ v) = intOf u * 2 ^ v.length + intOf v := by
  rw [intOf, List.foldl_append, foldl_intOf]; rfl

theorem intOf_lt (v : BitArray) : intOf v < 2 ^ v.length := by
  induction v with
  | nil => simp
  | cons b v ih =>
    rw [intOf_cons, List.length_cons, Nat.pow_succ]
    cases b <;> simp <;> omega

/-- Bit `k` of the value is the bit `k` places from the right end. -/
theorem testBit_intOf (v : BitArray) (k : Nat) :
    (intOf v).testBit k = (decide (k < v.length) && v.getD (v.length - 1 - k) false) := by
  induction v generalizing k with
  | nil => simp
  | cons b v ih =>
    have hlt := intOf_lt v
    rw [intOf_cons, Nat.mul_comm, Nat.testBit_two_pow_mul_add _ hlt, List.length_cons]
    by_cases hk : k < v.length
    · rw [if_pos hk, ih]
      have : v.length + 1 - 1 - k = (v.length - 1 - k) + 1 := by omega
      rw [this]
      simp [hk, Nat.lt_succ_of_lt hk]
    · rw [if_neg hk]
      rcases Nat.eq_or_lt_of_le (Nat.le_of_not_lt hk) with h | h
      · subst h; cases b <;> simp
      · have h1 : ¬k < v.length + 1 := by omega
        have h2 : k - v.length ≠ 0 := by omega
        simp only [h1, decide_false, Bool.false_and]
        cases b
        · simp
        · have := Nat.testBit_lt_two_pow (x := 1) (i := k - v.length)
            (Nat.one_lt_two_pow h2)
          simpa using this

theorem intOf_replicate_false (n : Nat) : intOf (List.replicate n false) = 0 := by
  induction n with
  | zero => rfl
  | succ n ih => rw [List.replicate_succ, intOf_cons, ih]; simp

@[simp] theorem length_zeros (n : Nat) : (zeros n).length = n := by simp [zeros]

@[simp] theorem intOf_zeros (n : Nat) : intOf (zeros n) = 0 := intOf_replicate_false n

theorem intOf_zeros_append (n : Nat) (v : BitArray) : intOf (zeros n ++ v) = intOf v := by
  simp [intOf_append]

/-- Two vectors of one size with one value are equal. -/
theorem eq_of_intOf_eq {u v : BitArray} (hl : u.length = v.length) (h : intOf u = intOf v) :
    u = v := by
  apply List.ext_getElem hl
  intro k hu hv
  have e := congrArg (fun n => n.testBit (u.length - 1 - k)) h
  simp only [testBit_intOf] at e
  have h1 : u.length - 1 - k < u.length := by omega
  have h2 : u.length - 1 - k < v.length := by omega
  have h3 : u.length - 1 - (u.length - 1 - k) = k := by omega
  have h4 : v.length - 1 - (u.length - 1 - k) = k := by omega
  simpa [h1, h2, h3, h4, List.getElem?_eq_getElem hu, List.getElem?_eq_getElem hv] using e

/-- A vector has value 0 exactly when it has no set bit. -/
theorem intOf_eq_zero_iff (v : BitArray) : intOf v = 0 ↔ ∀ b ∈ v, b = false := by
  induction v with
  | nil => simp
  | cons b v ih =>
    rw [intOf_cons]
    cases b <;> simp [ih]

/-! ### Vectors made from integers (00_scope.md R7) -/

@[simp] theorem length_fromInt (n s : Nat) : (fromInt n s).length = s := by simp [fromInt]

theorem getElem?_fromInt (n s k : Nat) (h : k < s) :
    (fromInt n s)[k]? = some (n.testBit (s - 1 - k)) := by
  simp [fromInt, h]

theorem intOf_fromInt (n s : Nat) : intOf (fromInt n s) = n % 2 ^ s := by
  apply Nat.eq_of_testBit_eq
  intro k
  rw [testBit_intOf, Nat.testBit_mod_two_pow, length_fromInt]
  by_cases hk : k < s
  · have h1 : s - 1 - k < s := by omega
    have h2 : s - 1 - (s - 1 - k) = k := by omega
    simp [hk, List.getD_eq_getElem?_getD, getElem?_fromInt _ _ _ h1, h2]
  · simp [hk]

theorem intOf_fromInt_of_lt {n s : Nat} (h : n < 2 ^ s) : intOf (fromInt n s) = n := by
  rw [intOf_fromInt, Nat.mod_eq_of_lt h]

theorem fromInt_intOf (v : BitArray) : fromInt (intOf v) v.length = v :=
  eq_of_intOf_eq (by simp) (intOf_fromInt_of_lt (intOf_lt v))

theorem minLen_pos (n : Nat) : 1 ≤ minLen n := by unfold minLen; split <;> omega

theorem lt_two_pow_minLen (n : Nat) : n < 2 ^ minLen n := by
  unfold minLen
  split
  · simp_all
  · exact Nat.lt_log2_self

/-- `len(N) ≤ s` says that `N` fits in `s ≥ 1` bits. -/
theorem minLen_le_iff (n s : Nat) : minLen n ≤ s ↔ 1 ≤ s ∧ n < 2 ^ s := by
  constructor
  · intro h
    exact ⟨le_trans (minLen_pos n) h,
      lt_of_lt_of_le (lt_two_pow_minLen n) (Nat.pow_le_pow_right (by omega) h)⟩
  · rintro ⟨h1, h2⟩
    unfold minLen
    split
    · exact h1
    · rename_i h0
      have := (Nat.log2_lt h0).2 h2
      omega

@[simp] theorem length_minRep (n : Nat) : (minRep n).length = minLen n := by simp [minRep]

@[simp] theorem intOf_minRep (n : Nat) : intOf (minRep n) = n :=
  intOf_fromInt_of_lt (lt_two_pow_minLen n)

theorem minRep_zero : minRep 0 = [false] := rfl

theorem head?_minRep {n : Nat} (h : n ≠ 0) : (minRep n).head? = some true := by
  have h1 : minLen n = Nat.log2 n + 1 := by simp [minLen, h]
  rw [List.head?_eq_getElem?, minRep, getElem?_fromInt _ _ _ (minLen_pos n), h1]
  simp only [Nat.add_sub_cancel, Nat.sub_zero, Option.some.injEq]
  have := Nat.log2_self_le h
  have h2 := @Nat.lt_log2_self n
  rw [Nat.testBit_eq_decide_div_mod_eq]
  have : n / 2 ^ n.log2 = 1 := by
    apply Nat.div_eq_of_lt_le
    · simpa using this
    · rw [Nat.pow_succ] at h2; omega
  simp [this]

/-! ### Slices, words, bytes -/

theorem length_slice {v : BitArray} {i j : Nat} (h : j ≤ v.length) :
    (slice v i j).length = j - i := by
  simp [slice]; omega

theorem getElem?_slice {v : BitArray} {i j k : Nat} (h : k < j - i) :
    (slice v i j)[k]? = v[i + k]? := by
  rw [slice, List.getElem?_drop, List.getElem?_take, if_pos (by omega)]

theorem slice_append_slice (v : BitArray) (i : Nat) :
    slice v 0 i ++ slice v i v.length = v := by
  simp [slice]

theorem testBit_ofBitsLE (l : List Bool) (k : Nat) : (ofBitsLE l).testBit k = l.getD k false := by
  induction l generalizing k with
  | nil => simp [ofBitsLE]
  | cons b l ih =>
    have h : ofBitsLE (b :: l) = 2 * ofBitsLE l + b.toNat := by simp [ofBitsLE, Nat.add_comm]
    rw [h]
    cases k with
    | zero => cases b <;> simp [Nat.testBit_zero, Nat.add_mod]
    | succ k =>
      rw [Nat.testBit_succ]
      have : (2 * ofBitsLE l + b.toNat) / 2 = ofBitsLE l := by
        cases b
        · simp
        · simp only [Bool.toNat_true]; omega
      rw [this, ih]; simp

/-- A bit of a storage word: the vector's bit, or a padding bit (20_memory.md R52). -/
theorem testBit_wordRead (width : Nat) (v : BitArray) (k fill t : Nat) :
    (wordRead width v k fill).testBit t =
      (decide (t < width) && v.getD (k * width + t) (fill.testBit t)) := by
  rw [wordRead, testBit_ofBitsLE, List.getD_eq_getElem?_getD, List.getElem?_map]
  by_cases h : t < width <;> simp [h]

theorem wordRead_lt (width : Nat) (v : BitArray) (k fill : Nat) :
    wordRead width v k fill < 2 ^ width := by
  apply Nat.lt_pow_two_of_testBit
  intro i hi
  rw [testBit_wordRead]
  simp [Nat.not_lt.2 hi]

@[simp] theorem length_wordWrite (width : Nat) (v : BitArray) (k w : Nat) :
    (wordWrite width v k w).length = v.length := by simp [wordWrite]

theorem getElem?_wordWrite (width : Nat) (v : BitArray) (k w p : Nat) :
    (wordWrite width v k w)[p]? =
      v[p]?.map fun b => if p / width = k then w.testBit (p % width) else b := by
  simp [wordWrite, List.getElem?_mapIdx]

/-- The word count is the ceiling of `size / W` (20_memory.md R51). -/
theorem lt_wordCount_iff {width : Nat} (hw : 0 < width) (size k : Nat) :
    k < wordCount width size ↔ k * width < size := by
  unfold wordCount
  rw [Nat.lt_iff_add_one_le, Nat.le_div_iff_mul_le hw, Nat.add_mul]
  omega

/-! ### Shifts (43_shift.md) -/

@[simp] theorem length_rotateLeft (v : BitArray) (n : Nat) : (rotateLeft v n).length = v.length := by
  rcases Nat.eq_zero_or_pos v.length with h | h
  · simp [rotateLeft, List.length_eq_zero_iff.1 h]
  · have := Nat.mod_lt n h
    simp [rotateLeft]; omega

@[simp] theorem length_rotateRight (v : BitArray) (n : Nat) :
    (rotateRight v n).length = v.length := by
  simp [rotateRight]

theorem getElem?_rotateLeft (v : BitArray) (n k : Nat) (h : k < v.length) :
    (rotateLeft v n)[k]? = v[(k + n) % v.length]? := by
  have hm := Nat.mod_lt n (Nat.lt_of_le_of_lt (Nat.zero_le k) h)
  have hmod : (k + n) % v.length = (k + n % v.length) % v.length := (Nat.add_mod_mod k n _).symm
  rw [rotateLeft, hmod]
  generalize n % v.length = m at hm
  by_cases hk : k < v.length - m
  · rw [List.getElem?_append_left (by simpa using hk), List.getElem?_drop,
      Nat.mod_eq_of_lt (by omega : k + m < v.length), Nat.add_comm]
  · have e : (k + m) % v.length = k + m - v.length := by
      rw [Nat.mod_eq_sub_mod (by omega), Nat.mod_eq_of_lt (by omega)]
    rw [e, List.getElem?_append_right (by simp; omega), List.length_drop, List.getElem?_take,
      if_pos (by omega)]
    congr 1; omega

theorem rotateRight_eq (v : BitArray) (n : Nat) :
    rotateRight v n = rotateLeft v (v.length - n % v.length) := by
  rcases Nat.eq_zero_or_pos (n % v.length) with h | h
  · simp [rotateRight, rotateLeft, h]
  · rcases Nat.eq_zero_or_pos v.length with h0 | h0
    · simp [rotateRight, rotateLeft, List.length_eq_zero_iff.1 h0]
    · have := Nat.mod_lt n h0
      have e : (v.length - n % v.length) % v.length = v.length - n % v.length :=
        Nat.mod_eq_of_lt (by omega)
      rw [rotateRight, rotateLeft, e]

@[simp] theorem length_shiftLeft (v : BitArray) (n : Nat) : (shiftLeft v n).length = v.length := by
  simp [shiftLeft]; omega

@[simp] theorem length_shiftRight (v : BitArray) (n : Nat) :
    (shiftRight v n).length = v.length := by
  simp [shiftRight]; omega

theorem getElem?_shiftLeft (v : BitArray) (n k : Nat) (h : k < v.length) :
    (shiftLeft v n)[k]? = some (v.getD (k + n) false) := by
  rw [shiftLeft]
  by_cases hk : k < v.length - n
  · rw [List.getElem?_append_left (by simpa using hk), List.getElem?_drop, Nat.add_comm]
    have : k + n < v.length := by omega
    simp [this]
  · rw [List.getElem?_append_right (by simp; omega)]
    have : ¬k + n < v.length := by omega
    have h2 : k - (v.length - n) < min n v.length := by omega
    simp [zeros, this, h2]

theorem getElem?_shiftRight (v : BitArray) (n k : Nat) (h : k < v.length) :
    (shiftRight v n)[k]? = some (if n ≤ k then v.getD (k - n) false else false) := by
  rw [shiftRight]
  by_cases hk : n ≤ k
  · have h1 : min n v.length = n := by omega
    have h2 : k - n < v.length := by omega
    rw [List.getElem?_append_right (by simp [h1, hk])]
    simp only [length_zeros, h1, hk, if_true, List.getElem?_take]
    have h3 : k - n < v.length - n := by omega
    simp [h3, h2]
  · have h1 : k < min n v.length := by omega
    rw [List.getElem?_append_left (by simpa using h1)]
    simp [zeros, h1, hk]

/-- A left shift multiplies the value by `2^n` modulo `2^size` (43_shift.md R162). -/
theorem intOf_shiftLeft (v : BitArray) (n : Nat) :
    intOf (shiftLeft v n) = intOf v * 2 ^ n % 2 ^ v.length := by
  apply Nat.eq_of_testBit_eq
  intro k
  rw [testBit_intOf, Nat.testBit_mod_two_pow, Nat.testBit_mul_two_pow, testBit_intOf,
    length_shiftLeft]
  by_cases hk : k < v.length
  · simp only [hk, decide_true, Bool.true_and, List.getD_eq_getElem?_getD,
      getElem?_shiftLeft v n (v.length - 1 - k) (by omega), Option.getD_some]
    by_cases hn : n ≤ k
    · have h1 : k - n < v.length := by omega
      have h2 : v.length - 1 - k + n = v.length - 1 - (k - n) := by omega
      simp [hn, h1, h2]
    · have h1 : ¬v.length - 1 - k + n < v.length := by omega
      simp [hn, h1]
  · simp [hk]

/-- A right shift divides the value by `2^n`, rounding down (43_shift.md R163). -/
theorem intOf_shiftRight (v : BitArray) (n : Nat) :
    intOf (shiftRight v n) = intOf v / 2 ^ n := by
  apply Nat.eq_of_testBit_eq
  intro k
  rw [testBit_intOf, Nat.testBit_div_two_pow, testBit_intOf, length_shiftRight]
  by_cases hk : k < v.length
  · simp only [hk, decide_true, Bool.true_and, List.getD_eq_getElem?_getD,
      getElem?_shiftRight v n (v.length - 1 - k) (by omega), Option.getD_some]
    by_cases hn : k + n < v.length
    · have h1 : n ≤ v.length - 1 - k := by omega
      have h2 : v.length - 1 - k - n = v.length - 1 - (k + n) := by omega
      simp [hn, h1, h2]
    · have h1 : ¬n ≤ v.length - 1 - k := by omega
      simp [hn, h1]
  · have : ¬k + n < v.length := by omega
    simp [hk, this]

/-! ### Permutation (44_permutation.md) -/

@[simp] theorem length_permute (v : BitArray) (l : List Scalar) :
    (permute v l).length = l.length := by simp [permute]

theorem length_foldl_set (l : List (Scalar × Bool)) (out : BitArray) :
    (l.foldl (fun out ib => out.set ib.1.toNat ib.2) out).length = out.length := by
  induction l generalizing out with
  | nil => rfl
  | cons ib l ih => simp [ih]

@[simp] theorem length_unpermute (v : BitArray) (l : List Scalar) :
    (unpermute v l).length = v.length := by simp [unpermute, length_foldl_set]

/-- A position no entry names keeps its bit through the loop of R171. -/
theorem getElem?_foldl_set_of_notMem (l : List (Scalar × Bool)) (out : BitArray) (p : Nat)
    (h : ∀ ib ∈ l, ib.1.toNat ≠ p) :
    (l.foldl (fun out ib => out.set ib.1.toNat ib.2) out)[p]? = out[p]? := by
  induction l generalizing out with
  | nil => rfl
  | cons ib l ih =>
    rw [List.foldl_cons, ih _ fun x hx => h x (List.mem_cons_of_mem _ hx)]
    exact List.getElem?_set_ne (h ib List.mem_cons_self)

/-- The last entry to name a position decides its bit in the loop of R171. -/
theorem getElem?_foldl_set_of_last (l r : List (Scalar × Bool)) (ib : Scalar × Bool)
    (out : BitArray) (h : ∀ x ∈ r, x.1.toNat ≠ ib.1.toNat) (hp : ib.1.toNat < out.length) :
    ((l ++ ib :: r).foldl (fun out ib => out.set ib.1.toNat ib.2) out)[ib.1.toNat]? =
      some ib.2 := by
  rw [List.foldl_append, List.foldl_cons, getElem?_foldl_set_of_notMem _ _ _ h]
  simp [length_foldl_set, hp]

/-! ### Containment, search, runs -/

/-- Containment is the substring test (42_bitwise_relational.md R151). -/
theorem occursIn_iff (b a : BitArray) : occursIn b a = true ↔ b <:+: a := by
  induction a with
  | nil => simp [occursIn]
  | cons x a ih =>
    rw [occursIn, Bool.or_eq_true, ih, List.isPrefixOf_iff_prefix, List.infix_cons_iff]

theorem nextSetBit_eq_some_iff (v : BitArray) (st : Int) (p : Nat) :
    nextSetBit v st = some p ↔
      (st ≤ p ∧ v[p]? = some true) ∧ ∀ q, q < p → st ≤ q → v[q]? ≠ some true := by
  rw [nextSetBit, List.find?_eq_some_iff_getElem]
  simp only [List.length_range, List.getElem_range, Bool.and_eq_true, decide_eq_true_eq]
  constructor
  · rintro ⟨⟨h1, h2⟩, i, hi, rfl, h3⟩
    refine ⟨⟨h1, ?_⟩, fun q hq hst hset => ?_⟩
    · simpa [hi] using h2
    · have := h3 q hq
      have hql : q < v.length := by omega
      simp_all
  · rintro ⟨⟨h1, h2⟩, h3⟩
    have hp : p < v.length := by
      by_contra hc
      simp [List.getElem?_eq_none (Nat.le_of_not_lt hc)] at h2
    refine ⟨⟨h1, by simp [h2]⟩, p, hp, rfl, fun j hj => ?_⟩
    have hjl : j < v.length := by omega
    have := h3 j hj
    by_cases hst : st ≤ (j : Int)
    · simp_all
    · simp [hst]

theorem nextSetBit_eq_none_iff (v : BitArray) (st : Int) :
    nextSetBit v st = none ↔ ∀ p : Nat, st ≤ p → v[p]? ≠ some true := by
  rw [nextSetBit, List.find?_eq_none]
  simp only [List.mem_range, Bool.and_eq_true, decide_eq_true_eq, not_and]
  constructor
  · intro h p hst hset
    have hp : p < v.length := by
      by_contra hc
      simp [List.getElem?_eq_none (Nat.le_of_not_lt hc)] at hset
    exact h p hp hst (by simp [hset])
  · intro h p hp hst hset
    refine h p hst ?_
    simpa [hp] using hset

/-- The runs put one after another are the vector (45_bit_analysis.md R187). -/
theorem flatMap_runs (v : BitArray) : ((runs v).flatMap fun r => List.replicate r.2 r.1) = v := by
  induction v with
  | nil => rfl
  | cons b v ih =>
    rw [runs]
    split
    · rename_i c n rest h
      rw [h] at ih
      split
      · rename_i hbc; subst hbc
        rw [← ih]; simp [List.replicate_succ]
      · rw [← ih]; simp
    · rename_i h
      rw [h] at ih
      simpa using ih

theorem one_le_of_mem_runs (v : BitArray) : ∀ r ∈ runs v, 1 ≤ r.2 := by
  induction v with
  | nil => simp [runs]
  | cons b v ih =>
    rw [runs]
    split
    · rename_i c n rest h
      rw [h] at ih
      split <;> simp_all
    · simp

theorem head?_runs (v : BitArray) : (runs v).head?.map Prod.fst = v.head? := by
  cases v with
  | nil => rfl
  | cons b v =>
    rw [runs]
    split
    · split
      · rename_i h; simp [h]
      · simp
    · simp

theorem isChain_runs (v : BitArray) : (runs v).IsChain (fun a b => a.1 ≠ b.1) := by
  induction v with
  | nil => simp [runs]
  | cons b v ih =>
    rw [runs]
    split
    · rename_i c n rest h
      rw [h] at ih
      split
      · cases rest with
        | nil => simp
        | cons d rest => simpa using ih
      · rename_i hbc
        simpa [List.isChain_cons_cons, hbc] using ih
    · simp

theorem length_runs_le (v : BitArray) : (runs v).length ≤ v.length := by
  induction v with
  | nil => simp [runs]
  | cons b v ih =>
    rw [runs]
    split
    · rename_i c n rest h
      rw [h] at ih
      split <;> simp at ih ⊢ <;> omega
    · simp

end Sys2Proof.Machine
end

