-- ==== Sys2Proof/Laws/Decode.lean ====
section
/-! SUPPORT. The slots of a word the encoder writes, and the mask test of the decoder. -/

namespace Sys2Proof

theorem getLsbD_formatR (op : BitVec 8) (sd sa sb vd va vb : BitVec 4) (k : Nat) :
    (formatR op sd sa sb vd va vb).getLsbD k =
      if k < 4 then vb.getLsbD k
      else if k < 8 then va.getLsbD (k - 4)
      else if k < 12 then vd.getLsbD (k - 8)
      else if k < 16 then sb.getLsbD (k - 12)
      else if k < 20 then sa.getLsbD (k - 16)
      else if k < 24 then sd.getLsbD (k - 20)
      else op.getLsbD (k - 24) := by
  simp only [formatR, BitVec.getLsbD_append]
  have e : ∀ a b : Nat, k - a - b = k - (a + b) := fun a b => by omega
  simp only [e]
  split_ifs <;> first | rfl | omega

/-- A word of format I is a word of format R whose low slots are the immediate. -/
theorem formatI_eq (op : BitVec 8) (sd : BitVec 4) (imm16 : BitVec 16) :
    formatI op sd imm16 = formatR op sd 0 (imm16.extractLsb' 12 4) (imm16.extractLsb' 8 4)
      (imm16.extractLsb' 4 4) (imm16.extractLsb' 0 4) := by
  apply BitVec.eq_of_getLsbD_eq
  intro k hk
  rw [getLsbD_formatR]
  simp only [formatI, BitVec.getLsbD_append, BitVec.getLsbD_extractLsb']
  have e : ∀ a b : Nat, k - a - b = k - (a + b) := fun a b => by omega
  simp only [e]
  split_ifs <;> first | rfl | omega | (simp; done) |
    (rw [show 12 + (k - 12) = k by omega]; simp; omega) |
    (rw [show 8 + (k - 8) = k by omega]; simp; omega) |
    (rw [show 4 + (k - 4) = k by omega]; simp; omega) | (simp; omega)

@[simp] theorem fieldOp_formatR (op : BitVec 8) (sd sa sb vd va vb : BitVec 4) :
    fieldOp (formatR op sd sa sb vd va vb) = op := by
  apply BitVec.eq_of_getLsbD_eq
  intro k hk
  rw [fieldOp, BitVec.getLsbD_extractLsb', getLsbD_formatR]
  simp [hk, show ¬24 + k < 4 by omega, show ¬24 + k < 8 by omega, show ¬24 + k < 12 by omega,
    show ¬24 + k < 16 by omega, show ¬24 + k < 20 by omega]

@[simp] theorem fieldSD_formatR (op : BitVec 8) (sd sa sb vd va vb : BitVec 4) :
    fieldSD (formatR op sd sa sb vd va vb) = sd := by
  apply BitVec.eq_of_getLsbD_eq
  intro k hk
  rw [fieldSD, BitVec.getLsbD_extractLsb', getLsbD_formatR]
  simp [hk, show ¬20 + k < 4 by omega, show ¬20 + k < 8 by omega, show ¬20 + k < 12 by omega,
    show ¬20 + k < 16 by omega, show 20 + k < 24 by omega]

@[simp] theorem fieldSA_formatR (op : BitVec 8) (sd sa sb vd va vb : BitVec 4) :
    fieldSA (formatR op sd sa sb vd va vb) = sa := by
  apply BitVec.eq_of_getLsbD_eq
  intro k hk
  rw [fieldSA, BitVec.getLsbD_extractLsb', getLsbD_formatR]
  simp [hk, show ¬16 + k < 4 by omega, show ¬16 + k < 8 by omega, show ¬16 + k < 12 by omega,
    show 16 + k < 20 by omega]

@[simp] theorem fieldSB_formatR (op : BitVec 8) (sd sa sb vd va vb : BitVec 4) :
    fieldSB (formatR op sd sa sb vd va vb) = sb := by
  apply BitVec.eq_of_getLsbD_eq
  intro k hk
  rw [fieldSB, BitVec.getLsbD_extractLsb', getLsbD_formatR]
  simp [hk, show ¬12 + k < 4 by omega, show ¬12 + k < 8 by omega, show 12 + k < 16 by omega]

@[simp] theorem fieldVD_formatR (op : BitVec 8) (sd sa sb vd va vb : BitVec 4) :
    fieldVD (formatR op sd sa sb vd va vb) = vd := by
  apply BitVec.eq_of_getLsbD_eq
  intro k hk
  rw [fieldVD, BitVec.getLsbD_extractLsb', getLsbD_formatR]
  simp [hk, show ¬8 + k < 4 by omega, show 8 + k < 12 by omega]

@[simp] theorem fieldVA_formatR (op : BitVec 8) (sd sa sb vd va vb : BitVec 4) :
    fieldVA (formatR op sd sa sb vd va vb) = va := by
  apply BitVec.eq_of_getLsbD_eq
  intro k hk
  rw [fieldVA, BitVec.getLsbD_extractLsb', getLsbD_formatR]
  simp [hk, show 4 + k < 8 by omega]

@[simp] theorem fieldVB_formatR (op : BitVec 8) (sd sa sb vd va vb : BitVec 4) :
    fieldVB (formatR op sd sa sb vd va vb) = vb := by
  apply BitVec.eq_of_getLsbD_eq
  intro k hk
  rw [fieldVB, BitVec.getLsbD_extractLsb', getLsbD_formatR]
  simp [hk]

@[simp] theorem fieldOp_formatI (op : BitVec 8) (sd : BitVec 4) (imm16 : BitVec 16) :
    fieldOp (formatI op sd imm16) = op := by rw [formatI_eq, fieldOp_formatR]

@[simp] theorem fieldSD_formatI (op : BitVec 8) (sd : BitVec 4) (imm16 : BitVec 16) :
    fieldSD (formatI op sd imm16) = sd := by rw [formatI_eq, fieldSD_formatR]

@[simp] theorem fieldImm16_formatI (op : BitVec 8) (sd : BitVec 4) (imm16 : BitVec 16) :
    fieldImm16 (formatI op sd imm16) = imm16 := by
  apply BitVec.eq_of_getLsbD_eq
  intro k hk
  rw [fieldImm16, BitVec.getLsbD_extractLsb', formatI, BitVec.getLsbD_append]
  simp [hk]

/-- Masking works slot by slot. -/
theorem formatR_and (op op' : BitVec 8) (sd sa sb vd va vb sd' sa' sb' vd' va' vb' : BitVec 4) :
    formatR op sd sa sb vd va vb &&& formatR op' sd' sa' sb' vd' va' vb' =
      formatR (op &&& op') (sd &&& sd') (sa &&& sa') (sb &&& sb') (vd &&& vd') (va &&& va')
        (vb &&& vb') := by
  apply BitVec.eq_of_getLsbD_eq
  intro k hk
  rw [BitVec.getLsbD_and, getLsbD_formatR, getLsbD_formatR, getLsbD_formatR]
  split_ifs <;> simp

theorem matchWord_eq (r : OpcodeRow) : r.matchWord = formatR r.op 0 0 0 0 0 0 := by
  apply BitVec.eq_of_getLsbD_eq
  intro k hk
  rw [getLsbD_formatR, OpcodeRow.matchWord, BitVec.getLsbD_append]
  split_ifs <;> first | rfl | omega | simp

theorem op_of_rowOf {op : BitVec 8} {r : OpcodeRow} (h : rowOf op = some r) : r.op = op := by
  have := List.find?_some h
  simpa using this

/-- A word with every unused slot zero passes its row's test. -/
theorem formatR_matches {op : BitVec 8} {sd sa sb vd va vb : BitVec 4} {r : OpcodeRow}
    (m1 m2 m3 m4 m5 m6 : BitVec 4) (hr : rowOf op = some r)
    (hm : r.mask = formatR 0xFF m1 m2 m3 m4 m5 m6)
    (hz : sd &&& m1 = 0 ∧ sa &&& m2 = 0 ∧ sb &&& m3 = 0 ∧ vd &&& m4 = 0 ∧ va &&& m5 = 0 ∧
      vb &&& m6 = 0) :
    ∃ r, rowOf (fieldOp (formatR op sd sa sb vd va vb)) = some r ∧
      formatR op sd sa sb vd va vb &&& r.mask = r.matchWord := by
  obtain ⟨h1, h2, h3, h4, h5, h6⟩ := hz
  refine ⟨r, by rw [fieldOp_formatR, hr], ?_⟩
  rw [hm, formatR_and, h1, h2, h3, h4, h5, h6, matchWord_eq, op_of_rowOf hr,
    show op &&& 0xFF = op from BitVec.and_allOnes]

end Sys2Proof
end

