-- ==== Sys2Proof/Laws/Number.lean ====
section
/-! SUPPORT. What the number theory of Machine/Number.lean computes: the Euclidean loop, powers, the odd
part, one Miller-Rabin round. -/

namespace Sys2Proof.Machine

/-! ### The inverse modulo an integer (46_galois_field.md R205) -/

/-- The loop keeps `r ≡ t * a` modulo `m`, and ends at the greatest common divisor. -/
theorem intEuclid_spec (a m : Int) (fuel r0 r1 : Nat) (t0 t1 : Int) (hf : r1 < fuel)
    (h0 : m ∣ r0 - t0 * a) (h1 : m ∣ r1 - t1 * a) :
    let gt := intEuclid fuel r0 r1 t0 t1
    gt.1 = Nat.gcd r0 r1 ∧ m ∣ gt.1 - gt.2 * a := by
  induction fuel generalizing r0 r1 t0 t1 with
  | zero => omega
  | succ fuel ih =>
    rw [intEuclid]
    split
    · rename_i hz
      subst hz
      exact ⟨by simp, h0⟩
    · rename_i hz
      have hle : r0 / r1 * r1 ≤ r0 := Nat.div_mul_le_self _ _
      have hmod : r0 - r0 / r1 * r1 = r0 % r1 := by
        rw [Nat.mod_eq_sub_mul_div, Nat.mul_comm]
      have hlt : r0 - r0 / r1 * r1 < fuel := by
        have := Nat.mod_lt r0 (Nat.pos_of_ne_zero hz)
        omega
      obtain ⟨g1, g2⟩ := ih r1 (r0 - r0 / r1 * r1) t1 (t0 - (r0 / r1 : Nat) * t1) hlt h1 (by
        have e : ((r0 - r0 / r1 * r1 : Nat) : Int) - (t0 - (r0 / r1 : Nat) * t1) * a =
            (r0 - t0 * a) - (r0 / r1 : Nat) * (r1 - t1 * a) := by
          rw [Nat.cast_sub hle]; push_cast; ring
        rw [e]
        exact dvd_sub h0 (Dvd.dvd.mul_left h1 _))
      refine ⟨?_, g2⟩
      rw [g1, hmod, Nat.gcd_comm r0 r1, Nat.gcd_rec r1 r0, Nat.gcd_comm]

/-- What `modInverse` answers: the inverse exactly when the two are coprime. -/
theorem modInverse_spec (a m : Nat) (hm : m ≠ 0) :
    (∀ x, modInverse a m = some x → x < m ∧ a * x % m = 1 % m) ∧
      ((modInverse a m).isSome = true ↔ Nat.gcd a m = 1) := by
  have hlt : a % m < m + 1 := lt_trans (Nat.mod_lt a (Nat.pos_of_ne_zero hm)) (Nat.lt_succ_self m)
  obtain ⟨g1, g2⟩ := intEuclid_spec a m (m + 1) m (a % m) 0 1 hlt (by simp) (by
    have e : ((a % m : Nat) : Int) - 1 * a = -(m * (a / m)) := by
      have := Int.emod_add_mul_ediv a m
      push_cast; linarith
    rw [e]
    exact (dvd_mul_right _ _).neg_right)
  have hg : Nat.gcd m (a % m) = Nat.gcd a m := by
    rw [Nat.gcd_comm m, ← Nat.gcd_rec, Nat.gcd_comm]
  rw [hg] at g1
  have hm' : (m : Int) ≠ 0 := by exact_mod_cast hm
  unfold modInverse
  simp only
  refine ⟨fun x hx => ?_, ?_⟩
  · split at hx
    · rename_i h1
      injection hx with hx
      rw [h1] at g2
      generalize (intEuclid (m + 1) m (a % m) 0 1).2 = t at g2 hx
      have hnn : 0 ≤ t % (m : Int) := Int.emod_nonneg _ hm'
      have hxt : (x : Int) = t % m := by rw [← hx]; exact Int.toNat_of_nonneg hnn
      constructor
      · have := Int.emod_lt_of_pos t (show (0 : Int) < m by omega)
        omega
      · have hz : ((a * x : Nat) : Int) % m = 1 % m := by
          rw [Nat.cast_mul, hxt, Int.mul_emod, Int.emod_emod, ← Int.mul_emod]
          refine (Int.emod_emod_of_dvd _ dvd_rfl).symm.trans ?_
          rw [Int.emod_emod]
          refine Int.emod_eq_emod_iff_emod_sub_eq_zero.2 (Int.emod_eq_zero_of_dvd ?_)
          have e : (a : Int) * t - 1 = -((1 : Nat) - t * a) := by push_cast; ring
          rw [e]
          exact g2.neg_right
        exact_mod_cast hz
    · cases hx
  · rw [g1]
    split <;> simp_all

/-! ### Powers (46_galois_field.md R210) -/

theorem foldl_powMod (a n : Nat) (l : BitArray) (x : Nat) :
    l.foldl (fun x b => if b then x * x % n * a % n else x * x % n) (x % n) =
      x ^ 2 ^ l.length * a ^ intOf l % n := by
  induction l generalizing x with
  | nil => simp
  | cons b l ih =>
    rw [List.foldl_cons]
    have e : (if b then x % n * (x % n) % n * a % n else x % n * (x % n) % n) =
        (x * x * a ^ b.toNat) % n := by
      cases b <;> simp [Nat.mul_mod]
    rw [e, ih, intOf_cons, List.length_cons]
    congr 1
    rw [mul_pow, ← pow_mul, pow_add a, pow_succ 2 l.length, Nat.mul_comm (2 ^ l.length) 2,
      pow_mul x 2, pow_two x, mul_assoc]

/-- `powMod` is the power reduced. -/
theorem powMod_eq (a d n : Nat) : powMod a d n = a ^ d % n := by
  rw [powMod, foldl_powMod, intOf_minRep]; simp

/-! ### The odd part -/

/-- `oddPart` keeps `2^r * d` and ends at an odd `d`. -/
theorem oddPart_spec (fuel r d : Nat) (h0 : d ≠ 0) (hf : d ≤ fuel) :
    let rd := oddPart fuel r d
    2 ^ rd.1 * rd.2 = 2 ^ r * d ∧ rd.2 % 2 = 1 := by
  induction fuel generalizing r d with
  | zero => omega
  | succ fuel ih =>
    rw [oddPart]
    split
    · rename_i he
      obtain ⟨h1, h2⟩ := ih (r + 1) (d / 2) (by omega) (by omega)
      refine ⟨?_, h2⟩
      rw [h1, Nat.pow_succ, Nat.mul_assoc, Nat.mul_div_cancel' (Nat.dvd_of_mod_eq_zero he)]
    · exact ⟨rfl, by omega⟩

/-- A number is a power of two times an odd number in one way. -/
theorem two_pow_mul_odd_unique {r d r' d' : Nat} (hd : d % 2 = 1) (hd' : d' % 2 = 1)
    (h : 2 ^ r * d = 2 ^ r' * d') : r = r' ∧ d = d' := by
  induction r generalizing r' with
  | zero =>
    cases r' with
    | zero => simpa using h
    | succ r' => rw [Nat.pow_succ', Nat.mul_assoc] at h; omega
  | succ r ih =>
    cases r' with
    | zero => rw [Nat.pow_succ', Nat.mul_assoc] at h; omega
    | succ r' =>
      rw [Nat.pow_succ', Nat.pow_succ', Nat.mul_assoc, Nat.mul_assoc] at h
      obtain ⟨h1, h2⟩ := ih (r' := r') (by omega)
      exact ⟨by omega, h2⟩

/-! ### One round of the test -/

/-- `squareHits` looks at the squares after the first value. -/
theorem squareHits_iff (n j x : Nat) :
    squareHits n j x = true ↔ ∃ i, 1 ≤ i ∧ i ≤ j ∧ x ^ 2 ^ i % n = n - 1 := by
  induction j generalizing x with
  | zero =>
    simp only [squareHits, Bool.false_eq_true, false_iff, not_exists, not_and]
    intro i h1 h2
    omega
  | succ j ih =>
    have hp : ∀ i, (x * x % n) ^ 2 ^ i % n = x ^ 2 ^ (i + 1) % n := by
      intro i
      rw [← Nat.pow_mod, Nat.pow_succ', pow_mul, pow_two]
    rw [squareHits, Bool.or_eq_true, beq_iff_eq, ih]
    simp only [hp]
    have h1 : x * x % n = x ^ 2 ^ 1 % n := by rw [pow_one, pow_two]
    rw [h1]
    constructor
    · rintro (h | ⟨i, hi1, hi2, h⟩)
      · exact ⟨1, le_refl _, by omega, h⟩
      · exact ⟨i + 1, by omega, by omega, h⟩
    · rintro ⟨i, hi1, hi2, h⟩
      rcases Nat.eq_or_lt_of_le hi1 with rfl | hlt
      · exact .inl h
      · refine .inr ⟨i - 1, by omega, by omega, ?_⟩
        rwa [Nat.sub_add_cancel hi1]

/-- A round of the model is a round of 46_galois_field.md R210. -/
theorem roundPasses_iff {n r d : Nat} (a : Nat) (hr : 1 ≤ r) (hd : d % 2 = 1)
    (h : n - 1 = 2 ^ r * d) : roundPasses n r d a = true ↔ PassesRound n a := by
  have hx : ∀ i, (a ^ d % n) ^ 2 ^ i % n = a ^ (2 ^ i * d) % n := by
    intro i
    rw [← Nat.pow_mod, ← pow_mul, Nat.mul_comm]
  have key : roundPasses n r d a = true ↔
      (a ^ d % n = 1 ∨ ∃ j, j < r ∧ a ^ (2 ^ j * d) % n = n - 1) := by
    unfold roundPasses
    simp only [powMod_eq, Bool.or_eq_true, beq_iff_eq, squareHits_iff, hx, or_assoc]
    refine or_congr_right ⟨?_, ?_⟩
    · rintro (h0 | ⟨i, h1, h2, h3⟩)
      · exact ⟨0, by omega, by simpa using h0⟩
      · exact ⟨i, by omega, h3⟩
    · rintro ⟨j, h1, h2⟩
      rcases Nat.eq_zero_or_pos j with rfl | hj
      · exact .inl (by simpa using h2)
      · exact .inr ⟨j, hj, by omega, h2⟩
  rw [key, PassesRound]
  constructor
  · intro hp
    exact ⟨r, d, h, hd, hp⟩
  · rintro ⟨r', d', h', hd', hp⟩
    obtain ⟨rfl, rfl⟩ := two_pow_mul_odd_unique hd hd' (h.symm.trans h')
    exact hp

end Sys2Proof.Machine
end

