-- ==== Sys2Proof/Laws/State.lean ====
section
/-! SUPPORT. One lemma for each field under each update of the state, so that no proof unfolds a record
update, and reading a register after writing one. -/

namespace Sys2Proof.Machine

/-! ### `State.setScalar` -/

@[simp] theorem State.setScalar_params (s : State) (r : SReg) (v : Scalar) : (s.setScalar r v).params = s.params := rfl

@[simp] theorem State.setScalar_scalars (s : State) (r : SReg) (v : Scalar) : (s.setScalar r v).scalars = s.scalars.set r.toNat v r.isLt := rfl

@[simp] theorem State.setScalar_vectors (s : State) (r : SReg) (v : Scalar) : (s.setScalar r v).vectors = s.vectors := rfl

@[simp] theorem State.setScalar_indices (s : State) (r : SReg) (v : Scalar) : (s.setScalar r v).indices = s.indices := rfl

@[simp] theorem State.setScalar_err (s : State) (r : SReg) (v : Scalar) : (s.setScalar r v).err = s.err := rfl

@[simp] theorem State.setScalar_nr (s : State) (r : SReg) (v : Scalar) : (s.setScalar r v).nr = s.nr := rfl

@[simp] theorem State.setScalar_resp (s : State) (r : SReg) (v : Scalar) : (s.setScalar r v).resp = s.resp := rfl

@[simp] theorem State.setScalar_host (s : State) (r : SReg) (v : Scalar) : (s.setScalar r v).host = s.host := rfl

@[simp] theorem State.setScalar_entropy (s : State) (r : SReg) (v : Scalar) : (s.setScalar r v).entropy = s.entropy := rfl

@[simp] theorem State.setScalar_padding (s : State) (r : SReg) (v : Scalar) : (s.setScalar r v).padding = s.padding := rfl

@[simp] theorem State.setScalar_vec (s : State) (r : SReg) (v : Scalar) (i : VReg) :
    (s.setScalar r v).vec i = s.vec i := rfl

@[simp] theorem State.setScalar_size (s : State) (r : SReg) (v : Scalar) (i : VReg) :
    (s.setScalar r v).size i = s.size i := rfl

@[simp] theorem State.setScalar_status (s : State) (r : SReg) (v : Scalar) : (s.setScalar r v).status = s.status := rfl

/-! ### `State.setInt` -/

@[simp] theorem State.setInt_params (s : State) (r : SReg) (v : Int) : (s.setInt r v).params = s.params := rfl

@[simp] theorem State.setInt_scalars (s : State) (r : SReg) (v : Int) : (s.setInt r v).scalars = s.scalars.set r.toNat (BitVec.ofInt 32 v) r.isLt := rfl

@[simp] theorem State.setInt_vectors (s : State) (r : SReg) (v : Int) : (s.setInt r v).vectors = s.vectors := rfl

@[simp] theorem State.setInt_indices (s : State) (r : SReg) (v : Int) : (s.setInt r v).indices = s.indices := rfl

@[simp] theorem State.setInt_err (s : State) (r : SReg) (v : Int) : (s.setInt r v).err = s.err := rfl

@[simp] theorem State.setInt_nr (s : State) (r : SReg) (v : Int) : (s.setInt r v).nr = s.nr := rfl

@[simp] theorem State.setInt_resp (s : State) (r : SReg) (v : Int) : (s.setInt r v).resp = s.resp := rfl

@[simp] theorem State.setInt_host (s : State) (r : SReg) (v : Int) : (s.setInt r v).host = s.host := rfl

@[simp] theorem State.setInt_entropy (s : State) (r : SReg) (v : Int) : (s.setInt r v).entropy = s.entropy := rfl

@[simp] theorem State.setInt_padding (s : State) (r : SReg) (v : Int) : (s.setInt r v).padding = s.padding := rfl

@[simp] theorem State.setInt_vec (s : State) (r : SReg) (v : Int) (i : VReg) :
    (s.setInt r v).vec i = s.vec i := rfl

@[simp] theorem State.setInt_size (s : State) (r : SReg) (v : Int) (i : VReg) :
    (s.setInt r v).size i = s.size i := rfl

@[simp] theorem State.setInt_status (s : State) (r : SReg) (v : Int) : (s.setInt r v).status = s.status := rfl

/-! ### `State.setVec` -/

@[simp] theorem State.setVec_params (s : State) (r : VReg) (v : BitArray) : (s.setVec r v).params = s.params := rfl

@[simp] theorem State.setVec_scalars (s : State) (r : VReg) (v : BitArray) : (s.setVec r v).scalars = s.scalars := rfl

@[simp] theorem State.setVec_vectors (s : State) (r : VReg) (v : BitArray) : (s.setVec r v).vectors = s.vectors.set r.toNat v r.isLt := rfl

@[simp] theorem State.setVec_indices (s : State) (r : VReg) (v : BitArray) : (s.setVec r v).indices = s.indices := rfl

@[simp] theorem State.setVec_err (s : State) (r : VReg) (v : BitArray) : (s.setVec r v).err = s.err := rfl

@[simp] theorem State.setVec_nr (s : State) (r : VReg) (v : BitArray) : (s.setVec r v).nr = s.nr := rfl

@[simp] theorem State.setVec_resp (s : State) (r : VReg) (v : BitArray) : (s.setVec r v).resp = s.resp := rfl

@[simp] theorem State.setVec_host (s : State) (r : VReg) (v : BitArray) : (s.setVec r v).host = s.host := rfl

@[simp] theorem State.setVec_entropy (s : State) (r : VReg) (v : BitArray) : (s.setVec r v).entropy = s.entropy := rfl

@[simp] theorem State.setVec_padding (s : State) (r : VReg) (v : BitArray) : (s.setVec r v).padding = s.padding := rfl

@[simp] theorem State.setVec_scalar (s : State) (r : VReg) (v : BitArray) (i : SReg) :
    (s.setVec r v).scalar i = s.scalar i := rfl

@[simp] theorem State.setVec_int (s : State) (r : VReg) (v : BitArray) (i : SReg) :
    (s.setVec r v).int i = s.int i := rfl

@[simp] theorem State.setVec_status (s : State) (r : VReg) (v : BitArray) : (s.setVec r v).status = s.status := rfl

/-! ### `State.setIndices` -/

@[simp] theorem State.setIndices_params (s : State) (l : List Scalar) : (s.setIndices l).params = s.params := rfl

@[simp] theorem State.setIndices_scalars (s : State) (l : List Scalar) : (s.setIndices l).scalars = s.scalars := rfl

@[simp] theorem State.setIndices_vectors (s : State) (l : List Scalar) : (s.setIndices l).vectors = s.vectors := rfl

@[simp] theorem State.setIndices_indices (s : State) (l : List Scalar) : (s.setIndices l).indices = l := rfl

@[simp] theorem State.setIndices_err (s : State) (l : List Scalar) : (s.setIndices l).err = s.err := rfl

@[simp] theorem State.setIndices_nr (s : State) (l : List Scalar) : (s.setIndices l).nr = s.nr := rfl

@[simp] theorem State.setIndices_resp (s : State) (l : List Scalar) : (s.setIndices l).resp = s.resp := rfl

@[simp] theorem State.setIndices_host (s : State) (l : List Scalar) : (s.setIndices l).host = s.host := rfl

@[simp] theorem State.setIndices_entropy (s : State) (l : List Scalar) : (s.setIndices l).entropy = s.entropy := rfl

@[simp] theorem State.setIndices_padding (s : State) (l : List Scalar) : (s.setIndices l).padding = s.padding := rfl

@[simp] theorem State.setIndices_scalar (s : State) (l : List Scalar) (i : SReg) :
    (s.setIndices l).scalar i = s.scalar i := rfl

@[simp] theorem State.setIndices_int (s : State) (l : List Scalar) (i : SReg) :
    (s.setIndices l).int i = s.int i := rfl

@[simp] theorem State.setIndices_vec (s : State) (l : List Scalar) (i : VReg) :
    (s.setIndices l).vec i = s.vec i := rfl

@[simp] theorem State.setIndices_size (s : State) (l : List Scalar) (i : VReg) :
    (s.setIndices l).size i = s.size i := rfl

@[simp] theorem State.setIndices_status (s : State) (l : List Scalar) : (s.setIndices l).status = s.status := rfl

/-! ### `State.clearErr` -/

@[simp] theorem State.clearErr_params (s : State) : s.clearErr.params = s.params := rfl

@[simp] theorem State.clearErr_scalars (s : State) : s.clearErr.scalars = s.scalars := rfl

@[simp] theorem State.clearErr_vectors (s : State) : s.clearErr.vectors = s.vectors := rfl

@[simp] theorem State.clearErr_indices (s : State) : s.clearErr.indices = s.indices := rfl

@[simp] theorem State.clearErr_err (s : State) : s.clearErr.err = 0 := rfl

@[simp] theorem State.clearErr_nr (s : State) : s.clearErr.nr = s.nr := rfl

@[simp] theorem State.clearErr_resp (s : State) : s.clearErr.resp = s.resp := rfl

@[simp] theorem State.clearErr_host (s : State) : s.clearErr.host = s.host := rfl

@[simp] theorem State.clearErr_entropy (s : State) : s.clearErr.entropy = s.entropy := rfl

@[simp] theorem State.clearErr_padding (s : State) : s.clearErr.padding = s.padding := rfl

@[simp] theorem State.clearErr_scalar (s : State) (i : SReg) :
    s.clearErr.scalar i = s.scalar i := rfl

@[simp] theorem State.clearErr_int (s : State) (i : SReg) :
    s.clearErr.int i = s.int i := rfl

@[simp] theorem State.clearErr_vec (s : State) (i : VReg) :
    s.clearErr.vec i = s.vec i := rfl

@[simp] theorem State.clearErr_size (s : State) (i : VReg) :
    s.clearErr.size i = s.size i := rfl

/-! ### `State.setNr` -/

@[simp] theorem State.setNr_params (s : State) (b : Bool) : (s.setNr b).params = s.params := rfl

@[simp] theorem State.setNr_scalars (s : State) (b : Bool) : (s.setNr b).scalars = s.scalars := rfl

@[simp] theorem State.setNr_vectors (s : State) (b : Bool) : (s.setNr b).vectors = s.vectors := rfl

@[simp] theorem State.setNr_indices (s : State) (b : Bool) : (s.setNr b).indices = s.indices := rfl

@[simp] theorem State.setNr_err (s : State) (b : Bool) : (s.setNr b).err = s.err := rfl

@[simp] theorem State.setNr_nr (s : State) (b : Bool) : (s.setNr b).nr = b := rfl

@[simp] theorem State.setNr_resp (s : State) (b : Bool) : (s.setNr b).resp = s.resp := rfl

@[simp] theorem State.setNr_host (s : State) (b : Bool) : (s.setNr b).host = s.host := rfl

@[simp] theorem State.setNr_entropy (s : State) (b : Bool) : (s.setNr b).entropy = s.entropy := rfl

@[simp] theorem State.setNr_padding (s : State) (b : Bool) : (s.setNr b).padding = s.padding := rfl

@[simp] theorem State.setNr_scalar (s : State) (b : Bool) (i : SReg) :
    (s.setNr b).scalar i = s.scalar i := rfl

@[simp] theorem State.setNr_int (s : State) (b : Bool) (i : SReg) :
    (s.setNr b).int i = s.int i := rfl

@[simp] theorem State.setNr_vec (s : State) (b : Bool) (i : VReg) :
    (s.setNr b).vec i = s.vec i := rfl

@[simp] theorem State.setNr_size (s : State) (b : Bool) (i : VReg) :
    (s.setNr b).size i = s.size i := rfl

/-! ### `State.setEntropy` -/

@[simp] theorem State.setEntropy_params (s : State) (e : FreeStream) : (s.setEntropy e).params = s.params := rfl

@[simp] theorem State.setEntropy_scalars (s : State) (e : FreeStream) : (s.setEntropy e).scalars = s.scalars := rfl

@[simp] theorem State.setEntropy_vectors (s : State) (e : FreeStream) : (s.setEntropy e).vectors = s.vectors := rfl

@[simp] theorem State.setEntropy_indices (s : State) (e : FreeStream) : (s.setEntropy e).indices = s.indices := rfl

@[simp] theorem State.setEntropy_err (s : State) (e : FreeStream) : (s.setEntropy e).err = s.err := rfl

@[simp] theorem State.setEntropy_nr (s : State) (e : FreeStream) : (s.setEntropy e).nr = s.nr := rfl

@[simp] theorem State.setEntropy_resp (s : State) (e : FreeStream) : (s.setEntropy e).resp = s.resp := rfl

@[simp] theorem State.setEntropy_host (s : State) (e : FreeStream) : (s.setEntropy e).host = s.host := rfl

@[simp] theorem State.setEntropy_entropy (s : State) (e : FreeStream) : (s.setEntropy e).entropy = e := rfl

@[simp] theorem State.setEntropy_padding (s : State) (e : FreeStream) : (s.setEntropy e).padding = s.padding := rfl

@[simp] theorem State.setEntropy_scalar (s : State) (e : FreeStream) (i : SReg) :
    (s.setEntropy e).scalar i = s.scalar i := rfl

@[simp] theorem State.setEntropy_int (s : State) (e : FreeStream) (i : SReg) :
    (s.setEntropy e).int i = s.int i := rfl

@[simp] theorem State.setEntropy_vec (s : State) (e : FreeStream) (i : VReg) :
    (s.setEntropy e).vec i = s.vec i := rfl

@[simp] theorem State.setEntropy_size (s : State) (e : FreeStream) (i : VReg) :
    (s.setEntropy e).size i = s.size i := rfl

@[simp] theorem State.setEntropy_status (s : State) (e : FreeStream) : (s.setEntropy e).status = s.status := rfl

/-! ### `State.setPadding` -/

@[simp] theorem State.setPadding_params (s : State) (p : FreeStream) : (s.setPadding p).params = s.params := rfl

@[simp] theorem State.setPadding_scalars (s : State) (p : FreeStream) : (s.setPadding p).scalars = s.scalars := rfl

@[simp] theorem State.setPadding_vectors (s : State) (p : FreeStream) : (s.setPadding p).vectors = s.vectors := rfl

@[simp] theorem State.setPadding_indices (s : State) (p : FreeStream) : (s.setPadding p).indices = s.indices := rfl

@[simp] theorem State.setPadding_err (s : State) (p : FreeStream) : (s.setPadding p).err = s.err := rfl

@[simp] theorem State.setPadding_nr (s : State) (p : FreeStream) : (s.setPadding p).nr = s.nr := rfl

@[simp] theorem State.setPadding_resp (s : State) (p : FreeStream) : (s.setPadding p).resp = s.resp := rfl

@[simp] theorem State.setPadding_host (s : State) (p : FreeStream) : (s.setPadding p).host = s.host := rfl

@[simp] theorem State.setPadding_entropy (s : State) (p : FreeStream) : (s.setPadding p).entropy = s.entropy := rfl

@[simp] theorem State.setPadding_padding (s : State) (p : FreeStream) : (s.setPadding p).padding = p := rfl

@[simp] theorem State.setPadding_scalar (s : State) (p : FreeStream) (i : SReg) :
    (s.setPadding p).scalar i = s.scalar i := rfl

@[simp] theorem State.setPadding_int (s : State) (p : FreeStream) (i : SReg) :
    (s.setPadding p).int i = s.int i := rfl

@[simp] theorem State.setPadding_vec (s : State) (p : FreeStream) (i : VReg) :
    (s.setPadding p).vec i = s.vec i := rfl

@[simp] theorem State.setPadding_size (s : State) (p : FreeStream) (i : VReg) :
    (s.setPadding p).size i = s.size i := rfl

@[simp] theorem State.setPadding_status (s : State) (p : FreeStream) : (s.setPadding p).status = s.status := rfl

/-! ### `State.withHost` -/

@[simp] theorem State.withHost_params (s : State) (h : List HostEvent) : (s.withHost h).params = s.params := rfl

@[simp] theorem State.withHost_scalars (s : State) (h : List HostEvent) : (s.withHost h).scalars = s.scalars := rfl

@[simp] theorem State.withHost_vectors (s : State) (h : List HostEvent) : (s.withHost h).vectors = s.vectors := rfl

@[simp] theorem State.withHost_indices (s : State) (h : List HostEvent) : (s.withHost h).indices = s.indices := rfl

@[simp] theorem State.withHost_err (s : State) (h : List HostEvent) : (s.withHost h).err = s.err := rfl

@[simp] theorem State.withHost_nr (s : State) (h : List HostEvent) : (s.withHost h).nr = s.nr := rfl

@[simp] theorem State.withHost_resp (s : State) (h : List HostEvent) : (s.withHost h).resp = s.resp := rfl

@[simp] theorem State.withHost_host (s : State) (h : List HostEvent) : (s.withHost h).host = h := rfl

@[simp] theorem State.withHost_entropy (s : State) (h : List HostEvent) : (s.withHost h).entropy = s.entropy := rfl

@[simp] theorem State.withHost_padding (s : State) (h : List HostEvent) : (s.withHost h).padding = s.padding := rfl

@[simp] theorem State.withHost_scalar (s : State) (h : List HostEvent) (i : SReg) :
    (s.withHost h).scalar i = s.scalar i := rfl

@[simp] theorem State.withHost_int (s : State) (h : List HostEvent) (i : SReg) :
    (s.withHost h).int i = s.int i := rfl

@[simp] theorem State.withHost_vec (s : State) (h : List HostEvent) (i : VReg) :
    (s.withHost h).vec i = s.vec i := rfl

@[simp] theorem State.withHost_size (s : State) (h : List HostEvent) (i : VReg) :
    (s.withHost h).size i = s.size i := rfl

@[simp] theorem State.withHost_status (s : State) (h : List HostEvent) : (s.withHost h).status = s.status := rfl

/-! ### `State.idle` -/

@[simp] theorem State.idle_params (s : State) : s.idle.params = s.params := rfl

@[simp] theorem State.idle_scalars (s : State) : s.idle.scalars = s.scalars := rfl

@[simp] theorem State.idle_vectors (s : State) : s.idle.vectors = s.vectors := rfl

@[simp] theorem State.idle_indices (s : State) : s.idle.indices = s.indices := rfl

@[simp] theorem State.idle_err (s : State) : s.idle.err = s.err := rfl

@[simp] theorem State.idle_nr (s : State) : s.idle.nr = s.nr := rfl

@[simp] theorem State.idle_resp (s : State) : s.idle.resp = none := rfl

@[simp] theorem State.idle_host (s : State) : s.idle.host = s.host := rfl

@[simp] theorem State.idle_entropy (s : State) : s.idle.entropy = s.entropy := rfl

@[simp] theorem State.idle_padding (s : State) : s.idle.padding = s.padding := rfl

@[simp] theorem State.idle_scalar (s : State) (i : SReg) :
    s.idle.scalar i = s.scalar i := rfl

@[simp] theorem State.idle_int (s : State) (i : SReg) :
    s.idle.int i = s.int i := rfl

@[simp] theorem State.idle_vec (s : State) (i : VReg) :
    s.idle.vec i = s.vec i := rfl

@[simp] theorem State.idle_size (s : State) (i : VReg) :
    s.idle.size i = s.size i := rfl

@[simp] theorem State.idle_status (s : State) : s.idle.status = s.status := rfl

/-! ### `State.applyReset` (70_reset_and_hazards.md R270) -/


@[simp] theorem State.applyReset_params (s : State) : s.applyReset.params = s.params := rfl

@[simp] theorem State.applyReset_scalars (s : State) : s.applyReset.scalars = State.reset.scalars := rfl

@[simp] theorem State.applyReset_vectors (s : State) : s.applyReset.vectors = State.reset.vectors := rfl

@[simp] theorem State.applyReset_indices (s : State) : s.applyReset.indices = State.reset.indices := rfl

@[simp] theorem State.applyReset_err (s : State) : s.applyReset.err = State.reset.err := rfl

@[simp] theorem State.applyReset_nr (s : State) : s.applyReset.nr = State.reset.nr := rfl

@[simp] theorem State.applyReset_resp (s : State) : s.applyReset.resp = State.reset.resp := rfl

@[simp] theorem State.applyReset_host (s : State) : s.applyReset.host = s.host := rfl

@[simp] theorem State.applyReset_entropy (s : State) : s.applyReset.entropy = s.entropy := rfl

@[simp] theorem State.applyReset_padding (s : State) : s.applyReset.padding = s.padding := rfl

/-! ### Reading a register after a write -/

theorem State.scalar_setScalar (s : State) (r i : SReg) (v : Scalar) :
    (s.setScalar r v).scalar i = if i = r then v else s.scalar i := by
  by_cases h : i = r
  · subst h; simp [State.scalar, State.setScalar]
  · have hne : r.toNat ≠ i.toNat := fun e => h (BitVec.eq_of_toNat_eq e.symm)
    simp [State.scalar, State.setScalar, Vector.getElem_set_ne, hne, h]

@[simp] theorem State.scalar_setScalar_self (s : State) (r : SReg) (v : Scalar) :
    (s.setScalar r v).scalar r = v := by simp [State.scalar_setScalar]

@[simp] theorem State.scalar_setScalar_ne (s : State) (r i : SReg) (v : Scalar) (h : i ≠ r) :
    (s.setScalar r v).scalar i = s.scalar i := by simp [State.scalar_setScalar, h]

@[simp] theorem State.setScalar_setScalar_self (s : State) (r : SReg) (v w : Scalar) :
    (s.setScalar r v).setScalar r w = s.setScalar r w := by
  simp [State.setScalar, Vector.set_set]

theorem State.setScalar_comm (s : State) {r i : SReg} (v w : Scalar) (h : r ≠ i) :
    (s.setScalar r v).setScalar i w = (s.setScalar i w).setScalar r v := by
  have hne : r.toNat ≠ i.toNat := fun e => h (BitVec.eq_of_toNat_eq e)
  simp only [State.setScalar]
  rw [Vector.set_comm _ _ hne]

@[simp] theorem State.setVec_setVec_self (s : State) (r : VReg) (v w : BitArray) :
    (s.setVec r v).setVec r w = s.setVec r w := by
  simp [State.setVec, Vector.set_set]

theorem State.vec_setVec (s : State) (r i : VReg) (v : BitArray) :
    (s.setVec r v).vec i = if i = r then v else s.vec i := by
  by_cases h : i = r
  · subst h; simp [State.vec, State.setVec]
  · have hne : r.toNat ≠ i.toNat := fun e => h (BitVec.eq_of_toNat_eq e.symm)
    simp [State.vec, State.setVec, Vector.getElem_set_ne, hne, h]

@[simp] theorem State.vec_setVec_self (s : State) (r : VReg) (v : BitArray) :
    (s.setVec r v).vec r = v := by simp [State.vec_setVec]

@[simp] theorem State.vec_setVec_ne (s : State) (r i : VReg) (v : BitArray) (h : i ≠ r) :
    (s.setVec r v).vec i = s.vec i := by simp [State.vec_setVec, h]

/-- An integer in the range of a scalar reads back as itself (00_scope.md R9, R10). -/
theorem State.int_setInt_self (s : State) (r : SReg) (v : Int) (lo : -2 ^ 31 ≤ v)
    (hi : v < 2 ^ 31) : (s.setInt r v).int r = v := by
  simp only [State.int, State.setInt, State.scalar_setScalar_self, BitVec.toInt_ofInt]
  exact Int.bmod_eq_of_le (by omega) (by omega)

theorem State.int_setInt_ne (s : State) (r i : SReg) (v : Int) (h : i ≠ r) :
    (s.setInt r v).int i = s.int i := by simp [State.int, State.setInt, h]

end Sys2Proof.Machine
end

