-- ==== Sys2Proof/Laws/Ops.lean ====
section
/-! SUPPORT. What each shared operation and each shared operand check can do. -/

namespace Sys2Proof.Machine

/-! ### Failing and succeeding (60_exceptions.md R243) -/

theorem raise_eq (e : ErrCode) (s : State) : raise e s = .next (failed e s) := rfl

theorem succeed_eq (t : State) : succeed t = .next (done t) := rfl

theorem raise_next {e : ErrCode} {s t : State} (h : raise e s = .next t) : t = failed e s := by
  rw [raise_eq] at h; injection h with h; exact h.symm

theorem succeed_next {s t : State} (h : succeed s = .next t) : t = done s := by
  rw [succeed_eq] at h; injection h with h; exact h.symm

@[simp] theorem failed_scalars (e : ErrCode) (s : State) : (failed e s).scalars = s.scalars := rfl

@[simp] theorem failed_vectors (e : ErrCode) (s : State) : (failed e s).vectors = s.vectors := rfl

@[simp] theorem failed_scalar (e : ErrCode) (s : State) (r : SReg) :
    (failed e s).scalar r = s.scalar r := rfl

@[simp] theorem failed_int (e : ErrCode) (s : State) (r : SReg) : (failed e s).int r = s.int r := rfl

@[simp] theorem failed_vec (e : ErrCode) (s : State) (r : VReg) : (failed e s).vec r = s.vec r := rfl

@[simp] theorem failed_size (e : ErrCode) (s : State) (r : VReg) :
    (failed e s).size r = s.size r := rfl

@[simp] theorem failed_indices (e : ErrCode) (s : State) : (failed e s).indices = s.indices := rfl

@[simp] theorem failed_nr (e : ErrCode) (s : State) : (failed e s).nr = s.nr := rfl

@[simp] theorem failed_params (e : ErrCode) (s : State) : (failed e s).params = s.params := rfl

@[simp] theorem failed_host (e : ErrCode) (s : State) : (failed e s).host = s.host := rfl

@[simp] theorem failed_entropy (e : ErrCode) (s : State) : (failed e s).entropy = s.entropy := rfl

@[simp] theorem failed_padding (e : ErrCode) (s : State) : (failed e s).padding = s.padding := rfl

@[simp] theorem failed_resp (e : ErrCode) (s : State) : (failed e s).resp = some e.code := rfl

@[simp] theorem failed_err (e : ErrCode) (s : State) : (failed e s).err = latch s.err e := rfl

@[simp] theorem done_scalars (s : State) : (done s).scalars = s.scalars := rfl

@[simp] theorem done_vectors (s : State) : (done s).vectors = s.vectors := rfl

@[simp] theorem done_done (s : State) : done (done s) = done s := rfl

@[simp] theorem done_scalar (s : State) (r : SReg) : (done s).scalar r = s.scalar r := rfl

@[simp] theorem done_int (s : State) (r : SReg) : (done s).int r = s.int r := rfl

@[simp] theorem done_vec (s : State) (r : VReg) : (done s).vec r = s.vec r := rfl

@[simp] theorem done_size (s : State) (r : VReg) : (done s).size r = s.size r := rfl

@[simp] theorem done_indices (s : State) : (done s).indices = s.indices := rfl

@[simp] theorem done_err (s : State) : (done s).err = s.err := rfl

@[simp] theorem done_nr (s : State) : (done s).nr = s.nr := rfl

@[simp] theorem done_params (s : State) : (done s).params = s.params := rfl

@[simp] theorem done_host (s : State) : (done s).host = s.host := rfl

@[simp] theorem done_entropy (s : State) : (done s).entropy = s.entropy := rfl

@[simp] theorem done_padding (s : State) : (done s).padding = s.padding := rfl

@[simp] theorem done_resp (s : State) : (done s).resp = some 0 := rfl

/-! ### Running a list of instructions (20_memory.md R58) -/

@[simp] theorem execAll_nil (s : State) : execAll [] s = some s := rfl

theorem execAll_cons {i : Instr} {s t : State} (h : exec i s = .next t) (rest : List Instr) :
    execAll (i :: rest) s = execAll rest t := by simp only [execAll, h]

theorem execAll_append (a b : List Instr) (s : State) :
    execAll (a ++ b) s = (execAll a s).bind (execAll b) := by
  induction a generalizing s with
  | nil => rfl
  | cons i a ih =>
    simp only [List.cons_append, execAll]
    cases exec i s <;> simp [ih]

/-! ### Error codes and the latch -/

theorem ErrCode.code_ne_zero (e : ErrCode) : e.code ≠ 0 := by cases e <;> decide

theorem ErrCode.code_le (e : ErrCode) : e.code.toNat ≤ 10 := by cases e <;> decide

/-- The latch holds a code of the table if it held one (60_exceptions.md R240). -/
theorem latch_le {err : BitVec 8} (h : err.toNat ≤ 10) (e : ErrCode) : (latch err e).toNat ≤ 10 := by
  unfold latch; split
  · exact e.code_le
  · exact h

/-! ### The free values -/

/-- `takeFree` answers the next supplied value, or the opaque source's. -/
theorem takeFree_cases (source : Nat → Nat) (f : FreeStream) :
    (∃ x rest, f.supplied = x :: rest ∧
        takeFree source f = (x, { supplied := rest, taken := f.taken + 1 })) ∨
      (f.supplied = [] ∧
        takeFree source f = (source f.taken, { supplied := [], taken := f.taken + 1 })) := by
  rcases f with ⟨_ | ⟨x, rest⟩, n⟩
  · exact .inr ⟨rfl, rfl⟩
  · exact .inl ⟨x, rest, rfl, rfl⟩

theorem takeFree_cons {source : Nat → Nat} {f : FreeStream} {x : Nat} {rest : List Nat}
    (h : f.supplied = x :: rest) :
    takeFree source f = (x, { supplied := rest, taken := f.taken + 1 }) := by
  rw [takeFree, h]

/-- A value already in the range is not changed, so every value of it is possible. -/
theorem fitRange_of_mem {lo hi x : Nat} (h1 : lo ≤ x) (h2 : x ≤ hi) : fitRange lo hi x = x :=
  if_pos ⟨h1, h2⟩

/-- A draw lies in its range (10_state.md R29). -/
theorem fitRange_mem {lo hi : Nat} (h : lo ≤ hi) (x : Nat) :
    lo ≤ fitRange lo hi x ∧ fitRange lo hi x ≤ hi := by
  unfold fitRange
  split
  · assumption
  · have := Nat.mod_lt x (show 0 < hi - lo + 1 by omega)
    omega

theorem draw_mem {lo hi : Nat} (h : lo ≤ hi) (e : FreeStream) :
    lo ≤ (draw lo hi e).1 ∧ (draw lo hi e).1 ≤ hi := fitRange_mem h _

theorem draw_cons {lo hi : Nat} {e : FreeStream} {x : Nat} {rest : List Nat}
    (h : e.supplied = x :: rest) (h1 : lo ≤ x) (h2 : x ≤ hi) :
    draw lo hi e = (x, { supplied := rest, taken := e.taken + 1 }) := by
  simp [draw, takeFree_cons h, fitRange_of_mem h1 h2]

/-! ### Scalars as integers -/

theorem toInt_ofInt_of_range {v : Int} (h1 : -2 ^ 31 ≤ v) (h2 : v < 2 ^ 31) :
    (BitVec.ofInt 32 v).toInt = v := by
  rw [BitVec.toInt_ofInt, Int.bmod_def]; omega

theorem neg_le_int (s : State) (r : SReg) : -2 ^ 31 ≤ s.int r := BitVec.le_toInt _

theorem int_lt (s : State) (r : SReg) : s.int r < 2 ^ 31 := BitVec.toInt_lt

theorem toNat_of_toInt_nonneg {x : Scalar} (h : 0 ≤ x.toInt) : x.toInt = x.toNat := by
  rw [BitVec.toInt_eq_toNat_cond] at h ⊢
  have := x.isLt
  split at h <;> split <;> omega

/-- The value of `STATUS` (10_state.md R26). -/
theorem status_toNat (s : State) : s.status.toNat = s.err.toNat + 256 * s.nr.toNat := by
  have h := s.err.isLt
  have e : s.status = (0#23 ++ BitVec.ofBool s.nr) ++ s.err := rfl
  rw [e, BitVec.toNat_append, ← Nat.shiftLeft_add_eq_or_of_lt h, Nat.shiftLeft_eq]
  cases s.nr <;> simp
  omega

/-! ### Operand checks -/

theorem normIdx_eq_none_iff (i : Int) (size : Nat) :
    normIdx i size = none ↔ (size : Int) ≤ i ∨ (size : Int) < -i := by
  unfold normIdx
  split
  · simp_all
  · split <;> simp_all

/-- A legal index names a bit: the index itself, or counted from the end (41_storage_core.md R124). -/
theorem normIdx_eq_some_iff (i : Int) (size p : Nat) :
    normIdx i size = some p ↔ p < size ∧ (i = p ∨ i < 0 ∧ i + size = p) := by
  unfold normIdx
  split
  · simp; omega
  · split <;> simp <;> omega

theorem plainIdx_eq_none_iff (i : Int) (n : Nat) : plainIdx i n = none ↔ i < 0 ∨ (n : Int) ≤ i := by
  unfold plainIdx
  split <;> simp_all

theorem plainIdx_eq_some_iff (i : Int) (n k : Nat) : plainIdx i n = some k ↔ i = k ∧ k < n := by
  unfold plainIdx
  split <;> simp <;> omega

theorem bitValue_eq_none_iff (v : Int) : bitValue v = none ↔ v ≠ 0 ∧ v ≠ 1 := by
  unfold bitValue
  split
  · simp_all
  · split <;> simp_all

theorem bitValue_eq_some_iff (v : Int) (b : Bool) :
    bitValue v = some b ↔ (v = 0 ∨ v = 1) ∧ b = (v == 1) := by
  unfold bitValue
  split
  · subst v; cases b <;> decide
  · split
    · subst v; cases b <;> decide
    · simp_all

theorem sliceBounds_iff (i j : Int) (size : Nat) :
    sliceBounds i j size = true ↔ 0 ≤ i ∧ i ≤ j ∧ j ≤ size := by simp [sliceBounds]

theorem indicesInRange_iff (l : List Scalar) (size : Nat) :
    indicesInRange l size = true ↔ ∀ i ∈ l, 0 ≤ i.toInt ∧ i.toInt < size := by
  simp [indicesInRange]

/-- `modcheck` passes exactly on these (46_galois_field.md R209). -/
theorem modCheck_eq_none_iff (m : BitArray) (n : Int) :
    modCheck m n = none ↔ 1 ≤ n ∧ (m.length : Int) = n + 1 ∧ intOf m ≠ 0 := by
  unfold modCheck
  split
  · simp; omega
  · split
    · simp_all
    · split <;> simp_all

theorem modCheck_cases (m : BitArray) (n : Int) :
    (n < 1 ∧ modCheck m n = some .value) ∨
      (1 ≤ n ∧ (m.length : Int) ≠ n + 1 ∧ modCheck m n = some .size) ∨
      (1 ≤ n ∧ (m.length : Int) = n + 1 ∧ intOf m = 0 ∧ modCheck m n = some .divZero) ∨
      (1 ≤ n ∧ (m.length : Int) = n + 1 ∧ intOf m ≠ 0 ∧ modCheck m n = none) := by
  by_cases h1 : n < 1
  · exact .inl ⟨h1, if_pos h1⟩
  · have h1' : 1 ≤ n := by omega
    by_cases h2 : (m.length : Int) = n + 1
    · by_cases h3 : intOf m = 0
      · exact .inr (.inr (.inl ⟨h1', h2, h3, by simp [modCheck, h1, h2, h3]⟩))
      · exact .inr (.inr (.inr ⟨h1', h2, h3, by simp [modCheck, h1, h2, h3]⟩))
    · exact .inr (.inl ⟨h1', h2, by simp [modCheck, h1, h2]⟩)

/-! ### The rules several instructions share -/

theorem logical_cases (op : Bool → Bool → Bool) (vd va vb : VReg) (s : State) :
    (s.size va ≠ s.size vb ∧ logical op vd va vb s = .next (failed .size s)) ∨
      (s.size va = s.size vb ∧ logical op vd va vb s =
        .next (done (s.setVec vd (List.zipWith op (s.vec va) (s.vec vb))))) := by
  by_cases h : s.size va = s.size vb
  · exact .inr ⟨h, by simp [logical, h, succeed_eq]⟩
  · exact .inl ⟨h, by simp [logical, h, raise_eq]⟩

theorem compareValues_eq (rel : Nat → Nat → Bool) (sd : SReg) (va vb : VReg) (s : State) :
    compareValues rel sd va vb s =
      .next (done (s.setInt sd (if rel (intOf (s.vec va)) (intOf (s.vec vb)) then 1 else 0))) := rfl

theorem shiftInPlace_cases (op : BitArray → Nat → BitArray) (vd : VReg) (sa : SReg) (s : State) :
    (s.int sa < 0 ∧ shiftInPlace op vd sa s = .next (failed .value s)) ∨
      (0 ≤ s.int sa ∧ shiftInPlace op vd sa s =
        .next (done (s.setVec vd (op (s.vec vd) (s.int sa).toNat)))) := by
  by_cases h : s.int sa < 0
  · exact .inl ⟨h, by simp [shiftInPlace, h, raise_eq]⟩
  · exact .inr ⟨by omega, by simp [shiftInPlace, h, succeed_eq]⟩

theorem countBits_eq (sd : SReg) (va : VReg) (s : State) :
    countBits sd va s = .next (done (s.setInt sd (popcount (s.vec va)))) := rfl

theorem isPowerOfTwo_eq (sd : SReg) (va : VReg) (s : State) :
    isPowerOfTwo sd va s =
      .next (done (s.setInt sd (if popcount (s.vec va) = 1 then 1 else 0))) := by
  simp [isPowerOfTwo, succeed_eq, truth]

theorem jaccard_cases (f : Nat → Nat → Int) (sd se : SReg) (va vb : VReg) (s : State) :
    (sd = se ∧ jaccard f sd se va vb s = .next (failed .illegal s)) ∨
      (sd ≠ se ∧ s.size va ≠ s.size vb ∧ jaccard f sd se va vb s = .next (failed .size s)) ∨
      (sd ≠ se ∧ s.size va = s.size vb ∧ (jaccardCounts (s.vec va) (s.vec vb)).2 = 0 ∧
        jaccard f sd se va vb s = .next (failed .undef s)) ∨
      (sd ≠ se ∧ s.size va = s.size vb ∧ (jaccardCounts (s.vec va) (s.vec vb)).2 ≠ 0 ∧
        jaccard f sd se va vb s = .next (done
          ((s.setInt sd (f (jaccardCounts (s.vec va) (s.vec vb)).1
            (jaccardCounts (s.vec va) (s.vec vb)).2)).setInt se
              (jaccardCounts (s.vec va) (s.vec vb)).2))) := by
  by_cases h1 : sd = se
  · exact .inl ⟨h1, by simp [jaccard, h1, raise_eq]⟩
  · by_cases h2 : s.size va = s.size vb
    · by_cases h3 : (jaccardCounts (s.vec va) (s.vec vb)).2 = 0
      · exact .inr (.inr (.inl ⟨h1, h2, h3, by simp [jaccard, h1, h2, h3, raise_eq]⟩))
      · exact .inr (.inr (.inr ⟨h1, h2, h3, by simp [jaccard, h1, h2, h3, succeed_eq]⟩))
    · exact .inr (.inl ⟨h1, h2, by simp [jaccard, h1, h2, raise_eq]⟩)

/-! ### Counting set bits -/

/-- `popcount` counts the set positions (00_scope.md R11). -/
theorem popcount_eq_countBelow (v : BitArray) :
    popcount v = countBelow v.length (fun k => v.getD k false) := by
  induction v with
  | nil => rfl
  | cons b v ih =>
    rw [countBelow, List.length_cons, List.range_succ_eq_map, List.filter_cons, popcount,
      List.count_cons]
    rw [popcount, countBelow] at ih
    rw [List.filter_map, ih]
    cases b <;> simp [Function.comp_def]

theorem getD_zipWith {a b : BitArray} (f : Bool → Bool → Bool) {k : Nat} (ha : k < a.length)
    (hb : k < b.length) :
    (List.zipWith f a b).getD k false = f (a.getD k false) (b.getD k false) := by
  simp [List.getD_eq_getElem?_getD, ha, hb]

theorem popcount_zipWith {a b : BitArray} (f : Bool → Bool → Bool) (h : a.length = b.length) :
    popcount (List.zipWith f a b) =
      countBelow a.length (fun k => f (a.getD k false) (b.getD k false)) := by
  rw [popcount_eq_countBelow]
  simp only [countBelow, List.length_zipWith, ← h, Nat.min_self]
  congr 1
  apply List.filter_congr
  intro k hk
  rw [List.mem_range] at hk
  exact getD_zipWith f hk (h ▸ hk)

/-! ### Random candidates -/

@[simp] theorem length_drawBits (k : Nat) (e : FreeStream) : (drawBits k e).1.length = k := by
  induction k generalizing e with
  | zero => rfl
  | succ k ih => simp [drawBits, ih]

theorem length_primeCandidate {w : Nat} (h : 1 ≤ w) (e : FreeStream) :
    (primeCandidate w e).1.length = w := by
  unfold primeCandidate
  split
  · simp_all
  · simp; omega

/-- With the bits supplied, they are the ones drawn, in order (46_galois_field.md R208). -/
theorem drawBits_supplied (inner : BitArray) (rest : List Nat) (e : FreeStream)
    (h : e.supplied = inner.map Bool.toNat ++ rest) :
    drawBits inner.length e = (inner, { supplied := rest, taken := e.taken + inner.length }) := by
  induction inner generalizing e with
  | nil => cases e; simp_all [drawBits]
  | cons b inner ih =>
    have hb : b.toNat ≤ 1 := by cases b <;> decide
    rw [List.length_cons, drawBits, draw_cons (by simpa using h) (Nat.zero_le _) hb]
    simp only
    rw [ih _ rfl]
    cases b <;> simp [Nat.add_comm, Nat.add_left_comm]

end Sys2Proof.Machine
end

