-- ==== Sys2Proof/Laws/PerInstr.lean ====
section
/-! SUPPORT. Statements for each instruction, one lemma per constructor. -/

namespace Sys2Proof.Laws

/-- The encoder's word has a row of the opcode map and passes that row's mask test (30_encoding.md
R82). -/
def EncodeMatchesRow.Statement (i : Instr) : Prop :=
  ∃ r, rowOf (fieldOp (encode i)) = some r ∧ encode i &&& r.mask = r.matchWord

theorem EncodeMatchesRow.nop : EncodeMatchesRow.Statement (.nop) := by
  exact formatR_matches 15 15 15 15 15 15 rfl rfl (by simp)

theorem EncodeMatchesRow.clrerr : EncodeMatchesRow.Statement (.clrerr) := by
  exact formatR_matches 15 15 15 15 15 15 rfl rfl (by simp)

theorem EncodeMatchesRow.rdst (sd : SReg) : EncodeMatchesRow.Statement (.rdst sd) := by
  exact formatR_matches 0 15 15 15 15 15 rfl rfl (by simp)

theorem EncodeMatchesRow.sli (sd : SReg) (imm16 : BitVec 16) : EncodeMatchesRow.Statement (.sli sd imm16) := by
  rw [EncodeMatchesRow.Statement, encode, formatI_eq]
  exact formatR_matches 0 15 0 0 0 0 rfl rfl (by simp)

theorem EncodeMatchesRow.slih (sd : SReg) (imm16 : BitVec 16) : EncodeMatchesRow.Statement (.slih sd imm16) := by
  rw [EncodeMatchesRow.Statement, encode, formatI_eq]
  exact formatR_matches 0 15 0 0 0 0 rfl rfl (by simp)

theorem EncodeMatchesRow.saddi (sd : SReg) (imm16 : BitVec 16) : EncodeMatchesRow.Statement (.saddi sd imm16) := by
  rw [EncodeMatchesRow.Statement, encode, formatI_eq]
  exact formatR_matches 0 15 0 0 0 0 rfl rfl (by simp)

theorem EncodeMatchesRow.ixclr : EncodeMatchesRow.Statement (.ixclr) := by
  exact formatR_matches 15 15 15 15 15 15 rfl rfl (by simp)

theorem EncodeMatchesRow.ixpush (sa : SReg) : EncodeMatchesRow.Statement (.ixpush sa) := by
  exact formatR_matches 15 0 15 15 15 15 rfl rfl (by simp)

theorem EncodeMatchesRow.ixlen (sd : SReg) : EncodeMatchesRow.Statement (.ixlen sd) := by
  exact formatR_matches 0 15 15 15 15 15 rfl rfl (by simp)

theorem EncodeMatchesRow.ixget (sd : SReg) (sa : SReg) : EncodeMatchesRow.Statement (.ixget sd sa) := by
  exact formatR_matches 0 0 15 15 15 15 rfl rfl (by simp)

theorem EncodeMatchesRow.vzero (vd : VReg) (sa : SReg) : EncodeMatchesRow.Statement (.vzero vd sa) := by
  exact formatR_matches 15 0 15 0 15 15 rfl rfl (by simp)

theorem EncodeMatchesRow.vint (vd : VReg) (sa : SReg) : EncodeMatchesRow.Statement (.vint vd sa) := by
  exact formatR_matches 15 0 15 0 15 15 rfl rfl (by simp)

theorem EncodeMatchesRow.vints (vd : VReg) (sa : SReg) (sb : SReg) : EncodeMatchesRow.Statement (.vints vd sa sb) := by
  exact formatR_matches 15 0 0 0 15 15 rfl rfl (by simp)

theorem EncodeMatchesRow.vtoint (sd : SReg) (va : VReg) : EncodeMatchesRow.Statement (.vtoint sd va) := by
  exact formatR_matches 0 15 15 15 0 15 rfl rfl (by simp)

theorem EncodeMatchesRow.vsize (sd : SReg) (va : VReg) : EncodeMatchesRow.Statement (.vsize sd va) := by
  exact formatR_matches 0 15 15 15 0 15 rfl rfl (by simp)

theorem EncodeMatchesRow.getb (sd : SReg) (va : VReg) (sa : SReg) : EncodeMatchesRow.Statement (.getb sd va sa) := by
  exact formatR_matches 0 0 15 15 0 15 rfl rfl (by simp)

theorem EncodeMatchesRow.setb (vd : VReg) (sa : SReg) (sb : SReg) : EncodeMatchesRow.Statement (.setb vd sa sb) := by
  exact formatR_matches 15 0 0 0 15 15 rfl rfl (by simp)

theorem EncodeMatchesRow.vfill (vd : VReg) (sa : SReg) : EncodeMatchesRow.Statement (.vfill vd sa) := by
  exact formatR_matches 15 0 15 0 15 15 rfl rfl (by simp)

theorem EncodeMatchesRow.vslice (vd : VReg) (va : VReg) (sa : SReg) (sb : SReg) : EncodeMatchesRow.Statement (.vslice vd va sa sb) := by
  exact formatR_matches 15 0 0 0 0 15 rfl rfl (by simp)

theorem EncodeMatchesRow.vslset (vd : VReg) (va : VReg) (sa : SReg) (sb : SReg) : EncodeMatchesRow.Statement (.vslset vd va sa sb) := by
  exact formatR_matches 15 0 0 0 0 15 rfl rfl (by simp)

theorem EncodeMatchesRow.getw (sd : SReg) (va : VReg) (sa : SReg) : EncodeMatchesRow.Statement (.getw sd va sa) := by
  exact formatR_matches 0 0 15 15 0 15 rfl rfl (by simp)

theorem EncodeMatchesRow.setw (vd : VReg) (sa : SReg) (sb : SReg) : EncodeMatchesRow.Statement (.setw vd sa sb) := by
  exact formatR_matches 15 0 0 0 15 15 rfl rfl (by simp)

theorem EncodeMatchesRow.vmov (vd : VReg) (va : VReg) : EncodeMatchesRow.Statement (.vmov vd va) := by
  exact formatR_matches 15 15 15 0 0 15 rfl rfl (by simp)

theorem EncodeMatchesRow.vand (vd : VReg) (va : VReg) (vb : VReg) : EncodeMatchesRow.Statement (.vand vd va vb) := by
  exact formatR_matches 15 15 15 0 0 0 rfl rfl (by simp)

theorem EncodeMatchesRow.vor (vd : VReg) (va : VReg) (vb : VReg) : EncodeMatchesRow.Statement (.vor vd va vb) := by
  exact formatR_matches 15 15 15 0 0 0 rfl rfl (by simp)

theorem EncodeMatchesRow.vxor (vd : VReg) (va : VReg) (vb : VReg) : EncodeMatchesRow.Statement (.vxor vd va vb) := by
  exact formatR_matches 15 15 15 0 0 0 rfl rfl (by simp)

theorem EncodeMatchesRow.vnot (vd : VReg) (va : VReg) : EncodeMatchesRow.Statement (.vnot vd va) := by
  exact formatR_matches 15 15 15 0 0 15 rfl rfl (by simp)

theorem EncodeMatchesRow.vcat (vd : VReg) (va : VReg) (vb : VReg) : EncodeMatchesRow.Statement (.vcat vd va vb) := by
  exact formatR_matches 15 15 15 0 0 0 rfl rfl (by simp)

theorem EncodeMatchesRow.vceq (sd : SReg) (va : VReg) (vb : VReg) : EncodeMatchesRow.Statement (.vceq sd va vb) := by
  exact formatR_matches 0 15 15 15 0 0 rfl rfl (by simp)

theorem EncodeMatchesRow.vcne (sd : SReg) (va : VReg) (vb : VReg) : EncodeMatchesRow.Statement (.vcne sd va vb) := by
  exact formatR_matches 0 15 15 15 0 0 rfl rfl (by simp)

theorem EncodeMatchesRow.vclt (sd : SReg) (va : VReg) (vb : VReg) : EncodeMatchesRow.Statement (.vclt sd va vb) := by
  exact formatR_matches 0 15 15 15 0 0 rfl rfl (by simp)

theorem EncodeMatchesRow.vcle (sd : SReg) (va : VReg) (vb : VReg) : EncodeMatchesRow.Statement (.vcle sd va vb) := by
  exact formatR_matches 0 15 15 15 0 0 rfl rfl (by simp)

theorem EncodeMatchesRow.vcgt (sd : SReg) (va : VReg) (vb : VReg) : EncodeMatchesRow.Statement (.vcgt sd va vb) := by
  exact formatR_matches 0 15 15 15 0 0 rfl rfl (by simp)

theorem EncodeMatchesRow.vcge (sd : SReg) (va : VReg) (vb : VReg) : EncodeMatchesRow.Statement (.vcge sd va vb) := by
  exact formatR_matches 0 15 15 15 0 0 rfl rfl (by simp)

theorem EncodeMatchesRow.vcont (sd : SReg) (va : VReg) (vb : VReg) : EncodeMatchesRow.Statement (.vcont sd va vb) := by
  exact formatR_matches 0 15 15 15 0 0 rfl rfl (by simp)

theorem EncodeMatchesRow.vrol (vd : VReg) (sa : SReg) : EncodeMatchesRow.Statement (.vrol vd sa) := by
  exact formatR_matches 15 0 15 0 15 15 rfl rfl (by simp)

theorem EncodeMatchesRow.vror (vd : VReg) (sa : SReg) : EncodeMatchesRow.Statement (.vror vd sa) := by
  exact formatR_matches 15 0 15 0 15 15 rfl rfl (by simp)

theorem EncodeMatchesRow.vshl (vd : VReg) (sa : SReg) : EncodeMatchesRow.Statement (.vshl vd sa) := by
  exact formatR_matches 15 0 15 0 15 15 rfl rfl (by simp)

theorem EncodeMatchesRow.vshr (vd : VReg) (sa : SReg) : EncodeMatchesRow.Statement (.vshr vd sa) := by
  exact formatR_matches 15 0 15 0 15 15 rfl rfl (by simp)

theorem EncodeMatchesRow.vperm (vd : VReg) (va : VReg) : EncodeMatchesRow.Statement (.vperm vd va) := by
  exact formatR_matches 15 15 15 0 0 15 rfl rfl (by simp)

theorem EncodeMatchesRow.vunperm (vd : VReg) (va : VReg) : EncodeMatchesRow.Statement (.vunperm vd va) := by
  exact formatR_matches 15 15 15 0 0 15 rfl rfl (by simp)

theorem EncodeMatchesRow.vhalf0 (vd : VReg) (va : VReg) : EncodeMatchesRow.Statement (.vhalf0 vd va) := by
  exact formatR_matches 15 15 15 0 0 15 rfl rfl (by simp)

theorem EncodeMatchesRow.vhalf1 (vd : VReg) (va : VReg) : EncodeMatchesRow.Statement (.vhalf1 vd va) := by
  exact formatR_matches 15 15 15 0 0 15 rfl rfl (by simp)

theorem EncodeMatchesRow.popc (sd : SReg) (va : VReg) : EncodeMatchesRow.Statement (.popc sd va) := by
  exact formatR_matches 0 15 15 15 0 15 rfl rfl (by simp)

theorem EncodeMatchesRow.popcs (sd : SReg) (va : VReg) : EncodeMatchesRow.Statement (.popcs sd va) := by
  exact formatR_matches 0 15 15 15 0 15 rfl rfl (by simp)

theorem EncodeMatchesRow.nsb (sd : SReg) (va : VReg) (sa : SReg) : EncodeMatchesRow.Statement (.nsb sd va sa) := by
  exact formatR_matches 0 0 15 15 0 15 rfl rfl (by simp)

theorem EncodeMatchesRow.rank (sd : SReg) (va : VReg) (sa : SReg) : EncodeMatchesRow.Statement (.rank sd va sa) := by
  exact formatR_matches 0 0 15 15 0 15 rfl rfl (by simp)

theorem EncodeMatchesRow.isp2 (sd : SReg) (va : VReg) : EncodeMatchesRow.Statement (.isp2 sd va) := by
  exact formatR_matches 0 15 15 15 0 15 rfl rfl (by simp)

theorem EncodeMatchesRow.isp2s (sd : SReg) (va : VReg) : EncodeMatchesRow.Statement (.isp2s sd va) := by
  exact formatR_matches 0 15 15 15 0 15 rfl rfl (by simp)

theorem EncodeMatchesRow.vrev (vd : VReg) (va : VReg) : EncodeMatchesRow.Statement (.vrev vd va) := by
  exact formatR_matches 15 15 15 0 0 15 rfl rfl (by simp)

theorem EncodeMatchesRow.vruns (sd : SReg) (va : VReg) : EncodeMatchesRow.Statement (.vruns sd va) := by
  exact formatR_matches 0 15 15 15 0 15 rfl rfl (by simp)

theorem EncodeMatchesRow.hamm (sd : SReg) (va : VReg) (vb : VReg) : EncodeMatchesRow.Statement (.hamm sd va vb) := by
  exact formatR_matches 0 15 15 15 0 0 rfl rfl (by simp)

theorem EncodeMatchesRow.jsim (sd : SReg) (se : SReg) (va : VReg) (vb : VReg) : EncodeMatchesRow.Statement (.jsim sd se va vb) := by
  exact formatR_matches 0 0 15 15 0 0 rfl rfl (by simp)

theorem EncodeMatchesRow.jdist (sd : SReg) (se : SReg) (va : VReg) (vb : VReg) : EncodeMatchesRow.Statement (.jdist sd se va vb) := by
  exact formatR_matches 0 0 15 15 0 0 rfl rfl (by simp)

theorem EncodeMatchesRow.gfmul (vd : VReg) (va : VReg) (vb : VReg) : EncodeMatchesRow.Statement (.gfmul vd va vb) := by
  exact formatR_matches 15 15 15 0 0 0 rfl rfl (by simp)

theorem EncodeMatchesRow.gfquo (vd : VReg) (va : VReg) (vb : VReg) (sa : SReg) : EncodeMatchesRow.Statement (.gfquo vd va vb sa) := by
  exact formatR_matches 15 0 15 0 0 0 rfl rfl (by simp)

theorem EncodeMatchesRow.gfrem (vd : VReg) (va : VReg) (vb : VReg) (sa : SReg) : EncodeMatchesRow.Statement (.gfrem vd va vb sa) := by
  exact formatR_matches 15 0 15 0 0 0 rfl rfl (by simp)

theorem EncodeMatchesRow.gfmulm (vd : VReg) (va : VReg) (vb : VReg) (vc : VReg) (sa : SReg) : EncodeMatchesRow.Statement (.gfmulm vd va vb vc sa) := by
  exact formatR_matches 15 0 0 0 0 0 rfl rfl (by simp)

theorem EncodeMatchesRow.gfmi (vd : VReg) (va : VReg) (vb : VReg) (sa : SReg) : EncodeMatchesRow.Statement (.gfmi vd va vb sa) := by
  exact formatR_matches 15 0 15 0 0 0 rfl rfl (by simp)

theorem EncodeMatchesRow.modinv (vd : VReg) (va : VReg) (vb : VReg) : EncodeMatchesRow.Statement (.modinv vd va vb) := by
  exact formatR_matches 15 15 15 0 0 0 rfl rfl (by simp)

theorem EncodeMatchesRow.vgcd (vd : VReg) (va : VReg) (vb : VReg) : EncodeMatchesRow.Statement (.vgcd vd va vb) := by
  exact formatR_matches 15 15 15 0 0 0 rfl rfl (by simp)

theorem EncodeMatchesRow.prime (sd : SReg) (va : VReg) (sa : SReg) : EncodeMatchesRow.Statement (.prime sd va sa) := by
  exact formatR_matches 0 0 15 15 0 15 rfl rfl (by simp)

theorem EncodeMatchesRow.randp (vd : VReg) (sa : SReg) : EncodeMatchesRow.Statement (.randp vd sa) := by
  exact formatR_matches 15 0 15 0 15 15 rfl rfl (by simp)

theorem EncodeMatchesRow.getbyte (sd : SReg) (va : VReg) (sa : SReg) : EncodeMatchesRow.Statement (.getbyte sd va sa) := by
  exact formatR_matches 0 0 15 15 0 15 rfl rfl (by simp)

theorem EncodeMatchesRow.appbyte (vd : VReg) (sa : SReg) : EncodeMatchesRow.Statement (.appbyte vd sa) := by
  exact formatR_matches 15 0 15 0 15 15 rfl rfl (by simp)

end Sys2Proof.Laws
end

