-- ==== Sys2Proof/Laws/Polynomial.lean ====
section
/-! SUPPORT. The polynomials held as natural numbers are the polynomials over the field of two elements:
what the product, the division and the Euclidean loop of Machine/Polynomial.lean compute. -/

namespace Sys2Proof.Machine

open Polynomial

/-- The polynomial over GF(2) whose coefficients are the binary digits of a number (00_scope.md R8). -/
noncomputable def natPoly (n : Nat) : (ZMod 2)[X] :=
  ∑ k ∈ Finset.range n, if n.testBit k then X ^ k else 0

theorem coeff_natPoly (n k : Nat) : (natPoly n).coeff k = if n.testBit k then 1 else 0 := by
  rw [natPoly, finsetSum_coeff]
  by_cases h : n.testBit k = true
  · have hk : k ∈ Finset.range n :=
      Finset.mem_range.2 (lt_of_lt_of_le Nat.lt_two_pow_self (Nat.ge_two_pow_of_testBit h))
    rw [Finset.sum_eq_single_of_mem k hk]
    · simp [h]
    · intro j _ hj
      split <;> simp [coeff_X_pow, Ne.symm hj]
  · rw [Finset.sum_eq_zero]
    · simp [h]
    · intro j _
      by_cases hj : j = k
      · subst hj; simp [h]
      · split <;> simp [coeff_X_pow, Ne.symm hj]

theorem natPoly_injective {a b : Nat} (h : natPoly a = natPoly b) : a = b := by
  apply Nat.eq_of_testBit_eq
  intro k
  have e := congrArg (fun p => p.coeff k) h
  simp only [coeff_natPoly] at e
  cases ha : a.testBit k <;> cases hb : b.testBit k <;> simp_all

@[simp] theorem natPoly_zero : natPoly 0 = 0 := by simp [natPoly]

@[simp] theorem natPoly_one : natPoly 1 = 1 := by simp [natPoly]

theorem natPoly_eq_zero_iff (n : Nat) : natPoly n = 0 ↔ n = 0 :=
  ⟨fun h => natPoly_injective (h.trans natPoly_zero.symm), fun h => h ▸ natPoly_zero⟩

theorem add_self_zmod_two (x : ZMod 2) : x + x = 0 := by revert x; decide

theorem add_self_poly (p : (ZMod 2)[X]) : p + p = 0 := by
  ext k; simp [add_self_zmod_two]

/-- XOR is addition. -/
theorem natPoly_xor (a b : Nat) : natPoly (a ^^^ b) = natPoly a + natPoly b := by
  ext k
  rw [coeff_add, coeff_natPoly, coeff_natPoly, coeff_natPoly, Nat.testBit_xor]
  cases a.testBit k <;> cases b.testBit k <;> simp [add_self_zmod_two]

/-- A left shift is multiplication by a power of `x`. -/
theorem natPoly_shiftLeft (a n : Nat) : natPoly (a <<< n) = natPoly a * X ^ n := by
  ext k
  rw [coeff_mul_X_pow', coeff_natPoly, Nat.testBit_shiftLeft]
  by_cases h : n ≤ k <;> simp [h, coeff_natPoly]

theorem natPoly_one_shiftLeft (n : Nat) : natPoly (1 <<< n) = X ^ n := by
  rw [natPoly_shiftLeft, natPoly_one, one_mul]

/-- `poly(v)` depends on the value of `v` alone. -/
theorem polyOf_eq (v : BitArray) : polyOf v = natPoly (intOf v) := by
  ext k
  rw [polyOf, finsetSum_coeff, coeff_natPoly, testBit_intOf]
  by_cases hk : k < v.length
  · rw [Finset.sum_eq_single_of_mem (v.length - 1 - k) (by simp; omega)]
    · have : v.length - 1 - (v.length - 1 - k) = k := by omega
      rw [this]
      simp only [hk, decide_true, Bool.true_and]
      split <;> simp
    · intro j hj hne
      rw [Finset.mem_range] at hj
      have : k ≠ v.length - 1 - j := by omega
      split <;> simp [coeff_X_pow, this]
  · rw [Finset.sum_eq_zero]
    · simp [hk]
    · intro j hj
      rw [Finset.mem_range] at hj
      have : k ≠ v.length - 1 - j := by omega
      split <;> simp [coeff_X_pow, this]

/-! ### Degrees -/

theorem natDegree_natPoly (n : Nat) : (natPoly n).natDegree = degree n := by
  rcases Nat.eq_zero_or_pos n with h | h
  · subst h; simp [degree]
  · apply natDegree_eq_of_le_of_coeff_ne_zero
    · rw [natDegree_le_iff_coeff_eq_zero]
      intro k hk
      rw [coeff_natPoly, if_neg]
      rw [Nat.testBit_lt_two_pow (lt_of_lt_of_le Nat.lt_log2_self (Nat.pow_le_pow_right (by omega) hk))]
      simp
    · rw [coeff_natPoly, degree, if_pos (Nat.testBit_log2 (by omega))]
      simp

theorem degree_natPoly {n : Nat} (h : n ≠ 0) : (natPoly n).degree = (degree n : Nat) := by
  rw [degree_eq_natDegree (by rwa [Ne, natPoly_eq_zero_iff]), natDegree_natPoly]

/-- A polynomial of lower degree is a number below the power of two. -/
theorem lt_two_pow_iff_degree_lt (n k : Nat) : n < 2 ^ k ↔ (natPoly n).degree < k := by
  rcases Nat.eq_zero_or_pos n with h | h
  · subst h; simp
  · rw [degree_natPoly (by omega), Nat.cast_lt, degree, Nat.log2_lt (by omega)]

theorem natPoly_lt_of_degree_lt {n m : Nat} (h : (natPoly n).degree < (natPoly m).degree) :
    n < 2 ^ degree m := by
  rw [lt_two_pow_iff_degree_lt]
  refine lt_of_lt_of_le h ?_
  rw [← natDegree_natPoly]; exact degree_le_natDegree

/-! ### The product (46_galois_field.md R200) -/

theorem natPoly_foldl_mulBits (a : BitArray) (b p : Nat) :
    natPoly (a.foldl (fun p c => (p <<< 1) ^^^ (if c then b else 0)) p) =
      natPoly p * X ^ a.length + natPoly (intOf a) * natPoly b := by
  induction a generalizing p with
  | nil => simp
  | cons c a ih =>
    have hc : intOf (c :: a) = ((if c then 1 else 0) <<< a.length) ^^^ intOf a := by
      apply Nat.eq_of_testBit_eq
      intro k
      rw [intOf_cons, Nat.mul_comm, Nat.testBit_two_pow_mul_add _ (intOf_lt a), Nat.testBit_xor,
        Nat.testBit_shiftLeft]
      by_cases hk : k < a.length
      · simp [hk, Nat.not_le.2 hk]
      · rw [if_neg hk, Nat.testBit_lt_two_pow
          (lt_of_lt_of_le (intOf_lt a) (Nat.pow_le_pow_right (by omega) (Nat.le_of_not_lt hk)))]
        cases c <;> simp [Nat.le_of_not_lt hk]
    rw [List.foldl_cons, ih, natPoly_xor, natPoly_shiftLeft, hc, natPoly_xor, natPoly_shiftLeft,
      List.length_cons]
    cases c <;> simp <;> ring

theorem natPoly_mulBits (a : BitArray) (b : Nat) :
    natPoly (mulBits a b) = natPoly (intOf a) * natPoly b := by
  rw [mulBits, natPoly_foldl_mulBits, natPoly_zero, zero_mul, zero_add]

theorem natPoly_polyMul (a b : Nat) : natPoly (polyMul a b) = natPoly a * natPoly b := by
  rw [polyMul, natPoly_mulBits, intOf_minRep]

/-- The product fits in `a.size + b.size - 1` bits. -/
theorem mulBits_lt (a b : BitArray) :
    mulBits a (intOf b) < 2 ^ (a.length + b.length - 1) := by
  by_cases h0 : intOf a = 0 ∨ intOf b = 0
  · have : mulBits a (intOf b) = 0 := by
      rw [← natPoly_eq_zero_iff, natPoly_mulBits]
      rcases h0 with h | h <;> simp [h]
    rw [this]; exact Nat.two_pow_pos _
  · obtain ⟨ha, hb⟩ := not_or.1 h0
    have hda := intOf_lt a
    have hdb := intOf_lt b
    rw [← Nat.log2_lt ha] at hda
    rw [← Nat.log2_lt hb] at hdb
    rw [lt_two_pow_iff_degree_lt, natPoly_mulBits, degree_mul, degree_natPoly ha,
      degree_natPoly hb, ← Nat.cast_add, Nat.cast_lt, degree, degree]
    omega

/-! ### The division (46_galois_field.md R201) -/

/-- Each round of the long division leaves `q * m + r` as it is, and ends below the degree of `m`. -/
theorem polyDivLoop_spec (m : Nat) (hm : m ≠ 0) (fuel q r : Nat) (hf : r = 0 ∨ degree r < fuel) :
    let qr := polyDivLoop m fuel q r
    natPoly qr.1 * natPoly m + natPoly qr.2 = natPoly q * natPoly m + natPoly r ∧
      (natPoly qr.2).degree < (natPoly m).degree := by
  induction fuel generalizing q r with
  | zero =>
    obtain rfl : r = 0 := by omega
    refine ⟨rfl, ?_⟩
    rw [polyDivLoop, natPoly_zero, degree_zero, degree_natPoly hm]
    exact WithBot.bot_lt_coe _
  | succ fuel ih =>
    rw [polyDivLoop]
    split
    · rename_i h
      obtain ⟨hr, hd⟩ := h
      have hshift : natPoly (m <<< (degree r - degree m)) =
          natPoly m * X ^ (degree r - degree m) := natPoly_shiftLeft _ _
      have hlow : r ^^^ (m <<< (degree r - degree m)) = 0 ∨
          degree (r ^^^ (m <<< (degree r - degree m))) < fuel := by
        by_cases hz : r ^^^ (m <<< (degree r - degree m)) = 0
        · exact .inl hz
        · right
          have hdeg : (natPoly r + natPoly (m <<< (degree r - degree m))).degree <
              (natPoly r).degree := by
            have hX : (natPoly m * X ^ (degree r - degree m)).degree = (natPoly r).degree := by
              rw [degree_mul, degree_X_pow, degree_natPoly hm, degree_natPoly hr, ← Nat.cast_add]
              congr 1; omega
            rw [hshift, ← CharTwo.sub_eq_add]
            apply degree_sub_lt_left hX.symm
            · rwa [Ne, natPoly_eq_zero_iff]
            · have l1 : ∀ n : Nat, n ≠ 0 → (natPoly n).leadingCoeff = 1 := by
                intro n hn
                rw [leadingCoeff, natDegree_natPoly, coeff_natPoly, degree,
                  if_pos (Nat.testBit_log2 hn)]
              rw [leadingCoeff_mul, leadingCoeff_X_pow, l1 r hr, l1 m hm, mul_one]
          rw [← natPoly_xor, degree_natPoly hz, degree_natPoly hr, Nat.cast_lt] at hdeg
          omega
      obtain ⟨h1, h2⟩ := ih (q ^^^ (1 <<< (degree r - degree m)))
        (r ^^^ (m <<< (degree r - degree m))) hlow
      refine ⟨?_, h2⟩
      rw [h1, natPoly_xor, natPoly_xor, natPoly_one_shiftLeft, hshift]
      have := add_self_poly (natPoly m * X ^ (degree r - degree m))
      linear_combination this
    · rename_i h
      refine ⟨rfl, ?_⟩
      by_cases hr : r = 0
      · subst hr
        rw [natPoly_zero, degree_zero, degree_natPoly hm]
        exact WithBot.bot_lt_coe _
      · rw [degree_natPoly hr, degree_natPoly hm, Nat.cast_lt]
        have : ¬degree m ≤ degree r := fun hd => h ⟨hr, hd⟩
        omega

/-- Quotient and remainder are those of the polynomials (00_scope.md R8). -/
theorem natPoly_polyDivMod (a m : Nat) (hm : m ≠ 0) :
    natPoly (polyDivMod a m).1 = natPoly a / natPoly m ∧
      natPoly (polyDivMod a m).2 = natPoly a % natPoly m := by
  obtain ⟨h1, h2⟩ := polyDivLoop_spec m hm (degree a + 1) 0 a (.inr (Nat.lt_succ_self _))
  have hm' : natPoly m ≠ 0 := by rwa [Ne, natPoly_eq_zero_iff]
  have hu := EuclideanDomain.div_add_mod (natPoly a) (natPoly m)
  have hdm : (natPoly a % natPoly m).degree < (natPoly m).degree := EuclideanDomain.mod_lt _ hm'
  rw [natPoly_zero, zero_mul, zero_add] at h1
  change natPoly (polyDivMod a m).1 * natPoly m + natPoly (polyDivMod a m).2 = _ at h1
  change (natPoly (polyDivMod a m).2).degree < _ at h2
  have key : natPoly m * (natPoly (polyDivMod a m).1 - natPoly a / natPoly m) =
      natPoly a % natPoly m - natPoly (polyDivMod a m).2 := by linear_combination h1 - hu
  have hz : natPoly (polyDivMod a m).1 - natPoly a / natPoly m = 0 := by
    by_contra hne
    have h3 := degree_le_mul_left (natPoly m) hne
    rw [key] at h3
    exact absurd (lt_of_le_of_lt (degree_sub_le _ _) (max_lt hdm h2)) (not_lt.2 h3)
  rw [hz, mul_zero] at key
  exact ⟨sub_eq_zero.1 hz, (sub_eq_zero.1 key.symm).symm⟩

theorem degree_polyDivMod_snd (a m : Nat) (hm : m ≠ 0) :
    (natPoly (polyDivMod a m).2).degree < (natPoly m).degree := by
  rw [(natPoly_polyDivMod a m hm).2]
  exact EuclideanDomain.mod_lt _ (by rwa [Ne, natPoly_eq_zero_iff])

/-- The remainder fits below the degree of the modulus. -/
theorem polyDivMod_snd_lt (a m : Nat) (hm : m ≠ 0) : (polyDivMod a m).2 < 2 ^ degree m :=
  natPoly_lt_of_degree_lt (degree_polyDivMod_snd a m hm)

/-- The quotient fits in as many bits as the dividend. -/
theorem polyDivMod_fst_lt {a m n : Nat} (hm : m ≠ 0) (h : a < 2 ^ n) : (polyDivMod a m).1 < 2 ^ n := by
  rw [lt_two_pow_iff_degree_lt] at h ⊢
  rw [(natPoly_polyDivMod a m hm).1]
  exact lt_of_le_of_lt (Polynomial.degree_div_le _ _) h

/-! ### The Euclidean loop (46_galois_field.md R204) -/

/-- The loop keeps `r ≡ t * a` modulo `m`, and its first component is a greatest common divisor. -/
theorem polyEuclid_spec (A M : (ZMod 2)[X]) (fuel r0 r1 t0 t1 : Nat)
    (hf : (natPoly r1).degree < fuel)
    (h0 : M ∣ natPoly r0 + natPoly t0 * A) (h1 : M ∣ natPoly r1 + natPoly t1 * A) :
    let gt := polyEuclid fuel r0 r1 t0 t1
    M ∣ natPoly gt.1 + natPoly gt.2 * A ∧
      ∀ d, d ∣ natPoly gt.1 ↔ d ∣ natPoly r0 ∧ d ∣ natPoly r1 := by
  induction fuel generalizing r0 r1 t0 t1 with
  | zero =>
    have : natPoly r1 = 0 := by
      by_contra hne
      have hz := zero_le_degree_iff.2 hne
      exact absurd hf (not_lt.2 (by simpa using hz))
    exact ⟨h0, fun d => by simp [polyEuclid, this]⟩
  | succ fuel ih =>
    rw [polyEuclid]
    split
    · rename_i hz
      subst hz
      exact ⟨h0, fun d => by simp⟩
    · rename_i hz
      obtain ⟨hq, hr⟩ := natPoly_polyDivMod r0 r1 hz
      have hdm := EuclideanDomain.div_add_mod (natPoly r0) (natPoly r1)
      rw [← hq, ← hr] at hdm
      have hdeg := degree_polyDivMod_snd r0 r1 hz
      rw [degree_natPoly hz] at hdeg
      rw [degree_natPoly hz, Nat.cast_lt] at hf
      have hlt : (natPoly (polyDivMod r0 r1).2).degree < (fuel : Nat) :=
        lt_of_lt_of_le hdeg (by exact_mod_cast Nat.le_of_lt_succ hf)
      obtain ⟨g1, g2⟩ := ih r1 (polyDivMod r0 r1).2 t1
        (t0 ^^^ polyMul (polyDivMod r0 r1).1 t1) hlt h1 (by
          rw [natPoly_xor, natPoly_polyMul]
          have e : natPoly (polyDivMod r0 r1).2 +
              (natPoly t0 + natPoly (polyDivMod r0 r1).1 * natPoly t1) * A =
              (natPoly r0 + natPoly t0 * A) -
                natPoly (polyDivMod r0 r1).1 * (natPoly r1 + natPoly t1 * A) := by
            have := add_self_poly (natPoly (polyDivMod r0 r1).1 * natPoly t1 * A)
            linear_combination hdm + this
          rw [e]
          exact dvd_sub h0 (Dvd.dvd.mul_left h1 _))
      refine ⟨g1, fun d => (g2 d).trans ⟨?_, ?_⟩⟩
      · rintro ⟨ha, hb⟩
        refine ⟨?_, ha⟩
        rw [← hdm]
        exact dvd_add (Dvd.dvd.mul_right ha _) hb
      · rintro ⟨ha, hb⟩
        refine ⟨hb, ?_⟩
        have e : natPoly (polyDivMod r0 r1).2 =
            natPoly r0 - natPoly r1 * natPoly (polyDivMod r0 r1).1 := by linear_combination hdm
        rw [e]
        exact dvd_sub ha (Dvd.dvd.mul_right hb _)

/-- Over GF(2) a divisor of 1 is 1, so the loop ends at 1 exactly on coprime polynomials. -/
theorem natPoly_isUnit_iff (g : Nat) : IsUnit (natPoly g) ↔ g = 1 := by
  constructor
  · intro h
    have hne : g ≠ 0 := by rintro rfl; simp at h
    have hd := degree_eq_zero_of_isUnit h
    rw [degree_natPoly hne, Nat.cast_eq_zero, degree] at hd
    have := (Nat.log2_lt hne (k := 1)).1 (by omega)
    omega
  · rintro rfl; simp

/-- What `polyInverse` answers, for a modulus that is not 0 (46_galois_field.md R204). -/
theorem polyInverse_spec (a m : Nat) (hm : m ≠ 0) :
    (∀ b, polyInverse a m = some b →
        b < 2 ^ degree m ∧ natPoly a * natPoly b % natPoly m = 1) ∧
      ((polyInverse a m).isSome = true ↔
        natPoly a % natPoly m ≠ 0 ∧ IsCoprime (natPoly a) (natPoly m)) := by
  have hm' : natPoly m ≠ 0 := by rwa [Ne, natPoly_eq_zero_iff]
  obtain ⟨-, hr⟩ := natPoly_polyDivMod a m hm
  have hdm := EuclideanDomain.div_add_mod (natPoly a) (natPoly m)
  have hdeg := degree_polyDivMod_snd a m hm
  obtain ⟨h1, h2⟩ := polyEuclid_spec (natPoly a) (natPoly m) (degree m + 2) m
    (polyDivMod a m).2 0 1
    (lt_trans hdeg (by rw [degree_natPoly hm, Nat.cast_lt]; omega))
    (by simp)
    (by
      rw [hr, natPoly_one, one_mul]
      have e : natPoly a % natPoly m + natPoly a =
          natPoly m * (natPoly a / natPoly m) + (natPoly a % natPoly m + natPoly a % natPoly m) := by
        linear_combination -hdm
      rw [e, add_self_poly, add_zero]
      exact dvd_mul_right _ _)
  have hcop : IsCoprime (natPoly a) (natPoly m) ↔
      (polyEuclid (degree m + 2) m (polyDivMod a m).2 0 1).1 = 1 := by
    rw [← natPoly_isUnit_iff]
    constructor
    · intro hc
      obtain ⟨hd1, hd2⟩ := (h2 (natPoly (polyEuclid (degree m + 2) m (polyDivMod a m).2 0 1).1)).1
        dvd_rfl
      refine hc.isUnit_of_dvd' ?_ hd1
      rw [← hdm]
      exact dvd_add (Dvd.dvd.mul_right hd1 _) (hr ▸ hd2)
    · intro hu
      rw [← EuclideanDomain.gcd_isUnit_iff]
      refine isUnit_of_dvd_unit ((h2 _).2 ⟨EuclideanDomain.gcd_dvd_right _ _, ?_⟩) hu
      rw [hr]
      have e : natPoly a % natPoly m =
          natPoly a - natPoly m * (natPoly a / natPoly m) := by linear_combination hdm
      rw [e]
      exact dvd_sub (EuclideanDomain.gcd_dvd_left _ _)
        (Dvd.dvd.mul_right (EuclideanDomain.gcd_dvd_right _ _) _)
  have hres : (polyDivMod a m).2 ≠ 0 ↔ natPoly a % natPoly m ≠ 0 := by
    rw [← hr, Ne, Ne, natPoly_eq_zero_iff]
  unfold polyInverse
  refine ⟨?_, ?_⟩
  · intro b hb
    simp only at hb
    split at hb
    · rename_i hc
      obtain ⟨hc1, hc2⟩ := hc
      injection hb with hb
      subst hb
      refine ⟨polyDivMod_snd_lt _ _ hm, ?_⟩
      obtain ⟨-, ht⟩ := natPoly_polyDivMod
        (polyEuclid (degree m + 2) m (polyDivMod a m).2 0 1).2 m hm
      rw [hc2, natPoly_one] at h1
      rw [ht]
      generalize natPoly (polyEuclid (degree m + 2) m (polyDivMod a m).2 0 1).2 = T at h1 ⊢
      have hT := EuclideanDomain.div_add_mod T (natPoly m)
      have hdeg1 : (1 : (ZMod 2)[X]).degree < (natPoly m).degree := by
        rw [degree_one, degree_natPoly hm]
        have hrz : (0 : WithBot ℕ) ≤ (natPoly (polyDivMod a m).2).degree :=
          zero_le_degree_iff.2 (by rwa [Ne, natPoly_eq_zero_iff])
        have := lt_of_le_of_lt hrz hdeg
        rwa [degree_natPoly hm] at this
      have e : natPoly m ∣ natPoly a * (T % natPoly m) - 1 := by
        have e1 : natPoly a * (T % natPoly m) - 1 =
            (1 + T * natPoly a) - natPoly m * (T / natPoly m * natPoly a) - (1 + 1) := by
          linear_combination natPoly a * hT
        rw [e1, add_self_poly, sub_zero]
        exact dvd_sub h1 (dvd_mul_right _ _)
      have s1 : natPoly a * (T % natPoly m) = (natPoly a * (T % natPoly m) - 1) + 1 := by ring
      rw [s1, Polynomial.add_mod, (EuclideanDomain.mod_eq_zero).2 e, zero_add,
        (Polynomial.mod_eq_self_iff hm').2 hdeg1]
    · cases hb
  · rw [← hres, hcop]
    simp only
    split <;> simp_all

end Sys2Proof.Machine
end

