-- ==== Sys2Proof/Laws/Step.lean ====
section
/-! SUPPORT. What one step does with each kind of host event. -/

namespace Sys2Proof.Machine

theorem step_idle {s : State} (h : s.host = []) : step s = .next s.idle := by
  rw [step, h]

theorem step_reset {s : State} {rest : List HostEvent} (h : s.host = .reset :: rest) :
    step s = .next (s.withHost rest).applyReset := by
  rw [step, h]

theorem step_command {s : State} {w : Command} {rest : List HostEvent}
    (h : s.host = .command w :: rest) : step s = runCommand w (s.withHost rest) := by
  rw [step, h]

theorem runCommand_of_ok {w : Command} {i : Instr} (h : decode w = .ok i) (s : State) :
    runCommand w s = exec i s := by
  rw [runCommand, h]

theorem runCommand_of_error {w : Command} {e : DecodeError} (h : decode w = .error e) (s : State) :
    runCommand w s = .next (failed .illegal s) := by
  rw [runCommand, h]; rfl

@[simp] theorem withFetchWord_host (s : State) (nbits w : Nat) :
    (s.withFetchWord nbits w).host = .command (tableCommand nbits w) :: s.host := rfl

/-- A reserved word is one of the two kinds (30_encoding.md R76, R77). -/
theorem decode_eq_error_iff (w : Command) :
    (∃ e, decode w = .error e) ↔
      rowOf (fieldOp w) = none ∨
        ∃ r, rowOf (fieldOp w) = some r ∧ w &&& r.mask ≠ r.matchWord := by
  unfold decode
  cases h : rowOf (fieldOp w) with
  | none => simp
  | some r =>
    by_cases hm : w &&& r.mask = r.matchWord <;> simp [hm]

theorem decode_of_matches {w : Command} {r : OpcodeRow} (h : rowOf (fieldOp w) = some r)
    (hm : w &&& r.mask = r.matchWord) : decode w = .ok (r.build w) := by
  rw [decode, h]; simp [hm]

end Sys2Proof.Machine
end

