-- ==== Sys2Proof/Tests/Slice0.lean ====
section
/-! SUPPORT. Tests of the model against spec/95_test_vectors.md, the words of spec/30_encoding.md written
out, the smoke test of `Instr.wellFormed`, and witnesses for the hypotheses of the statements. -/

namespace Sys2Proof.Tests

-- One kernel evaluation after another: hundreds at once would each hold a thread.
set_option Elab.async false

open Sys2Proof.Machine

/-! ### Helpers -/

/-- A bit vector from its bits, leftmost first. -/
def bv (l : List Nat) : BitArray := l.map (· == 1)

/-- An index list from its entries. -/
def ix (l : List Int) : List Scalar := l.map (BitVec.ofInt 32)

/-- The reset state with some scalars and vectors set. -/
def start (scalars : List (SReg × Int)) (vectors : List (VReg × BitArray)) : State :=
  vectors.foldl (fun s p => s.setVec p.1 p.2)
    (scalars.foldl (fun s p => s.setInt p.1 p.2) State.reset)

/-- The state after one step on a command word. -/
def after (w : Command) (s : State) : Option State :=
  match step (s.withFetchWord 32 w.toNat) with
  | .next t => some t
  | _ => none

/-! ### Well-formed instructions: the one check refuses what it is for -/

theorem test_wellFormed_refuses_jsim : (Instr.jsim 1 1 2 3).wellFormed = false := by decide

theorem test_wellFormed_refuses_jdist : (Instr.jdist 0 0 2 3).wellFormed = false := by decide

theorem test_wellFormed_accepts_jsim : (Instr.jsim 1 2 3 3).wellFormed = true := by decide

theorem test_wellFormed_accepts_vand : (Instr.vand 1 1 1).wellFormed = true := by decide

/-! ### Every instruction's word, bit by bit from the encoding column of 30_encoding.md R75: opcode, `SD`,
`SA`, `SB`, `VD`, `VA`, `VB` (or the immediate). Each operand has a bit pattern of its own. -/

theorem test_decode_nop : decode 0b00000000_0000_0000_0000_0000_0000_0000#32 = .ok .nop := rfl

theorem test_decode_clrerr : decode 0b00000001_0000_0000_0000_0000_0000_0000#32 = .ok .clrerr := rfl

theorem test_decode_rdst : decode 0b00000010_1001_0000_0000_0000_0000_0000#32 = .ok (.rdst 0x9) := rfl

theorem test_decode_sli : decode 0b00000100_1001_0000_1000101001010001#32 = .ok (.sli 0x9 0x8a51) := rfl

theorem test_decode_slih : decode 0b00000101_1001_0000_1000101001010001#32 = .ok (.slih 0x9 0x8a51) := rfl

theorem test_decode_saddi : decode 0b00000110_1001_0000_1000101001010001#32 = .ok (.saddi 0x9 0x8a51) := rfl

theorem test_decode_ixclr : decode 0b00001000_0000_0000_0000_0000_0000_0000#32 = .ok .ixclr := rfl

theorem test_decode_ixpush : decode 0b00001001_0000_0110_0000_0000_0000_0000#32 = .ok (.ixpush 0x6) := rfl

theorem test_decode_ixlen : decode 0b00001010_1001_0000_0000_0000_0000_0000#32 = .ok (.ixlen 0x9) := rfl

theorem test_decode_ixget : decode 0b00001011_1001_0110_0000_0000_0000_0000#32 = .ok (.ixget 0x9 0x6) := rfl

theorem test_decode_vzero : decode 0b00010000_0000_0110_0000_1010_0000_0000#32 = .ok (.vzero 0xa 0x6) := rfl

theorem test_decode_vint : decode 0b00010001_0000_0110_0000_1010_0000_0000#32 = .ok (.vint 0xa 0x6) := rfl

theorem test_decode_vints : decode 0b00010010_0000_0110_0101_1010_0000_0000#32 = .ok (.vints 0xa 0x6 0x5) := rfl

theorem test_decode_vtoint : decode 0b00010011_1001_0000_0000_0000_0011_0000#32 = .ok (.vtoint 0x9 0x3) := rfl

theorem test_decode_vsize : decode 0b00010100_1001_0000_0000_0000_0011_0000#32 = .ok (.vsize 0x9 0x3) := rfl

theorem test_decode_getb : decode 0b00010101_1001_0110_0000_0000_0011_0000#32 = .ok (.getb 0x9 0x3 0x6) := rfl

theorem test_decode_setb : decode 0b00010110_0000_0110_0101_1010_0000_0000#32 = .ok (.setb 0xa 0x6 0x5) := rfl

theorem test_decode_vfill : decode 0b00010111_0000_0110_0000_1010_0000_0000#32 = .ok (.vfill 0xa 0x6) := rfl

theorem test_decode_vslice : decode 0b00011000_0000_0110_0101_1010_0011_0000#32 = .ok (.vslice 0xa 0x3 0x6 0x5) := rfl

theorem test_decode_vslset : decode 0b00011001_0000_0110_0101_1010_0011_0000#32 = .ok (.vslset 0xa 0x3 0x6 0x5) := rfl

theorem test_decode_getw : decode 0b00011010_1001_0110_0000_0000_0011_0000#32 = .ok (.getw 0x9 0x3 0x6) := rfl

theorem test_decode_setw : decode 0b00011011_0000_0110_0101_1010_0000_0000#32 = .ok (.setw 0xa 0x6 0x5) := rfl

theorem test_decode_vmov : decode 0b00011100_0000_0000_0000_1010_0011_0000#32 = .ok (.vmov 0xa 0x3) := rfl

theorem test_decode_vand : decode 0b00100000_0000_0000_0000_1010_0011_1100#32 = .ok (.vand 0xa 0x3 0xc) := rfl

theorem test_decode_vor : decode 0b00100001_0000_0000_0000_1010_0011_1100#32 = .ok (.vor 0xa 0x3 0xc) := rfl

theorem test_decode_vxor : decode 0b00100010_0000_0000_0000_1010_0011_1100#32 = .ok (.vxor 0xa 0x3 0xc) := rfl

theorem test_decode_vnot : decode 0b00100011_0000_0000_0000_1010_0011_0000#32 = .ok (.vnot 0xa 0x3) := rfl

theorem test_decode_vcat : decode 0b00100100_0000_0000_0000_1010_0011_1100#32 = .ok (.vcat 0xa 0x3 0xc) := rfl

theorem test_decode_vceq : decode 0b00101000_1001_0000_0000_0000_0011_1100#32 = .ok (.vceq 0x9 0x3 0xc) := rfl

theorem test_decode_vcne : decode 0b00101001_1001_0000_0000_0000_0011_1100#32 = .ok (.vcne 0x9 0x3 0xc) := rfl

theorem test_decode_vclt : decode 0b00101010_1001_0000_0000_0000_0011_1100#32 = .ok (.vclt 0x9 0x3 0xc) := rfl

theorem test_decode_vcle : decode 0b00101011_1001_0000_0000_0000_0011_1100#32 = .ok (.vcle 0x9 0x3 0xc) := rfl

theorem test_decode_vcgt : decode 0b00101100_1001_0000_0000_0000_0011_1100#32 = .ok (.vcgt 0x9 0x3 0xc) := rfl

theorem test_decode_vcge : decode 0b00101101_1001_0000_0000_0000_0011_1100#32 = .ok (.vcge 0x9 0x3 0xc) := rfl

theorem test_decode_vcont : decode 0b00101110_1001_0000_0000_0000_0011_1100#32 = .ok (.vcont 0x9 0x3 0xc) := rfl

theorem test_decode_vrol : decode 0b00110000_0000_0110_0000_1010_0000_0000#32 = .ok (.vrol 0xa 0x6) := rfl

theorem test_decode_vror : decode 0b00110001_0000_0110_0000_1010_0000_0000#32 = .ok (.vror 0xa 0x6) := rfl

theorem test_decode_vshl : decode 0b00110010_0000_0110_0000_1010_0000_0000#32 = .ok (.vshl 0xa 0x6) := rfl

theorem test_decode_vshr : decode 0b00110011_0000_0110_0000_1010_0000_0000#32 = .ok (.vshr 0xa 0x6) := rfl

theorem test_decode_vperm : decode 0b00111000_0000_0000_0000_1010_0011_0000#32 = .ok (.vperm 0xa 0x3) := rfl

theorem test_decode_vunperm : decode 0b00111001_0000_0000_0000_1010_0011_0000#32 = .ok (.vunperm 0xa 0x3) := rfl

theorem test_decode_vhalf0 : decode 0b00111010_0000_0000_0000_1010_0011_0000#32 = .ok (.vhalf0 0xa 0x3) := rfl

theorem test_decode_vhalf1 : decode 0b00111011_0000_0000_0000_1010_0011_0000#32 = .ok (.vhalf1 0xa 0x3) := rfl

theorem test_decode_popc : decode 0b01000000_1001_0000_0000_0000_0011_0000#32 = .ok (.popc 0x9 0x3) := rfl

theorem test_decode_popcs : decode 0b01000001_1001_0000_0000_0000_0011_0000#32 = .ok (.popcs 0x9 0x3) := rfl

theorem test_decode_nsb : decode 0b01000010_1001_0110_0000_0000_0011_0000#32 = .ok (.nsb 0x9 0x3 0x6) := rfl

theorem test_decode_rank : decode 0b01000011_1001_0110_0000_0000_0011_0000#32 = .ok (.rank 0x9 0x3 0x6) := rfl

theorem test_decode_isp2 : decode 0b01000100_1001_0000_0000_0000_0011_0000#32 = .ok (.isp2 0x9 0x3) := rfl

theorem test_decode_isp2s : decode 0b01000101_1001_0000_0000_0000_0011_0000#32 = .ok (.isp2s 0x9 0x3) := rfl

theorem test_decode_vrev : decode 0b01000110_0000_0000_0000_1010_0011_0000#32 = .ok (.vrev 0xa 0x3) := rfl

theorem test_decode_vruns : decode 0b01000111_1001_0000_0000_0000_0011_0000#32 = .ok (.vruns 0x9 0x3) := rfl

theorem test_decode_hamm : decode 0b01001000_1001_0000_0000_0000_0011_1100#32 = .ok (.hamm 0x9 0x3 0xc) := rfl

theorem test_decode_jsim : decode 0b01001001_1001_0110_0000_0000_0011_1100#32 = .ok (.jsim 0x9 0x6 0x3 0xc) := rfl

theorem test_decode_jdist : decode 0b01001010_1001_0110_0000_0000_0011_1100#32 = .ok (.jdist 0x9 0x6 0x3 0xc) := rfl

theorem test_decode_gfmul : decode 0b01010000_0000_0000_0000_1010_0011_1100#32 = .ok (.gfmul 0xa 0x3 0xc) := rfl

theorem test_decode_gfquo : decode 0b01010001_0000_0110_0000_1010_0011_1100#32 = .ok (.gfquo 0xa 0x3 0xc 0x6) := rfl

theorem test_decode_gfrem : decode 0b01010010_0000_0110_0000_1010_0011_1100#32 = .ok (.gfrem 0xa 0x3 0xc 0x6) := rfl

theorem test_decode_gfmulm : decode 0b01010011_0000_0110_0101_1010_0011_1100#32 = .ok (.gfmulm 0xa 0x3 0xc 0x5 0x6) := rfl

theorem test_decode_gfmi : decode 0b01010100_0000_0110_0000_1010_0011_1100#32 = .ok (.gfmi 0xa 0x3 0xc 0x6) := rfl

theorem test_decode_modinv : decode 0b01010101_0000_0000_0000_1010_0011_1100#32 = .ok (.modinv 0xa 0x3 0xc) := rfl

theorem test_decode_vgcd : decode 0b01010110_0000_0000_0000_1010_0011_1100#32 = .ok (.vgcd 0xa 0x3 0xc) := rfl

theorem test_decode_prime : decode 0b01010111_1001_0110_0000_0000_0011_0000#32 = .ok (.prime 0x9 0x3 0x6) := rfl

theorem test_decode_randp : decode 0b01011000_0000_0110_0000_1010_0000_0000#32 = .ok (.randp 0xa 0x6) := rfl

theorem test_decode_getbyte : decode 0b01100000_1001_0110_0000_0000_0011_0000#32 = .ok (.getbyte 0x9 0x3 0x6) := rfl

theorem test_decode_appbyte : decode 0b01100001_0000_0110_0000_1010_0000_0000#32 = .ok (.appbyte 0xa 0x6) := rfl

/-- An opcode outside the map (30_encoding.md R77). -/
theorem test_decode_unassigned :
    decode 0b00000011_0000_0000_0000_0000_0000_0000#32 = .error (.unassignedOpcode 3) := rfl

/-- `VAND` with a bit in its unused `SB` slot (30_encoding.md R76). -/
theorem test_decode_unused_slot :
    decode 0b00100000_0000_0000_0001_0001_0010_0011#32 = .error (.unusedSlotNotZero "VAND") := rfl

theorem test_table_word : decodeTableWord 32 0x20000312 = some (.vand 3 1 2) := rfl

theorem test_asmLine : asmLine (.vslice 2 1 3 4) = some "VSLICE v2, v1, s3, s4" := by decide +kernel

/-! ### One step, with the start states and results of 95_test_vectors.md -/

/-- T40.1: `NOP`. -/
theorem test_nop :
    (after 0x00000000
        { start [(1, 5)] [(1, bv [1, 0, 0, 1, 1, 0, 1])] with err := 2, nr := true, indices := ix [1] }).map
      (fun t => (t.resp, t.err, t.vec 1)) =
      some (some 0, 2, bv [1, 0, 0, 1, 1, 0, 1]) := by decide +kernel

/-- T40.2: `CLRERR`. -/
theorem test_clrerr :
    (after 0x01000000 { start [] [] with err := 2, nr := true }).map (fun t => (t.resp, t.err)) =
      some (some 0, 0) := by decide +kernel

/-- T40.4: `RDST s3`. -/
theorem test_rdst :
    (after 0x02300000 { start [] [] with err := 4, nr := true }).map (fun t => (t.resp, t.int 3)) =
      some (some 0, 260) := by decide +kernel

/-- T40.8: `SLI s2, -1`. -/
theorem test_sli :
    (after 0x0420FFFF (start [] [])).map (fun t => (t.resp, t.int 2)) =
      some (some 0, -1) := by decide +kernel

/-- T40.10: `SLI s2, 0x7FFF`. -/
theorem test_sli_again :
    (after 0x04207FFF (start [] [])).map (fun t => (t.resp, t.int 2)) =
      some (some 0, 32767) := by decide +kernel

/-- T40.13: `SLIH s1, 0`. -/
theorem test_slih :
    (after 0x05100000 (start [(1, -1)] [])).map (fun t => (t.resp, t.int 1)) =
      some (some 0, -65536) := by decide +kernel

/-- T40.14: `SLIH s1, 0xFFFF`. -/
theorem test_slih_again :
    (after 0x0510FFFF (start [(1, 305419896)] [])).map (fun t => (t.resp, t.int 1)) =
      some (some 0, 1450770431) := by decide +kernel

/-- T40.17: `SADDI s4, 1`. -/
theorem test_saddi :
    (after 0x06400001 (start [(4, 2147483647)] [])).map (fun t => (t.resp, t.int 4)) =
      some (some 0, -2147483648) := by decide +kernel

/-- T40.18: `SADDI s4, -1`. -/
theorem test_saddi_again :
    (after 0x0640FFFF (start [(4, -2147483648)] [])).map (fun t => (t.resp, t.int 4)) =
      some (some 0, 2147483647) := by decide +kernel

/-- T40.20: `IXCLR`. -/
theorem test_ixclr :
    (after 0x08000000
        { start [] [] with indices := ix [6,2,0,1] }).map
      (fun t => (t.resp, t.indices)) =
      some (some 0, ix []) := by decide +kernel

/-- T40.21: `IXPUSH s1`. -/
theorem test_ixpush :
    (after 0x09010000
        { start [(1, 2)] [] with indices := ix [6] }).map
      (fun t => (t.resp, t.indices)) =
      some (some 0, ix [6,2]) := by decide +kernel

/-- T40.22: `IXPUSH s1`. -/
theorem test_ixpush_again :
    (after 0x09010000 (start [(1, -5)] [])).map (fun t => (t.resp, t.indices)) =
      some (some 0, ix [-5]) := by decide +kernel

/-- T40.24: `IXLEN s3`. -/
theorem test_ixlen :
    (after 0x0A300000
        { start [] [] with indices := ix [6,2,0,1] }).map
      (fun t => (t.resp, t.int 3)) =
      some (some 0, 4) := by decide +kernel

/-- T40.26: `IXGET s3, s2`. -/
theorem test_ixget :
    (after 0x0B320000
        { start [(2, 1)] [] with indices := ix [1,2,1] }).map
      (fun t => (t.resp, t.int 3)) =
      some (some 0, 2) := by decide +kernel

/-- T40.27: `IXGET s3, s2`. -/
theorem test_ixget_index :
    (after 0x0B320000
        { start [(2, 3)] [] with indices := ix [1,2,1] }).map
      (fun t => (t.resp, t.err)) =
      some (some 2, 2) := by decide +kernel

/-- T41.1: `VZERO v1, s2`. -/
theorem test_vzero :
    (after 0x10020100 (start [(2, 7)] [])).map (fun t => (t.resp, t.vec 1)) =
      some (some 0, bv [0, 0, 0, 0, 0, 0, 0]) := by decide +kernel

/-- T41.4: `VZERO v1, s2`. -/
theorem test_vzero_cap :
    (after 0x10020100 (start [(2, 4097)] [])).map (fun t => (t.resp, t.err)) =
      some (some 10, 10) := by decide +kernel

/-- T41.5: `VINT v0, s1`. -/
theorem test_vint :
    (after 0x11010000 (start [(1, 49)] [])).map (fun t => (t.resp, t.vec 0)) =
      some (some 0, bv [1, 1, 0, 0, 0, 1]) := by decide +kernel

/-- T41.9: `VINT v0, s1`. -/
theorem test_vint_value :
    (after 0x11010000 (start [(1, -1)] [])).map (fun t => (t.resp, t.err)) =
      some (some 3, 3) := by decide +kernel

/-- T41.10: `VINTS v0, s1, s2`. -/
theorem test_vints :
    (after 0x12012000 (start [(1, 6), (2, 8)] [])).map (fun t => (t.resp, t.vec 0)) =
      some (some 0, bv [0, 0, 0, 0, 0, 1, 1, 0]) := by decide +kernel

/-- T41.12: `VINTS v0, s1, s2`. -/
theorem test_vints_value :
    (after 0x12012000 (start [(1, 6), (2, 2)] [])).map (fun t => (t.resp, t.err)) =
      some (some 3, 3) := by decide +kernel

/-- T41.20: `VTOINT s3, v0`. -/
theorem test_vtoint :
    (after 0x13300000
        (start [] [(0, bv [0, 1, 1, 1, 1, 1, 1, 1, 1, 1, 1, 1, 1, 1, 1, 1, 1, 1, 1, 1, 1, 1, 1, 1, 1, 1, 1, 1, 1, 1, 1, 1])])).map
      (fun t => (t.resp, t.int 3)) =
      some (some 0, 2147483647) := by decide +kernel

/-- T41.21: `VTOINT s3, v0`. -/
theorem test_vtoint_cap :
    (after 0x13300000
        (start [] [(0, bv [1, 0, 0, 0, 0, 0, 0, 0, 0, 0, 0, 0, 0, 0, 0, 0, 0, 0, 0, 0, 0, 0, 0, 0, 0, 0, 0, 0, 0, 0, 0, 0])])).map
      (fun t => (t.resp, t.err)) =
      some (some 10, 10) := by decide +kernel

/-- T41.23: `VSIZE s3, v1`. -/
theorem test_vsize :
    (after 0x14300010 (start [] [(1, bv [1, 0, 0, 1, 1, 0, 1])])).map (fun t => (t.resp, t.int 3)) =
      some (some 0, 7) := by decide +kernel

/-- T41.30: `GETB s3, v1, s2`. -/
theorem test_getb :
    (after 0x15320010
        (start [(2, -7)] [(1, bv [1, 0, 0, 1, 1, 0, 1])])).map
      (fun t => (t.resp, t.int 3)) =
      some (some 0, 1) := by decide +kernel

/-- T41.31: `GETB s3, v1, s2`. -/
theorem test_getb_index :
    (after 0x15320010
        (start [(2, -8)] [(1, bv [1, 0, 0, 1, 1, 0, 1])])).map
      (fun t => (t.resp, t.err)) =
      some (some 2, 2) := by decide +kernel

/-- T41.34: `SETB v1, s2, s3`. -/
theorem test_setb :
    (after 0x16023100
        (start [(2, -1)] [(1, bv [1, 0, 0, 1, 1, 0, 1])])).map
      (fun t => (t.resp, t.vec 1)) =
      some (some 0, bv [1, 0, 0, 1, 1, 0, 0]) := by decide +kernel

/-- T41.37: `SETB v1, s2, s3`. -/
theorem test_setb_value :
    (after 0x16023100
        (start [(2, 7), (3, 2)] [(1, bv [1, 0, 0, 1, 1, 0, 1])])).map
      (fun t => (t.resp, t.err)) =
      some (some 3, 3) := by decide +kernel

/-- T41.38: `VFILL v1, s2`. -/
theorem test_vfill :
    (after 0x17020100
        (start [(2, 1)] [(1, bv [1, 0, 0, 1, 1, 0, 1])])).map
      (fun t => (t.resp, t.vec 1)) =
      some (some 0, bv [1, 1, 1, 1, 1, 1, 1]) := by decide +kernel

/-- T41.41: `VFILL v1, s2`. -/
theorem test_vfill_value :
    (after 0x17020100
        (start [(2, -1)] [(1, bv [1, 0, 0, 1, 1, 0, 1])])).map
      (fun t => (t.resp, t.err)) =
      some (some 3, 3) := by decide +kernel

/-- T41.48: `VSLICE v1, v1, s3, s4`. -/
theorem test_vslice :
    (after 0x18034110
        (start [(3, 1), (4, 4)] [(1, bv [1, 0, 0, 1, 1, 0, 1])])).map
      (fun t => (t.resp, t.vec 1)) =
      some (some 0, bv [0, 0, 1]) := by decide +kernel

/-- T41.45: `VSLICE v2, v1, s3, s4`. -/
theorem test_vslice_slice :
    (after 0x18034210
        (start [(4, 8)] [(1, bv [1, 0, 0, 1, 1, 0, 1])])).map
      (fun t => (t.resp, t.err)) =
      some (some 7, 7) := by decide +kernel

/-- T41.49: `VSLSET v1, v2, s3, s4`. -/
theorem test_vslset :
    (after 0x19034120
        (start [(3, 2), (4, 5)] [(1, bv [1, 0, 0, 1, 1, 0, 1]), (2, bv [1, 1, 1])])).map
      (fun t => (t.resp, t.vec 1)) =
      some (some 0, bv [1, 0, 1, 1, 1, 0, 1]) := by decide +kernel

/-- T41.50: `VSLSET v1, v2, s3, s4`. -/
theorem test_vslset_slice :
    (after 0x19034120
        (start [(3, 2), (4, 5)] [(1, bv [1, 0, 0, 1, 1, 0, 1]), (2, bv [1, 1])])).map
      (fun t => (t.resp, t.err)) =
      some (some 7, 7) := by decide +kernel

/-- T41.54: `GETW s5, v1, s0`. -/
theorem test_getw :
    (after 0x1A500010
        { start [] [(1, bv [1, 0, 0, 1, 1, 0, 1])] with padding := ⟨[0], 0⟩ }).map
      (fun t => (t.resp, t.int 5)) =
      some (some 0, 89) := by decide +kernel

/-- T41.58: `GETW s5, v1, s0`. -/
theorem test_getw_again :
    (after 0x1A500010
        { start [(0, 1)] [(1, bv [0, 0, 0, 0, 0, 0, 0, 0, 0, 0, 0, 0, 0, 0, 0, 1, 1])] with padding := ⟨[0], 0⟩ }).map
      (fun t => (t.resp, t.int 5)) =
      some (some 0, 1) := by decide +kernel

/-- T41.63: `SETW v1, s0, s5`. -/
theorem test_setw :
    (after 0x1B005100
        (start [(5, -1)] [(1, bv [0, 0, 0, 0, 0, 0, 0])])).map
      (fun t => (t.resp, t.vec 1)) =
      some (some 0, bv [1, 1, 1, 1, 1, 1, 1]) := by decide +kernel

/-- T41.64: `SETW v1, s0, s5`. -/
theorem test_setw_again :
    (after 0x1B005100
        (start [(0, 1), (5, 74565)] [(1, bv [0, 0, 0, 0, 0, 0, 0, 0, 0, 0, 0, 0, 0, 0, 0, 0, 0])])).map
      (fun t => (t.resp, t.vec 1)) =
      some (some 0, bv [0, 0, 0, 0, 0, 0, 0, 0, 0, 0, 0, 0, 0, 0, 0, 0, 1]) := by decide +kernel

/-- T41.66: `VMOV v2, v1`. -/
theorem test_vmov :
    (after 0x1C000210
        (start [] [(1, bv [1, 0, 0, 1, 1, 0, 1]), (2, bv [1, 1])])).map
      (fun t => (t.resp, t.vec 2)) =
      some (some 0, bv [1, 0, 0, 1, 1, 0, 1]) := by decide +kernel

/-- T42.2: `VAND v3, v1, v2`. -/
theorem test_vand :
    (after 0x20000312
        (start [] [(1, bv [1, 1, 0, 0]), (2, bv [1, 0, 1, 0])])).map
      (fun t => (t.resp, t.vec 3)) =
      some (some 0, bv [1, 0, 0, 0]) := by decide +kernel

/-- T42.3: `VAND v3, v1, v2`. -/
theorem test_vand_size :
    (after 0x20000312
        (start [] [(1, bv [1, 1, 0, 0]), (2, bv [1, 0, 1])])).map
      (fun t => (t.resp, t.err)) =
      some (some 4, 4) := by decide +kernel

/-- T42.5: `VOR v3, v1, v2`. -/
theorem test_vor :
    (after 0x21000312
        (start [] [(1, bv [1, 1, 0, 0]), (2, bv [1, 0, 1, 0])])).map
      (fun t => (t.resp, t.vec 3)) =
      some (some 0, bv [1, 1, 1, 0]) := by decide +kernel

/-- T42.6: `VOR v3, v1, v2`. -/
theorem test_vor_size :
    (after 0x21000312
        (start [] [(1, bv [1, 1, 0, 0]), (2, bv [0, 1, 0, 1, 0])])).map
      (fun t => (t.resp, t.err)) =
      some (some 4, 4) := by decide +kernel

/-- T42.7: `VXOR v3, v1, v2`. -/
theorem test_vxor :
    (after 0x22000312
        (start [] [(1, bv [1, 1, 0, 0]), (2, bv [1, 0, 1, 0])])).map
      (fun t => (t.resp, t.vec 3)) =
      some (some 0, bv [0, 1, 1, 0]) := by decide +kernel

/-- T42.8: `VXOR v1, v1, v1`. -/
theorem test_vxor_again :
    (after 0x22000111 (start [] [(1, bv [1, 0, 0, 1, 1, 0, 1])])).map (fun t => (t.resp, t.vec 1)) =
      some (some 0, bv [0, 0, 0, 0, 0, 0, 0]) := by decide +kernel

/-- T42.10: `VNOT v2, v1`. -/
theorem test_vnot :
    (after 0x23000210
        (start [] [(1, bv [0, 0, 1, 0, 1, 0, 1, 1])])).map
      (fun t => (t.resp, t.vec 2)) =
      some (some 0, bv [1, 1, 0, 1, 0, 1, 0, 0]) := by decide +kernel

/-- T42.13: `VCAT v3, v1, v2`. -/
theorem test_vcat :
    (after 0x24000312
        (start [] [(1, bv [1, 0, 1]), (2, bv [0, 0, 1, 1])])).map
      (fun t => (t.resp, t.vec 3)) =
      some (some 0, bv [1, 0, 1, 0, 0, 1, 1]) := by decide +kernel

/-- T42.17: `VCAT v1, v1, v1`. -/
theorem test_vcat_again :
    (after 0x24000111 (start [] [(1, bv [1, 0])])).map (fun t => (t.resp, t.vec 1)) =
      some (some 0, bv [1, 0, 1, 0]) := by decide +kernel

/-- T42.19: `VCEQ s0, v1, v2`. -/
theorem test_vceq :
    (after 0x28000012
        (start [] [(1, bv [0, 0, 1, 1]), (2, bv [1, 1])])).map
      (fun t => (t.resp, t.int 0)) =
      some (some 0, 1) := by decide +kernel

/-- T42.21: `VCEQ s0, v1, v2`. -/
theorem test_vceq_again :
    (after 0x28000012
        (start [(0, 5)] [(1, bv [1, 0]), (2, bv [0, 1])])).map
      (fun t => (t.resp, t.int 0)) =
      some (some 0, 0) := by decide +kernel

/-- T42.22: `VCNE s0, v1, v2`. -/
theorem test_vcne :
    (after 0x29000012
        (start [(0, 5)] [(1, bv [0, 0, 1, 1]), (2, bv [1, 1])])).map
      (fun t => (t.resp, t.int 0)) =
      some (some 0, 0) := by decide +kernel

/-- T42.23: `VCNE s0, v1, v2`. -/
theorem test_vcne_again :
    (after 0x29000012
        (start [] [(1, bv [1, 0]), (2, bv [0, 1])])).map
      (fun t => (t.resp, t.int 0)) =
      some (some 0, 1) := by decide +kernel

/-- T42.24: `VCLT s0, v1, v2`. -/
theorem test_vclt :
    (after 0x2A000012
        (start [] [(1, bv [0, 0, 0, 1]), (2, bv [1, 1])])).map
      (fun t => (t.resp, t.int 0)) =
      some (some 0, 1) := by decide +kernel

/-- T42.25: `VCLT s0, v1, v2`. -/
theorem test_vclt_again :
    (after 0x2A000012
        (start [(0, 5)] [(1, bv [1, 1]), (2, bv [0, 0, 1, 1])])).map
      (fun t => (t.resp, t.int 0)) =
      some (some 0, 0) := by decide +kernel

/-- T42.26: `VCLE s0, v1, v2`. -/
theorem test_vcle :
    (after 0x2B000012
        (start [] [(1, bv [0, 0, 1, 1]), (2, bv [1, 1])])).map
      (fun t => (t.resp, t.int 0)) =
      some (some 0, 1) := by decide +kernel

/-- T42.27: `VCLE s0, v1, v2`. -/
theorem test_vcle_again :
    (after 0x2B000012
        (start [(0, 5)] [(1, bv [1, 0, 0]), (2, bv [1, 1])])).map
      (fun t => (t.resp, t.int 0)) =
      some (some 0, 0) := by decide +kernel

/-- T42.28: `VCGT s0, v1, v2`. -/
theorem test_vcgt :
    (after 0x2C000012
        (start [] [(1, bv [1, 0, 0]), (2, bv [0, 0, 1, 1])])).map
      (fun t => (t.resp, t.int 0)) =
      some (some 0, 1) := by decide +kernel

/-- T42.29: `VCGT s0, v1, v2`. -/
theorem test_vcgt_again :
    (after 0x2C000012 (start [(0, 5)] [])).map (fun t => (t.resp, t.int 0)) =
      some (some 0, 0) := by decide +kernel

/-- T42.30: `VCGE s0, v1, v2`. -/
theorem test_vcge :
    (after 0x2D000012
        (start [(0, 5)] [(1, bv [0, 0, 0, 1]), (2, bv [1, 1])])).map
      (fun t => (t.resp, t.int 0)) =
      some (some 0, 0) := by decide +kernel

/-- T42.31: `VCGE s0, v1, v2`. -/
theorem test_vcge_again :
    (after 0x2D000012 (start [] [(2, bv [0, 0, 0])])).map (fun t => (t.resp, t.int 0)) =
      some (some 0, 1) := by decide +kernel

/-- T42.32: `VCONT s0, v1, v2`. -/
theorem test_vcont :
    (after 0x2E000012
        (start [] [(1, bv [1, 0, 0, 1, 1, 0, 1]), (2, bv [0, 1, 1, 0])])).map
      (fun t => (t.resp, t.int 0)) =
      some (some 0, 1) := by decide +kernel

/-- T42.33: `VCONT s0, v1, v2`. -/
theorem test_vcont_again :
    (after 0x2E000012
        (start [(0, 5)] [(1, bv [1, 0, 0, 1, 1, 0, 1]), (2, bv [1, 1, 1])])).map
      (fun t => (t.resp, t.int 0)) =
      some (some 0, 0) := by decide +kernel

/-- T43.2: `VROL v1, s2`. -/
theorem test_vrol :
    (after 0x30020100
        (start [(2, 3)] [(1, bv [1, 0, 0, 1, 1, 0, 1])])).map
      (fun t => (t.resp, t.vec 1)) =
      some (some 0, bv [1, 1, 0, 1, 1, 0, 0]) := by decide +kernel

/-- T43.8: `VROL v1, s2`. -/
theorem test_vrol_again :
    (after 0x30020100
        (start [(2, 2147483647)] [(1, bv [1, 0, 0, 1, 1, 0, 1])])).map
      (fun t => (t.resp, t.vec 1)) =
      some (some 0, bv [0, 0, 1, 1, 0, 1, 1]) := by decide +kernel

/-- T43.10: `VROR v1, s2`. -/
theorem test_vror :
    (after 0x31020100
        (start [(2, 3)] [(1, bv [1, 0, 0, 1, 1, 0, 1])])).map
      (fun t => (t.resp, t.vec 1)) =
      some (some 0, bv [1, 0, 1, 1, 0, 0, 1]) := by decide +kernel

/-- T43.12: `VROR v1, s2`. -/
theorem test_vror_value :
    (after 0x31020100
        (start [(2, -3)] [(1, bv [1, 0, 0, 1, 1, 0, 1])])).map
      (fun t => (t.resp, t.err)) =
      some (some 3, 3) := by decide +kernel

/-- T43.13: `VSHL v1, s2`. -/
theorem test_vshl :
    (after 0x32020100
        (start [(2, 2)] [(1, bv [1, 0, 0, 1, 1, 0, 1])])).map
      (fun t => (t.resp, t.vec 1)) =
      some (some 0, bv [0, 1, 1, 0, 1, 0, 0]) := by decide +kernel

/-- T43.16: `VSHL v1, s2`. -/
theorem test_vshl_again :
    (after 0x32020100
        (start [(2, 2147483647)] [(1, bv [1, 0, 0, 1, 1, 0, 1])])).map
      (fun t => (t.resp, t.vec 1)) =
      some (some 0, bv [0, 0, 0, 0, 0, 0, 0]) := by decide +kernel

/-- T43.19: `VSHR v1, s2`. -/
theorem test_vshr :
    (after 0x33020100
        (start [(2, 2)] [(1, bv [1, 0, 0, 1, 1, 0, 1])])).map
      (fun t => (t.resp, t.vec 1)) =
      some (some 0, bv [0, 0, 1, 0, 0, 1, 1]) := by decide +kernel

/-- T43.23: `VSHR v1, s2`. -/
theorem test_vshr_value :
    (after 0x33020100
        (start [(2, -2147483648)] [(1, bv [1, 0, 0, 1, 1, 0, 1])])).map
      (fun t => (t.resp, t.err)) =
      some (some 3, 3) := by decide +kernel

/-- T44.1: `VPERM v2, v1`. -/
theorem test_vperm :
    (after 0x38000210
        { start [] [(1, bv [1, 0, 0, 1, 1, 0, 1])] with indices := ix [6,2,0,1] }).map
      (fun t => (t.resp, t.vec 2)) =
      some (some 0, bv [1, 0, 1, 0]) := by decide +kernel

/-- T44.6: `VPERM v2, v1`. -/
theorem test_vperm_perm :
    (after 0x38000210
        { start [] [(1, bv [1, 0, 0, 1, 1, 0, 1])] with indices := ix [-1] }).map
      (fun t => (t.resp, t.err)) =
      some (some 5, 5) := by decide +kernel

/-- T44.10: `VUNPERM v3, v2`. -/
theorem test_vunperm :
    (after 0x39000320
        { start [] [(2, bv [1, 1, 1, 1])] with indices := ix [0,0,1,1] }).map
      (fun t => (t.resp, t.vec 3)) =
      some (some 0, bv [1, 1, 0, 0]) := by decide +kernel

/-- T44.13: `VUNPERM v3, v2`. -/
theorem test_vunperm_perm :
    (after 0x39000320
        { start [] [(2, bv [1, 0, 1, 0])] with indices := ix [0,1,2,4] }).map
      (fun t => (t.resp, t.err)) =
      some (some 5, 5) := by decide +kernel

/-- T44.16: `VHALF0 v2, v1`. -/
theorem test_vhalf0 :
    (after 0x3A000210
        (start [] [(1, bv [1, 0, 0, 1, 1, 1, 0, 0])])).map
      (fun t => (t.resp, t.vec 2)) =
      some (some 0, bv [1, 0, 0, 1]) := by decide +kernel

/-- T44.18: `VHALF0 v2, v1`. -/
theorem test_vhalf0_odd :
    (after 0x3A000210 (start [] [(1, bv [1, 0, 0, 1, 1, 0, 1])])).map (fun t => (t.resp, t.err)) =
      some (some 6, 6) := by decide +kernel

/-- T44.17: `VHALF1 v3, v1`. -/
theorem test_vhalf1 :
    (after 0x3B000310
        (start [] [(1, bv [1, 0, 0, 1, 1, 1, 0, 0])])).map
      (fun t => (t.resp, t.vec 3)) =
      some (some 0, bv [1, 1, 0, 0]) := by decide +kernel

/-- T44.19: `VHALF1 v2, v1`. -/
theorem test_vhalf1_odd :
    (after 0x3B000210 (start [] [(1, bv [1, 0, 0, 1, 1, 0, 1])])).map (fun t => (t.resp, t.err)) =
      some (some 6, 6) := by decide +kernel

/-- T45.1: `POPC s0, v1`. -/
theorem test_popc :
    (after 0x40000010 (start [] [(1, bv [1, 0, 0, 1, 1, 0, 1])])).map (fun t => (t.resp, t.int 0)) =
      some (some 0, 4) := by decide +kernel

/-- T45.5: `POPCS s0, v1`. -/
theorem test_popcs :
    (after 0x41000010 (start [] [(1, bv [1, 0, 0, 1, 1, 0, 1])])).map (fun t => (t.resp, t.int 0)) =
      some (some 0, 4) := by decide +kernel

/-- T45.7: `NSB s0, v1, s2`. -/
theorem test_nsb :
    (after 0x42020010
        (start [(2, 1)] [(1, bv [1, 0, 0, 1, 1, 0, 1])])).map
      (fun t => (t.resp, t.int 0)) =
      some (some 0, 3) := by decide +kernel

/-- T45.10: `NSB s0, v1, s2`. -/
theorem test_nsb_again :
    (after 0x42020010
        (start [(0, 5), (2, -3)] [(1, bv [1, 0, 0, 1, 1, 0, 1])])).map
      (fun t => (t.resp, t.int 0)) =
      some (some 0, 0) := by decide +kernel

/-- T45.15: `RANK s0, v1, s2`. -/
theorem test_rank :
    (after 0x43020010
        (start [(2, 4)] [(1, bv [1, 0, 0, 1, 1, 0, 1])])).map
      (fun t => (t.resp, t.int 0)) =
      some (some 0, 3) := by decide +kernel

/-- T45.17: `RANK s0, v1, s2`. -/
theorem test_rank_index :
    (after 0x43020010
        (start [(2, 7)] [(1, bv [1, 0, 0, 1, 1, 0, 1])])).map
      (fun t => (t.resp, t.err)) =
      some (some 2, 2) := by decide +kernel

/-- T45.19: `ISP2 s0, v1`. -/
theorem test_isp2 :
    (after 0x44000010 (start [] [(1, bv [0, 0, 0, 1, 0, 0, 0])])).map (fun t => (t.resp, t.int 0)) =
      some (some 0, 1) := by decide +kernel

/-- T45.21: `ISP2 s0, v1`. -/
theorem test_isp2_again :
    (after 0x44000010 (start [(0, 5)] [(1, bv [0, 0, 0])])).map (fun t => (t.resp, t.int 0)) =
      some (some 0, 0) := by decide +kernel

/-- T45.24: `ISP2S s0, v1`. -/
theorem test_isp2s :
    (after 0x45000010
        (start [] [(1, List.replicate 200 false ++ bv [1])])).map
      (fun t => (t.resp, t.int 0)) =
      some (some 0, 1) := by decide +kernel

/-- T45.25: `ISP2S s0, v1`. -/
theorem test_isp2s_again :
    (after 0x45000010 (start [(0, 5)] [(1, bv [1, 1])])).map (fun t => (t.resp, t.int 0)) =
      some (some 0, 0) := by decide +kernel

/-- T45.28: `VREV v1, v1`. -/
theorem test_vrev :
    (after 0x46000110 (start [] [(1, bv [1, 1, 0])])).map (fun t => (t.resp, t.vec 1)) =
      some (some 0, bv [0, 1, 1]) := by decide +kernel

/-- T45.30: `VRUNS s0, v1`. -/
theorem test_vruns :
    (after 0x47000010
        { start [] [(1, bv [1, 0, 0, 1, 1, 0, 1])] with indices := ix [9,9] }).map
      (fun t => (t.resp, t.int 0, t.indices)) =
      some (some 0, 1, ix [1,2,2,1,1]) := by decide +kernel

/-- T45.33: `VRUNS s0, v1`. -/
theorem test_vruns_again :
    (after 0x47000010
        { start [(0, 5)] [] with indices := ix [9,9] }).map
      (fun t => (t.resp, t.int 0, t.indices)) =
      some (some 0, 0, ix []) := by decide +kernel

/-- T45.35: `HAMM s0, v1, v2`. -/
theorem test_hamm :
    (after 0x48000012
        (start [] [(1, bv [1, 1, 1, 1, 1, 1, 1, 1]), (2, bv [0, 0, 1, 0, 1, 0, 1, 1])])).map
      (fun t => (t.resp, t.int 0)) =
      some (some 0, 4) := by decide +kernel

/-- T45.38: `HAMM s0, v1, v2`. -/
theorem test_hamm_size :
    (after 0x48000012
        (start [] [(1, bv [1, 1, 1]), (2, bv [1, 1])])).map
      (fun t => (t.resp, t.err)) =
      some (some 4, 4) := by decide +kernel

/-- T45.39: `JSIM s0, s1, v1, v2`. -/
theorem test_jsim :
    (after 0x49010012
        (start [] [(1, bv [1, 1, 1, 1, 1, 1, 1, 1]), (2, bv [0, 0, 1, 0, 1, 0, 1, 1])])).map
      (fun t => (t.resp, t.int 0, t.int 1)) =
      some (some 0, 4, 8) := by decide +kernel

/-- T45.45: `JSIM s1, s1, v1, v2`. -/
theorem test_jsim_illegal :
    (after 0x49110012
        (start [] [(1, bv [0, 0, 0]), (2, bv [0, 0])])).map
      (fun t => (t.resp, t.err)) =
      some (some 1, 1) := by decide +kernel

/-- T45.48: `JDIST s0, s1, v1, v2`. -/
theorem test_jdist :
    (after 0x4A010012
        (start [(0, 3)] [(1, bv [1, 1, 0, 0]), (2, bv [1, 1, 0, 0])])).map
      (fun t => (t.resp, t.int 0, t.int 1)) =
      some (some 0, 0, 2) := by decide +kernel

/-- T45.49: `JDIST s0, s1, v1, v2`. -/
theorem test_jdist_undef :
    (after 0x4A010012
        (start [] [(1, bv [0, 0, 0]), (2, bv [0, 0, 0])])).map
      (fun t => (t.resp, t.err)) =
      some (some 9, 9) := by decide +kernel

/-- T46.1: `GFMUL v3, v1, v2`. -/
theorem test_gfmul :
    (after 0x50000312
        (start [] [(1, bv [0, 1, 1, 0, 0, 0, 1]), (2, bv [0, 1, 1, 0])])).map
      (fun t => (t.resp, t.vec 3)) =
      some (some 0, bv [0, 0, 1, 0, 1, 0, 0, 1, 1, 0]) := by decide +kernel

/-- T46.5: `GFMUL v3, v1, v2`. -/
theorem test_gfmul_again :
    (after 0x50000312 (start [] [(1, bv [1, 0, 0, 1, 1, 0, 1])])).map (fun t => (t.resp, t.vec 3)) =
      some (some 0, bv [0, 0, 0, 0, 0, 0]) := by decide +kernel

/-- T46.11: `GFQUO v3, v1, v2, s5`. -/
theorem test_gfquo :
    (after 0x51050312
        (start [(5, 8)] [(1, bv [0, 1, 0, 1, 0, 1, 1, 0, 1, 1, 1, 1, 0, 0, 1]), (2, bv [1, 0, 0, 0, 1, 1, 0, 1, 1])])).map
      (fun t => (t.resp, t.vec 3)) =
      some (some 0, bv [0, 0, 0, 0, 0, 0, 0, 0, 0, 1, 0, 1, 0, 0, 0]) := by decide +kernel

/-- T46.22: `GFQUO v3, v1, v2, s5`. -/
theorem test_gfquo_value :
    (after 0x51050312
        (start [(5, -1)] [(1, bv [1, 1, 1, 1]), (2, bv [1, 0, 1, 1])])).map
      (fun t => (t.resp, t.err)) =
      some (some 3, 3) := by decide +kernel

/-- T46.12: `GFREM v3, v1, v2, s5`. -/
theorem test_gfrem :
    (after 0x52050312
        (start [(5, 8)] [(1, bv [0, 1, 0, 1, 0, 1, 1, 0, 1, 1, 1, 1, 0, 0, 1]), (2, bv [1, 0, 0, 0, 1, 1, 0, 1, 1])])).map
      (fun t => (t.resp, t.vec 3)) =
      some (some 0, bv [1, 1, 0, 0, 0, 0, 0, 1]) := by decide +kernel

/-- T46.20: `GFREM v3, v1, v2, s5`. -/
theorem test_gfrem_size :
    (after 0x52050312
        (start [(5, 4)] [(1, bv [1, 1, 1, 1]), (2, bv [1, 0, 1, 1])])).map
      (fun t => (t.resp, t.err)) =
      some (some 4, 4) := by decide +kernel

/-- T46.23: `GFMULM v3, v1, v2, v0, s5`. -/
theorem test_gfmulm :
    (after 0x53050312
        (start [(5, 8)] [(0, bv [1, 0, 0, 0, 1, 1, 0, 1, 1]), (1, bv [0, 1, 0, 1, 0, 1, 1, 1]), (2, bv [1, 0, 0, 0, 0, 0, 1, 1])])).map
      (fun t => (t.resp, t.vec 3)) =
      some (some 0, bv [1, 1, 0, 0, 0, 0, 0, 1]) := by decide +kernel

/-- T46.28: `GFMULM v3, v1, v2, v0, s5`. -/
theorem test_gfmulm_size :
    (after 0x53050312
        (start [(5, 2)] [(0, bv [1, 0, 1, 1]), (1, bv [1, 1, 0]), (2, bv [0, 1, 1])])).map
      (fun t => (t.resp, t.err)) =
      some (some 4, 4) := by decide +kernel

/-- T46.29: `GFMI v3, v1, v2, s5`. -/
theorem test_gfmi :
    (after 0x54050312
        { start [(5, 8)] [(1, bv [0, 1, 0, 1, 0, 0, 1, 1]), (2, bv [1, 0, 0, 0, 1, 1, 0, 1, 1])] with nr := true }).map
      (fun t => (t.resp, t.vec 3, t.nr)) =
      some (some 0, bv [1, 1, 0, 0, 1, 0, 1, 0], false) := by decide +kernel

/-- T46.35: `GFMI v3, v1, v2, s5`. -/
theorem test_gfmi_again :
    (after 0x54050312
        (start [(5, 3)] [(1, bv [0, 1, 1]), (2, bv [0, 1, 1, 0]), (3, bv [1])])).map
      (fun t => (t.resp, t.vec 3, t.nr)) =
      some (some 0, [], true) := by decide +kernel

/-- T46.41: `MODINV v3, v1, v2`. -/
theorem test_modinv :
    (after 0x55000312
        (start [] [(1, bv [0, 0, 0, 1, 0, 0, 0, 1]), (2, bv [1, 1, 0, 0, 0, 0, 1, 1, 0, 0, 0, 0])])).map
      (fun t => (t.resp, t.vec 3, t.nr)) =
      some (some 0, bv [1, 0, 1, 0, 1, 1, 0, 0, 0, 0, 0, 1], false) := by decide +kernel

/-- T46.40: `MODINV v3, v1, v2`. -/
theorem test_modinv_again :
    (after 0x55000312
        (start [] [(1, bv [1, 0, 0]), (2, bv [1, 1, 0])])).map
      (fun t => (t.resp, t.vec 3, t.nr)) =
      some (some 0, [], true) := by decide +kernel

/-- T46.47: `VGCD v3, v1, v2`. -/
theorem test_vgcd :
    (after 0x56000312
        (start [] [(1, bv [0, 1, 1, 0, 0]), (2, bv [1, 0, 0, 1, 0])])).map
      (fun t => (t.resp, t.vec 3)) =
      some (some 0, bv [1, 1, 0]) := by decide +kernel

/-- T46.51: `VGCD v3, v1, v2`. -/
theorem test_vgcd_again :
    (after 0x56000312 (start [] [])).map (fun t => (t.resp, t.vec 3)) =
      some (some 0, bv [0]) := by decide +kernel

/-- T46.58: `PRIME s0, v1, s2`. -/
theorem test_prime :
    (after 0x57020010
        { start [(0, 7), (2, 2)] [(1, bv [1, 1, 0, 0, 1])] with entropy := ⟨[7, 2], 0⟩ }).map
      (fun t => (t.resp, t.int 0)) =
      some (some 0, 0) := by decide +kernel

/-- T46.56: `PRIME s0, v1, s2`. -/
theorem test_prime_again :
    (after 0x57020010
        { start [(2, 1)] [(1, bv [1, 1, 0, 0, 1])] with entropy := ⟨[7], 0⟩ }).map
      (fun t => (t.resp, t.int 0)) =
      some (some 0, 1) := by decide +kernel

/-- T46.75: `RANDP v1, s2`. -/
theorem test_randp :
    (after 0x58020100
        { start [(2, 8)] [] with entropy := ⟨[0, 1, 1, 0, 1, 0], 0⟩ }).map
      (fun t => (t.resp, t.vec 1)) =
      some (some 0, bv [1, 0, 1, 1, 0, 1, 0, 1]) := by decide +kernel

/-- T46.81: `RANDP v1, s2`. -/
theorem test_randp_value :
    (after 0x58020100 (start [] [])).map (fun t => (t.resp, t.err)) =
      some (some 3, 3) := by decide +kernel

/-- T47.2: `GETBYTE s0, v1, s2`. -/
theorem test_getbyte :
    (after 0x60020010
        (start [(2, 1)] [(1, bv [0, 1, 0, 0, 0, 0, 0, 1, 0, 1, 0, 0, 0, 0, 1, 0, 0, 1, 1])])).map
      (fun t => (t.resp, t.int 0)) =
      some (some 0, 66) := by decide +kernel

/-- T47.3: `GETBYTE s0, v1, s2`. -/
theorem test_getbyte_index :
    (after 0x60020010
        (start [(2, 2)] [(1, bv [0, 1, 0, 0, 0, 0, 0, 1, 0, 1, 0, 0, 0, 0, 1, 0, 0, 1, 1])])).map
      (fun t => (t.resp, t.err)) =
      some (some 2, 2) := by decide +kernel

/-- T47.10: `APPBYTE v1, s2`. -/
theorem test_appbyte :
    (after 0x61020100 (start [(2, 255)] [(1, bv [1, 0, 1])])).map (fun t => (t.resp, t.vec 1)) =
      some (some 0, bv [1, 0, 1, 1, 1, 1, 1, 1, 1, 1, 1]) := by decide +kernel

/-- T47.12: `APPBYTE v1, s2`. -/
theorem test_appbyte_value :
    (after 0x61020100 (start [(2, 256)] [(1, bv [1, 0, 1])])).map (fun t => (t.resp, t.err)) =
      some (some 3, 3) := by decide +kernel

/-- TD.4: `raw word`. -/
theorem test_reserved_word_illegal :
    (after 0x01100000 { start [] [] with err := 2 }).map (fun t => (t.resp, t.err)) =
      some (some 1, 2) := by decide +kernel

/-- TD.6: `raw word`. -/
theorem test_reserved_word_illegal_again :
    (after 0x20100123 (start [] [(1, bv [1]), (2, bv [1])])).map (fun t => (t.resp, t.err)) =
      some (some 1, 1) := by decide +kernel

/-! ### Witnesses: for each statement with hypotheses, a state and operands that meet them, for every
clause, at the edges of its range. -/

/-- A state whose registers hold the operands the witnesses use. -/
def samples : State :=
  { start [(1, 1), (2, 2), (3, 3), (4, 4), (5, -1), (6, -3), (7, -4), (8, 4096), (9, 4097), (10, 255),
        (11, 256), (12, 8), (13, 2147483647), (14, -2147483648), (15, 7)]
      [(1, bv [1, 0, 1]), (2, bv [0, 1, 1]), (3, bv [0, 0, 0]), (4, bv [1, 0, 1, 1]),
        (5, bv [0, 0, 0, 0]), (6, bv [0, 1, 1, 0]), (7, List.replicate 16 false ++ [true]),
        (8, bv [1, 1, 1]), (9, bv [1, 0, 0, 1]), (10, true :: List.replicate 31 false),
        (11, List.replicate 31 true), (12, bv [0, 1, 0, 0, 0, 0, 0, 1]),
        (13, List.replicate 4096 false), (14, List.replicate 4089 false),
        (15, List.replicate 4088 false)] with
    indices := ix [2, 0, 1] }

theorem test_witness_ResetEventGivesTheResetState :
    ({ samples with host := [.reset] } : State).host = .reset :: [] := rfl

theorem test_witness_StepRunsTheDecodedCommand :
    ({ samples with host := [.command 0x20000312] } : State).host = .command 0x20000312 :: [] ∧
      decode 0x20000312 = .ok (.vand 3 1 2) ∧ samples.host = [] := ⟨rfl, rfl, rfl⟩

/-- The lowest and the highest slot bit, the first and the last opcode of format I. -/
theorem test_witness_UnusedSlotsMustBeZero :
    (∃ r, rowOf (fieldOp 0x23000211) = some r ∧
        ∃ k, k = 0 ∧ k < 24 ∧ r.mask.getLsbD k = true ∧ (0x23000211#32).getLsbD k = true) ∧
      (∃ r, rowOf (fieldOp 0x23800210) = some r ∧
        ∃ k, k = 23 ∧ k < 24 ∧ r.mask.getLsbD k = true ∧ (0x23800210#32).getLsbD k = true) ∧
      ((fieldOp 0x04110007).toNat = 4 ∧ fieldSA 0x04110007 ≠ 0) ∧
      ((fieldOp 0x061F0007).toNat = 6 ∧ fieldSA 0x061F0007 ≠ 0) ∧
      ({ samples with host := [.command 0x20100123] } : State).host = .command 0x20100123 :: [] :=
  ⟨⟨_, rfl, 0, by decide⟩, ⟨_, rfl, 23, by decide⟩, by decide, by decide, rfl⟩

theorem test_witness_UnassignedOpcodesAreReserved :
    ({ samples with host := [.command 0x03000000] } : State).host = .command 0x03000000 :: [] ∧
      unassignedOpcode (fieldOp 0x03000000).toNat = true ∧
      unassignedOpcode (fieldOp 0xFF000000).toNat = true := by decide

/-- A word that decodes, and one that is the word of no instruction. -/
theorem test_witness_DecodedWordIsTheEncoding :
    decode 0x20000312 = .ok (.vand 3 1 2) ∧ ∀ i, encode i ≠ 0xFF000000 := by
  refine ⟨rfl, fun i h => ?_⟩
  have e := congrArg fieldOp h
  rw [show fieldOp 0xFF000000 = 0xFF from rfl] at e
  cases i <;> simp [encode] at e

theorem test_witness_EveryStepYieldsANextState :
    ({ samples with host := [.command 0x20000312] } : State).host = .command 0x20000312 :: [] := rfl

/-- A command that fails, and one that succeeds and is not `CLRERR`. -/
theorem test_witness_FailingCommandChangesOnlyTheLatch :
    ({ samples with host := [.command 0x20000314] } : State).host = .command 0x20000314 :: [] ∧
      (after 0x20000314 samples).map (·.resp) = some (some 4) ∧
      (after 0x20000312 samples).map (·.resp) = some (some 0) ∧
      decode 0x20000312 = .ok (.vand 3 1 2) := ⟨rfl, by decide +kernel, by decide +kernel, rfl⟩

theorem test_witness_EveryStepKeepsTheInvariant :
    ({ samples with host := [.command 0x20000312] } : State).Inv ∧
      ∃ t, step { samples with host := [.command 0x20000312] } = .next t :=
  ⟨⟨by decide +kernel, by decide +kernel, by decide +kernel, by decide, by
    intro c h; cases h⟩, _, rfl⟩

theorem test_witness_CommandWritesOnlyItsDestinations :
    ∃ t, exec (.jsim 1 2 1 2) samples = .next t ∧ 3 ∉ (Instr.jsim 1 2 1 2).scalarDests ∧
      (Instr.jsim 1 2 1 2).vectorDest ≠ some 3 ∧ (Instr.jsim 1 2 1 2).writesIndices = false ∧
      (Instr.jsim 1 2 1 2).writesNr = false ∧ (Instr.jsim 1 2 1 2).draws = false ∧
      (Instr.jsim 1 2 1 2).readsPadding = false := ⟨_, rfl, by decide⟩

theorem test_witness_FreeInputsReachOnlyTheirReaders :
    ∃ t, exec (.vnot 3 1) samples = .next t ∧ (Instr.vnot 3 1).readsPadding = false ∧
      (Instr.vnot 3 1).draws = false := ⟨_, rfl, by decide⟩

theorem test_witness_LaterCommandsAreInvisible : ∃ t, exec (.vnot 3 1) samples = .next t := ⟨_, rfl⟩

theorem test_witness_ReadPortShowsScalarsAndStatus :
    17 ≤ (17#5).toNat ∧ 17 ≤ (31#5).toNat := by decide

theorem test_witness_RegisterReadsBackWhatWasWritten :
    (-2 ^ 31 ≤ (-2147483648 : Int) ∧ (-2147483648 : Int) < 2 ^ 31) ∧
      (-2 ^ 31 ≤ (2147483647 : Int) ∧ (2147483647 : Int) < 2 ^ 31) := by decide

theorem test_witness_IndexListCommandsResult :
    ({ samples with indices := List.replicate 4096 0 } : State).indices.length = samples.params.cap ∧
      ({ samples with indices := List.replicate 4095 0 } : State).indices.length ≠
        samples.params.cap ∧
      samples.int 5 < 0 ∧ samples.indices.length ≤ samples.int 3 ∧
      samples.int 0 = (0 : Nat) ∧ samples.indices[0]? = some 2 ∧
      samples.int 2 = (2 : Nat) ∧ samples.indices[2]? = some 1 := by decide +kernel

theorem test_witness_ConstructingCommandsResult :
    (samples.int 5 < 0 ∧ (0 ≤ samples.int 9 ∧ samples.params.cap < samples.int 9) ∧
        (0 ≤ samples.int 0 ∧ samples.int 0 ≤ samples.params.cap) ∧
        (0 ≤ samples.int 8 ∧ samples.int 8 ≤ samples.params.cap)) ∧
      (samples.int 14 < 0 ∧ 0 ≤ samples.int 0 ∧ 0 ≤ samples.int 13) ∧
      (samples.int 5 < 0 ∧ samples.int 0 < 1 ∧
        2 ^ (samples.int 3).toNat ≤ (samples.int 12).toNat) ∧
      (0 ≤ samples.int 15 ∧ 1 ≤ samples.int 3 ∧
        (samples.int 15).toNat < 2 ^ (samples.int 3).toNat ∧ samples.int 3 ≤ samples.params.cap) ∧
      (0 ≤ samples.int 0 ∧ 1 ≤ samples.int 9 ∧
        (samples.int 0).toNat < 2 ^ (samples.int 9).toNat ∧
        samples.params.cap < samples.int 9) := by decide +kernel

theorem test_witness_ValueAndSizeCommandsResult :
    2 ^ 31 - 1 < intOf (samples.vec 10) ∧ intOf (samples.vec 11) ≤ 2 ^ 31 - 1 := by decide +kernel

theorem test_witness_SingleBitCommandsResult :
    (samples.size 1 : Int) ≤ samples.int 3 ∧ (samples.size 1 : Int) < -samples.int 7 ∧
      (samples.int 2 = (2 : Nat) ∧ (samples.vec 1)[2]? = some true ∧ 2 < samples.size 1) ∧
      (samples.int 6 < 0 ∧ samples.int 6 + samples.size 1 = (0 : Nat) ∧
        (samples.vec 1)[0]? = some true ∧ 0 < samples.size 1) ∧
      (samples.int 5 ≠ 0 ∧ samples.int 5 ≠ 1) ∧ (samples.int 2 ≠ 0 ∧ samples.int 2 ≠ 1) ∧
      samples.int 0 = 0 ∧ samples.int 1 = 1 := by decide +kernel

theorem test_witness_FillAndCopyResult :
    (samples.int 2 ≠ 0 ∧ samples.int 2 ≠ 1) ∧ samples.int 0 = 0 ∧ samples.int 1 = 1 := by
  decide +kernel

theorem test_witness_SliceCommandsResult :
    (¬(0 ≤ samples.int 5 ∧ samples.int 5 ≤ samples.int 2 ∧ samples.int 2 ≤ samples.size 1)) ∧
      (¬(0 ≤ samples.int 2 ∧ samples.int 2 ≤ samples.int 1 ∧ samples.int 1 ≤ samples.size 1)) ∧
      (¬(0 ≤ samples.int 0 ∧ samples.int 0 ≤ samples.int 4 ∧ samples.int 4 ≤ samples.size 1)) ∧
      (0 ≤ samples.int 0 ∧ samples.int 0 ≤ samples.int 3 ∧ samples.int 3 ≤ samples.size 1) ∧
      (0 ≤ samples.int 3 ∧ samples.int 3 ≤ samples.int 3 ∧ samples.int 3 ≤ samples.size 1) ∧
      (samples.size 1 : Int) ≠ samples.int 2 - samples.int 0 ∧
      (0 ≤ samples.int 1 ∧ samples.int 1 ≤ samples.int 4 ∧ samples.int 4 ≤ samples.size 4 ∧
        (samples.size 1 : Int) = samples.int 4 - samples.int 1) := by decide +kernel

theorem test_witness_GetwReadsTheStorageWord :
    samples.params.Legal ∧ samples.int 5 < 0 ∧
      (samples.size 7 : Int) ≤ samples.int 2 * samples.params.wordWidth ∧
      (samples.int 0 = (0 : Nat) ∧ 0 * samples.params.wordWidth < samples.size 7) ∧
      (samples.int 1 = (1 : Nat) ∧ 1 * samples.params.wordWidth < samples.size 7) := by
  decide +kernel

/-- The last word of a 17-bit vector: one bit of the vector, 15 padding bits, here all 1. -/
theorem test_witness_GetwAllowsEveryPaddingValue :
    samples.params.Legal ∧ samples.int 1 = (1 : Nat) ∧
      1 * samples.params.wordWidth < samples.size 7 ∧
      (∀ t, t < samples.params.wordWidth → 1 * samples.params.wordWidth + t < samples.size 7 →
        (0xFFFF#32).getLsbD t = (samples.vec 7).getD (1 * samples.params.wordWidth + t) false) ∧
      ∀ t, samples.params.wordWidth ≤ t → (0xFFFF#32).getLsbD t = false := by
  refine ⟨by decide +kernel, by decide +kernel, by decide +kernel, by decide +kernel, fun t h => ?_⟩
  have h16 : 16 ≤ t := h
  exact Nat.testBit_lt_two_pow (lt_of_lt_of_le (by decide) (Nat.pow_le_pow_right (by decide) h16))

theorem test_witness_SetwWritesTheStorageWord :
    samples.params.Legal ∧ samples.int 5 < 0 ∧
      (samples.size 7 : Int) ≤ samples.int 2 * samples.params.wordWidth ∧
      (samples.int 1 = (1 : Nat) ∧ 1 * samples.params.wordWidth < samples.size 7) := by
  decide +kernel

theorem test_witness_LogicalCommandsResult :
    ((0x20#8 = 0x20 ∧ Instr.vand 3 1 2 = .vand 3 1 2 ∧ and = and) ∧
        (0x21#8 = 0x21 ∧ Instr.vor 3 1 2 = .vor 3 1 2 ∧ or = or) ∧
        (0x22#8 = 0x22 ∧ Instr.vxor 3 1 2 = .vxor 3 1 2 ∧ xor = xor)) ∧
      samples.size 1 = samples.size 2 ∧ samples.size 1 ≠ samples.size 4 := by
  refine ⟨⟨⟨rfl, rfl, rfl⟩, ⟨rfl, rfl, rfl⟩, rfl, rfl, rfl⟩, ?_⟩
  decide +kernel

theorem test_witness_VcatAppendsTheSecondOperand :
    samples.params.cap < samples.size 13 + samples.size 1 ∧
      samples.size 13 + samples.size 0 ≤ samples.params.cap := by decide +kernel

theorem test_witness_ComparisonsCompareTheValues :
    intOf (samples.vec 1) = 5 ∧ intOf (samples.vec 2) = 3 := by decide +kernel

/-- "011" stands in "1011"; "111" does not stand in "101". -/
theorem test_witness_VcontTestsForASubstring :
    (True ↔ ∃ p, p + samples.size 2 ≤ samples.size 4 ∧
        ∀ t, t < samples.size 2 →
          (samples.vec 4).getD (p + t) false = (samples.vec 2).getD t false) ∧
      (False ↔ ∃ p, p + samples.size 8 ≤ samples.size 1 ∧
        ∀ t, t < samples.size 8 →
          (samples.vec 1).getD (p + t) false = (samples.vec 8).getD t false) := by
  refine ⟨⟨fun _ => ⟨1, by decide +kernel⟩, fun _ => trivial⟩, ⟨False.elim, ?_⟩⟩
  rintro ⟨p, h1, h2⟩
  have h3 : p + 3 ≤ 3 := h1
  obtain rfl : p = 0 := by omega
  exact absurd (h2 1 (by decide +kernel)) (by decide +kernel)

theorem test_witness_CircularShiftsResult :
    samples.int 14 < 0 ∧ samples.int 0 = (0 : Nat) ∧ samples.int 13 = (2147483647 : Nat) := by
  decide +kernel

theorem test_witness_LinearShiftsResult :
    samples.int 5 < 0 ∧ samples.int 0 = (0 : Nat) ∧ samples.int 13 = (2147483647 : Nat) := by
  decide +kernel

theorem test_witness_ShiftLaws :
    0 ≤ samples.int 2 ∧
      (2147483646 + 1 < 2 ^ 31 ∧ Instr.vrol 1 2 = .vrol 1 2 ∧ Instr.vror 1 2 = .vror 1 2 ∧
        Instr.vshl 1 2 = .vshl 1 2 ∧ Instr.vshr 1 2 = .vshr 1 2) ∧
      samples.int 0 = (0 : Nat) ∧ samples.int 13 = (2147483647 : Nat) := by decide +kernel

theorem test_witness_VpermCollectsTheIndexedBits :
    (∃ i ∈ ({ samples with indices := ix [0, -1] } : State).indices,
        i.toInt < 0 ∨ samples.size 1 ≤ i.toInt) ∧
      (∃ i ∈ ({ samples with indices := ix [0, 3] } : State).indices,
        i.toInt < 0 ∨ samples.size 1 ≤ i.toInt) ∧
      ∀ i ∈ samples.indices, 0 ≤ i.toInt ∧ i.toInt < samples.size 1 :=
  ⟨⟨-1, by decide +kernel⟩, ⟨3, by decide +kernel⟩,
    (indicesInRange_iff samples.indices (samples.size 1)).1 (by decide +kernel)⟩

/-- With the list 0, 0, 1: position 2 is named by no entry, entry 1 is the last to name position 0. -/
theorem test_witness_VunpermPlacesTheBits :
    samples.indices.length ≠ samples.size 4 ∧
      ((ix [0, 3, 1]).length = samples.size 1 ∧
        ∃ i ∈ ix [0, 3, 1], i.toInt < 0 ∨ samples.size 1 ≤ i.toInt) ∧
      ((ix [0, 0, 1]).length = samples.size 1 ∧
        ∀ i ∈ ix [0, 0, 1], 0 ≤ i.toInt ∧ i.toInt < samples.size 1) ∧
      (2 < samples.size 1 ∧ ∀ i ∈ ix [0, 0, 1], i.toInt ≠ (2 : Nat)) ∧
      (ix [0, 0, 1])[1]? = some 0 ∧
      ∀ (j : Nat) (i : Scalar), 1 < j → (ix [0, 0, 1])[j]? = some i → i ≠ 0 := by
  refine ⟨by decide +kernel, ⟨rfl, 3, by decide +kernel⟩,
    ⟨rfl, (indicesInRange_iff (ix [0, 0, 1]) (samples.size 1)).1 (by decide +kernel)⟩,
    ⟨by decide +kernel, ?_⟩, rfl, ?_⟩
  · simp only [ix, List.map_cons, List.map_nil, List.forall_mem_cons, List.not_mem_nil]
    exact ⟨by decide, by decide, by decide, nofun⟩
  intro j i hj h
  rcases j with _ | _ | _ | j
  · omega
  · omega
  · obtain rfl : 1 = i := by simpa [ix] using h
    decide
  · simp [ix] at h

theorem test_witness_UnpermuteUndoesPermute :
    samples.indices.length = samples.size 1 ∧ samples.indices.Nodup ∧
      ∀ i ∈ samples.indices, 0 ≤ i.toInt ∧ i.toInt < samples.size 1 :=
  ⟨by decide +kernel, by decide +kernel,
    (indicesInRange_iff samples.indices (samples.size 1)).1 (by decide +kernel)⟩

theorem test_witness_HalvingCommandsResult :
    samples.size 1 % 2 = 1 ∧ samples.size 4 % 2 = 0 ∧ samples.size 0 % 2 = 0 := by decide +kernel

theorem test_witness_ConcatenationLaws :
    samples.size 13 + samples.size 0 ≤ samples.params.cap ∧
      ((1 : VReg) ≠ 13 ∧ (2 : VReg) ≠ 1 ∧ samples.size 13 % 2 = 0 ∧
        samples.size 13 ≤ samples.params.cap) ∧
      (0 ≤ samples.int 10 ∧ samples.int 10 ≤ 255 ∧ samples.size 12 % 8 = 0 ∧
        samples.size 12 + 8 ≤ samples.params.cap ∧
        samples.int 1 = (samples.size 12 / 8 : Nat)) := by decide +kernel

theorem test_witness_PopulationCountResult :
    countBelow (samples.size 1) (fun k => (samples.vec 1).getD k false) = 2 := by decide +kernel

theorem test_witness_SearchAndRankResult :
    ((samples.vec 1)[2]? = some true ∧ samples.int 1 ≤ (2 : Nat) ∧
        ∀ q : Nat, q < 2 → samples.int 1 ≤ q → (samples.vec 1)[q]? = some false) ∧
      (∀ p : Nat, samples.int 3 ≤ p → (samples.vec 1)[p]? ≠ some true) ∧
      samples.int 5 < 0 ∧ samples.size 1 ≤ samples.int 3 ∧
      (samples.int 2 = (2 : Nat) ∧ (samples.vec 1)[2]? = some true) ∧
      (samples.int 1 = (1 : Nat) ∧ (samples.vec 1)[1]? = some false) := by
  refine ⟨by decide +kernel, fun p h => ?_, by decide +kernel, by decide +kernel, by decide +kernel,
    by decide +kernel⟩
  have h3 : (3 : Int) ≤ p := h
  have hl : (samples.vec 1).length ≤ p := by
    rw [show (samples.vec 1).length = 3 from rfl]; omega
  rw [List.getElem?_eq_none hl]
  exact nofun

theorem test_witness_MetricsResult :
    countBelow (samples.size 1) (fun k => (samples.vec 1).getD k false != (samples.vec 2).getD k false) =
        2 ∧
      countBelow (samples.size 1)
        (fun k => (samples.vec 1).getD k false && (samples.vec 2).getD k false) = 1 ∧
      countBelow (samples.size 1)
        (fun k => (samples.vec 1).getD k false || (samples.vec 2).getD k false) = 3 ∧
      countBelow (samples.size 3)
        (fun k => (samples.vec 3).getD k false || (samples.vec 3).getD k false) = 0 ∧
      samples.size 1 = samples.size 2 ∧ samples.size 1 ≠ samples.size 4 ∧ (1 : SReg) ≠ 2 := by
  decide +kernel

theorem test_witness_GfmulMultipliesThePolynomials :
    samples.params.cap < samples.size 13 + samples.size 1 - 1 ∧
      samples.size 0 + samples.size 0 - 1 ≤ samples.params.cap ∧
      samples.size 1 + samples.size 2 - 1 ≤ samples.params.cap := by decide +kernel

theorem test_witness_ModulusChecksInOrder :
    (Instr.gfquo 3 1 4 3 = .gfquo 3 1 4 3 ∧ Instr.gfrem 3 1 4 3 = .gfrem 3 1 4 3 ∧
        Instr.gfmulm 3 1 2 4 3 = .gfmulm 3 1 2 4 3 ∧ Instr.gfmi 3 1 4 3 = .gfmi 3 1 4 3) ∧
      samples.int 0 < 1 ∧ (1 ≤ samples.int 2 ∧ (samples.size 4 : Int) ≠ samples.int 2 + 1) ∧
      (1 ≤ samples.int 3 ∧ (samples.size 5 : Int) = samples.int 3 + 1 ∧
        ∀ b ∈ samples.vec 5, b = false) ∧
      (1 ≤ samples.int 3 ∧ (samples.size 4 : Int) = samples.int 3 + 1 ∧
        ∃ b ∈ samples.vec 4, b = true) := by decide +kernel

theorem test_witness_GfquoAndGfremDivideThePolynomials :
    1 ≤ samples.int 3 ∧ (samples.size 4 : Int) = samples.int 3 + 1 ∧ ∃ b ∈ samples.vec 4, b = true := by
  decide +kernel

theorem test_witness_GfmulmMultipliesModuloTheModulus :
    1 ≤ samples.int 3 ∧ (samples.size 6 : Int) = samples.int 3 + 1 ∧ ∃ b ∈ samples.vec 6, b = true := by
  decide +kernel

/-- "101" has an inverse modulo "1011" (x^3 + x + 1), and "000" has none. -/
theorem test_witness_GfmiFindsTheInverse :
    (1 ≤ samples.int 3 ∧ (samples.size 4 : Int) = samples.int 3 + 1 ∧
        ∃ b ∈ samples.vec 4, b = true) ∧
      (polyOf (samples.vec 1) % polyOf (samples.vec 4) ≠ 0 ∧
        IsCoprime (polyOf (samples.vec 1)) (polyOf (samples.vec 4))) ∧
      ¬(polyOf (samples.vec 3) % polyOf (samples.vec 4) ≠ 0 ∧
        IsCoprime (polyOf (samples.vec 3)) (polyOf (samples.vec 4))) := by
  refine ⟨by decide +kernel, ?_, ?_⟩
  · rw [polyOf_eq, polyOf_eq, ← (polyInverse_spec _ _ (by decide +kernel)).2]
    decide +kernel
  · rw [polyOf_eq, polyOf_eq, ← (polyInverse_spec _ _ (by decide +kernel)).2]
    decide +kernel

theorem test_witness_ModinvFindsTheInverse :
    intOf (samples.vec 3) = 0 ∧ (intOf (samples.vec 8) ≠ 0 ∧
        Nat.gcd (intOf (samples.vec 1)) (intOf (samples.vec 8)) = 1) ∧
      (intOf (samples.vec 6) ≠ 0 ∧
        Nat.gcd (intOf (samples.vec 9)) (intOf (samples.vec 6)) ≠ 1) := by decide +kernel

theorem test_witness_PrimeCasesWithoutDraws :
    samples.int 0 < 1 ∧ 1 ≤ samples.int 1 ∧ intOf (samples.vec 0) < 2 ∧
      (intOf (samples.vec 6) % 2 = 0 ∧ intOf (samples.vec 6) ≠ 2) ∧ intOf (samples.vec 2) = 3 ∧
      (5 ≤ intOf (samples.vec 1) ∧ intOf (samples.vec 1) % 2 = 1) := by decide +kernel

/-- 7 passes the round of base 2; 9 does not. -/
theorem test_witness_PrimeIsTheMillerRabinTest :
    (5 ≤ intOf (samples.vec 8) ∧ intOf (samples.vec 8) % 2 = 1 ∧ 1 ≤ samples.int 1 ∧
        samples.int 1 = [2].length ∧ (∀ a ∈ [2], 2 ≤ a ∧ a ≤ intOf (samples.vec 8) - 2) ∧
        ({ samples with entropy := ⟨[2], 0⟩ } : State).entropy.supplied = [2] ++ [] ∧
        ∀ a ∈ [2], PassesRound (intOf (samples.vec 8)) a) ∧
      (5 ≤ intOf (samples.vec 9) ∧ intOf (samples.vec 9) % 2 = 1 ∧
        (∀ a ∈ [2], 2 ≤ a ∧ a ≤ intOf (samples.vec 9) - 2) ∧
        ∃ a ∈ [2], ¬PassesRound (intOf (samples.vec 9)) a) := by
  refine ⟨⟨by decide +kernel, by decide +kernel, by decide +kernel, by decide +kernel,
    by decide +kernel, rfl, fun a ha => ?_⟩, by decide +kernel, by decide +kernel, by decide +kernel,
    2, by decide, fun h => ?_⟩
  · rw [← roundPasses_iff (r := 1) (d := 3) a (by decide) (by decide) (by decide +kernel)]
    obtain rfl : a = 2 := by simpa using ha
    decide +kernel
  · rw [← roundPasses_iff (r := 3) (d := 1) 2 (by decide) (by decide) (by decide +kernel)] at h
    exact absurd h (by decide +kernel)

theorem test_witness_PrimeNeverRejectsAPrime :
    1 ≤ samples.int 1 ∧ Nat.Prime (intOf (samples.vec 8)) := by
  refine ⟨by decide +kernel, ?_⟩
  rw [show intOf (samples.vec 8) = 7 by decide +kernel]
  norm_num

theorem test_witness_RandpMakesAnOddCandidate :
    samples.int 0 < 1 ∧ (1 ≤ samples.int 9 ∧ samples.params.cap < samples.int 9) ∧
      (1 ≤ samples.int 1 ∧ samples.int 1 ≤ samples.params.cap) ∧
      (1 ≤ samples.int 8 ∧ samples.int 8 ≤ samples.params.cap) ∧
      ((([] : BitArray).length : Int) = samples.int 2 - 2 ∧
        samples.entropy.supplied = ([] : BitArray).map Bool.toNat ++ []) ∧
      (((bv [0, 1]).length : Int) = samples.int 4 - 2 ∧
        ({ samples with entropy := ⟨[0, 1], 0⟩ } : State).entropy.supplied =
          (bv [0, 1]).map Bool.toNat ++ []) := by decide +kernel

theorem test_witness_ByteCommandsResult :
    (samples.int 5 < 0 ∧ (samples.size 12 / 8 : Nat) ≤ samples.int 1 ∧
        samples.int 0 = (0 : Nat) ∧ 0 < samples.size 12 / 8) ∧
      (samples.int 5 < 0 ∧ 255 < samples.int 11) ∧
      (0 ≤ samples.int 10 ∧ samples.int 10 ≤ 255 ∧
        samples.params.cap < samples.size 14 + 8) ∧
      (0 ≤ samples.int 0 ∧ samples.int 0 ≤ 255 ∧ samples.size 15 + 8 ≤ samples.params.cap) := by
  decide +kernel

theorem test_witness_VbitsBuildsAnySequence :
    ((1 : SReg) ≠ 2 ∧ (List.replicate 4096 true).length ≤ 32767 ∧
        (List.replicate 4096 true).length ≤ samples.params.cap) ∧
      ([.sli 1 4096] ≠ ([] : List Instr) ∧
        [.sli 1 4096] <+: vbits 3 1 2 (List.replicate 4096 true)) ∧
      (List.replicate 4096 true)[0]? = some true ∧
      (List.replicate 4096 true)[4095]? = some true := by
  refine ⟨by rw [List.length_replicate]; decide +kernel, ⟨by simp, ?_⟩,
    List.getElem?_replicate_of_lt (by omega), List.getElem?_replicate_of_lt (by omega)⟩
  simp only [vbits, List.length_replicate]
  exact List.prefix_append [_] _

end Sys2Proof.Tests
end

section
/-! The statements of 00_scope.md: the integer value of a vector. -/

namespace Sys2Proof.Machine

/-- 00_scope.md R6. The first bit carries the highest power, so the sum satisfies the recursion of
`intOf_cons`: its term 0 is the head's, and term `k + 1` is term `k` of the tail's sum. -/
theorem intOf_eq_sum (v : BitArray) :
    intOf v = ∑ k ∈ Finset.range v.length, (v.getD k false).toNat * 2 ^ (v.length - 1 - k) := by
  induction v with
  | nil => simp
  | cons b v ih =>
    have exponent_succ (k : Nat) : v.length - 1 - k = v.length - (k + 1) := by omega
    rw [intOf_cons, ih, List.length_cons, Finset.sum_range_succ']
    simp only [List.getD_cons_succ, List.getD_cons_zero, Nat.add_sub_cancel, Nat.sub_zero,
      exponent_succ]
    exact Nat.add_comm _ _

/-- Settles O18: the sum by induction on the vector, the leading zeros by `intOf_zeros_append`. -/
theorem integerValueIsBigEndian : Obligations.IntegerValueIsBigEndian :=
  ⟨intOf_eq_sum, intOf_nil, fun v n => intOf_zeros_append n v, by decide⟩

end Sys2Proof.Machine
end

section
/-! The statements of 10_state.md: the reset values. -/

namespace Sys2Proof.Machine

@[simp] theorem State.reset_scalar (r : SReg) : State.reset.scalar r = 0 :=
  Vector.getElem_replicate r.isLt

@[simp] theorem State.reset_vec (r : VReg) : State.reset.vec r = [] :=
  Vector.getElem_replicate r.isLt

/-- 10_state.md R26: `ERR` and `NR` are the only bits of `STATUS` that can be set. -/
theorem State.status_eq_zero_iff (s : State) : s.status = 0 ↔ s.err = 0 ∧ s.nr = false := by
  have status_value := status_toNat s
  rw [← BitVec.toNat_inj, ← BitVec.toNat_inj, ← Bool.toNat_eq_zero]
  simp only [BitVec.ofNat_eq_ofNat, BitVec.toNat_ofNat, Nat.zero_mod]
  omega

/-- Settles O1: the registers are replicated vectors, and `STATUS` is 0 because `ERR` and `NR` are. -/
theorem resetHoldsTheResetValues : Obligations.ResetHoldsTheResetValues :=
  have err_zero : State.reset.err = 0 := rfl
  have nr_clear : State.reset.nr = false := rfl
  ⟨State.reset_scalar, State.reset_vec, rfl, (State.status_eq_zero_iff _).mpr ⟨err_zero, nr_clear⟩,
    err_zero, nr_clear⟩

end Sys2Proof.Machine
end

section
/-! The statements of 30_encoding.md: the words that are no instruction's (R76, R77). -/

namespace Sys2Proof

/-! ### The mask test, slot bit by slot bit (R76) -/

/-- 30_encoding.md R75: `match` has zeros in every slot. -/
theorem OpcodeRow.getLsbD_matchWord (r : OpcodeRow) {k : Nat} (hk : k < 24) :
    r.matchWord.getLsbD k = false := by
  rw [OpcodeRow.matchWord, BitVec.getLsbD_append, if_pos hk, BitVec.getLsbD_zero]

/-- One set bit of an unused slot is enough to fail the decoder's test: it survives the mask, where
`match` has a zero. -/
theorem OpcodeRow.and_mask_ne_matchWord (r : OpcodeRow) {w : Command} {k : Nat} (hk : k < 24)
    (unused : r.mask.getLsbD k = true) (set : w.getLsbD k = true) : w &&& r.mask ≠ r.matchWord := by
  intro passes
  have kept : (w &&& r.mask).getLsbD k = true := by rw [BitVec.getLsbD_and, unused, set]; rfl
  rw [passes, r.getLsbD_matchWord hk] at kept
  cases kept

/-- 30_encoding.md R72: bits 19:16 are an unused slot of the three instructions of format I. -/
theorem rowOf_formatI {op : BitVec 8} (lo : 0x04 ≤ op.toNat) (hi : op.toNat ≤ 0x06) :
    ∃ r, rowOf op = some r ∧ ∀ j, j < 4 → r.mask.getLsbD (16 + j) = true := by
  obtain rfl | rfl | rfl : op = 0x04#8 ∨ op = 0x05#8 ∨ op = 0x06#8 := by bv_omega
  all_goals exact ⟨_, rfl, by decide⟩

theorem exists_set_bit_of_fieldSA_ne_zero {w : Command} (h : fieldSA w ≠ 0) :
    ∃ j, j < 4 ∧ w.getLsbD (16 + j) = true := by
  by_contra none_set
  refine h (BitVec.eq_of_getLsbD_eq fun j hj => ?_)
  have clear : w.getLsbD (16 + j) = false := by
    rw [← Bool.not_eq_true]
    exact fun set => none_set ⟨j, hj, set⟩
  simp [fieldSA, BitVec.getLsbD_extractLsb', clear]

/-! ### The opcodes of the map (R75, R77) -/

/-- 30_encoding.md R75 against R77: read in order, the opcodes of the map are the opcodes that the
ranges leave out. This one comparison of the two tables carries everything said about R77. -/
theorem opcodes_of_opcodeMap :
    opcodeMap.map (fun r => r.op.toNat) = (List.range 256).filter (fun op => !unassignedOpcode op) := by
  decide

theorem rowOf_isSome_iff_mem (op : BitVec 8) :
    (rowOf op).isSome = true ↔ op.toNat ∈ opcodeMap.map (fun r => r.op.toNat) := by
  simp only [rowOf, List.find?_isSome, beq_iff_eq, List.mem_map, BitVec.toNat_inj]

theorem unassignedOpcode_eq_false_iff (op : BitVec 8) :
    unassignedOpcode op.toNat = false ↔ (rowOf op).isSome = true := by
  have in_range : op.toNat < 256 := op.isLt
  rw [rowOf_isSome_iff_mem, opcodes_of_opcodeMap, List.mem_filter, List.mem_range,
    Bool.not_eq_true']
  exact (and_iff_right in_range).symm

theorem rowOf_eq_none_of_unassigned {op : BitVec 8} (h : unassignedOpcode op.toNat = true) :
    rowOf op = none := by
  rw [← Option.not_isSome_iff_eq_none, ← unassignedOpcode_eq_false_iff, h]
  exact Bool.noConfusion

theorem length_opcodeMap : opcodeMap.length = 65 := rfl

/-- 30_encoding.md R77's count: the opcodes that the 65 rows leave of 256. -/
theorem countBelow_unassignedOpcode : Machine.countBelow 256 unassignedOpcode = 191 := by
  have assigned : ((List.range 256).filter (fun op => !unassignedOpcode op)).length = 65 := by
    rw [← opcodes_of_opcodeMap, List.length_map, length_opcodeMap]
  have both := List.length_eq_length_filter_add (l := List.range 256) unassignedOpcode
  rw [List.length_range, assigned] at both
  unfold Machine.countBelow
  omega

namespace Machine

/-! ### Executing a reserved word -/

theorem step_of_reserved {s : State} {w : Command} {rest : List HostEvent}
    (hs : s.host = .command w :: rest) (reserved : ∃ e, decode w = .error e) :
    step s = .next (failed .illegal { s with host := rest }) := by
  obtain ⟨e, he⟩ := reserved
  rw [step_command hs, runCommand_of_error he]
  rfl

theorem step_of_unusedSlot {s : State} {w : Command} {rest : List HostEvent} {r : OpcodeRow} {k : Nat}
    (hs : s.host = .command w :: rest) (hr : rowOf (fieldOp w) = some r) (hk : k < 24)
    (unused : r.mask.getLsbD k = true) (set : w.getLsbD k = true) :
    step s = .next (failed .illegal { s with host := rest }) :=
  step_of_reserved hs
    ((decode_eq_error_iff w).mpr (.inr ⟨r, hr, r.and_mask_ne_matchWord hk unused set⟩))

theorem step_of_formatI_unusedSlot {s : State} {w : Command} {rest : List HostEvent}
    (hs : s.host = .command w :: rest) (lo : 0x04 ≤ (fieldOp w).toNat) (hi : (fieldOp w).toNat ≤ 0x06)
    (hsa : fieldSA w ≠ 0) : step s = .next (failed .illegal { s with host := rest }) := by
  obtain ⟨r, hr, unused⟩ := rowOf_formatI lo hi
  obtain ⟨j, hj, set⟩ := exists_set_bit_of_fieldSA_ne_zero hsa
  exact step_of_unusedSlot hs hr (by omega) (unused j hj) set

/-- Settles O4: a set bit of an unused slot fails the mask test; for format I it is one of bits 19:16. -/
theorem unusedSlotsMustBeZero : Obligations.UnusedSlotsMustBeZero := by
  refine ⟨?_, fun _ _ _ => step_of_formatI_unusedSlot, ?_⟩
  · rintro s w rest r hs hr ⟨k, hk, unused, set⟩
    exact step_of_unusedSlot hs hr hk unused set
  · intro s rest hs
    have vand_with_sd : decode 0x20100123#32 = .error (.unusedSlotNotZero "VAND") := rfl
    exact step_of_reserved hs ⟨_, vand_with_sd⟩

/-- Settles O5: an opcode of the ranges has no row, so its word is reserved; the counts follow from the
comparison of the ranges with the map. -/
theorem unassignedOpcodesAreReserved : Obligations.UnassignedOpcodesAreReserved := by
  refine ⟨fun s w rest hs unassigned => step_of_reserved hs ?_, unassignedOpcode_eq_false_iff,
    countBelow_unassignedOpcode, length_opcodeMap⟩
  exact (decode_eq_error_iff w).mpr (.inl (rowOf_eq_none_of_unassigned unassigned))

end Machine

end Sys2Proof
end

section
/-! The statements of 40_system_scalar.md: the system, scalar and index-list instructions. -/

namespace Sys2Proof

/-! ### Reading back a word the encoder wrote (30_encoding.md R82) -/

/-- The word of an instruction passes its row's mask test, so the decoder answers what the row builds
from the word's slots; `built` says that those slots hold the instruction's operands. -/
theorem decode_encode_of_row {i : Instr} {op : BitVec 8} {r : OpcodeRow}
    (passes : Laws.EncodeMatchesRow.Statement i) (opcode : fieldOp (encode i) = op)
    (row : rowOf op = some r) (built : r.build (encode i) = i) : decode (encode i) = .ok i := by
  obtain ⟨r', row', masked⟩ := passes
  obtain rfl : r = r' := Option.some.inj (row.symm.trans (opcode ▸ row'))
  rw [Machine.decode_of_matches row' masked, built]

theorem decode_encode_rdst (sd : SReg) : decode (encode (.rdst sd)) = .ok (.rdst sd) :=
  decode_encode_of_row (Laws.EncodeMatchesRow.rdst sd) (fieldOp_formatR ..) rfl
    (congrArg Instr.rdst (fieldSD_formatR ..))

theorem decode_encode_sli (sd : SReg) (imm16 : BitVec 16) :
    decode (encode (.sli sd imm16)) = .ok (.sli sd imm16) :=
  decode_encode_of_row (Laws.EncodeMatchesRow.sli sd imm16) (fieldOp_formatI ..) rfl
    (congrArg₂ Instr.sli (fieldSD_formatI ..) (fieldImm16_formatI ..))

theorem decode_encode_slih (sd : SReg) (imm16 : BitVec 16) :
    decode (encode (.slih sd imm16)) = .ok (.slih sd imm16) :=
  decode_encode_of_row (Laws.EncodeMatchesRow.slih sd imm16) (fieldOp_formatI ..) rfl
    (congrArg₂ Instr.slih (fieldSD_formatI ..) (fieldImm16_formatI ..))

theorem decode_encode_saddi (sd : SReg) (imm16 : BitVec 16) :
    decode (encode (.saddi sd imm16)) = .ok (.saddi sd imm16) :=
  decode_encode_of_row (Laws.EncodeMatchesRow.saddi sd imm16) (fieldOp_formatI ..) rfl
    (congrArg₂ Instr.saddi (fieldSD_formatI ..) (fieldImm16_formatI ..))

theorem decode_encode_ixpush (sa : SReg) : decode (encode (.ixpush sa)) = .ok (.ixpush sa) :=
  decode_encode_of_row (Laws.EncodeMatchesRow.ixpush sa) (fieldOp_formatR ..) rfl
    (congrArg Instr.ixpush (fieldSA_formatR ..))

theorem decode_encode_ixlen (sd : SReg) : decode (encode (.ixlen sd)) = .ok (.ixlen sd) :=
  decode_encode_of_row (Laws.EncodeMatchesRow.ixlen sd) (fieldOp_formatR ..) rfl
    (congrArg Instr.ixlen (fieldSD_formatR ..))

theorem decode_encode_ixget (sd sa : SReg) : decode (encode (.ixget sd sa)) = .ok (.ixget sd sa) :=
  decode_encode_of_row (Laws.EncodeMatchesRow.ixget sd sa) (fieldOp_formatR ..) rfl
    (congrArg₂ Instr.ixget (fieldSD_formatR ..) (fieldSA_formatR ..))

namespace Machine

/-! ### The values the scalar instructions write -/

/-- 10_state.md R26: the status register as the number the rule of `RDST` names. -/
theorem status_eq_ofInt (s : State) :
    s.status = BitVec.ofInt 32 (s.err.toNat + 256 * s.nr.toNat) := by
  have value : (s.err.toNat + 256 * s.nr.toNat : Int) = (s.status.toNat : Nat) := by
    rw [status_toNat]; push_cast; rfl
  rw [value, BitVec.ofInt_natCast, BitVec.ofNat_toNat, BitVec.setWidth_eq]

/-- 30_encoding.md R74: the sign extension keeps the integer. -/
theorem signedImm_eq_ofInt (imm16 : BitVec 16) : signedImm imm16 = BitVec.ofInt 32 imm16.toInt := rfl

/-- The pattern moved up 16 bits and the zero-extended immediate share no bit, so the `|` of
40_system_scalar.md R94 adds them. -/
theorem shiftLeft_or_unsignedImm (x : Scalar) (imm16 : BitVec 16) :
    x <<< 16 ||| unsignedImm imm16 = BitVec.ofNat 32 (x.toNat * 2 ^ 16 + imm16.toNat) := by
  have disjoint : x <<< 16 &&& unsignedImm imm16 = 0#32 := by
    apply BitVec.eq_of_getLsbD_eq
    intro k hk
    by_cases low : k < 16
    · simp [low]
    · simp [unsignedImm, BitVec.getLsbD_of_ge imm16 k (Nat.le_of_not_lt low)]
  rw [← BitVec.add_eq_or_of_and_eq_zero _ _ disjoint]
  apply BitVec.eq_of_toNat_eq
  simp [unsignedImm, BitVec.toNat_add, Nat.shiftLeft_eq]

/-- 40_system_scalar.md R95: addition of patterns is addition of integers modulo 2^32. -/
theorem scalar_add_signedImm (s : State) (r : SReg) (imm16 : BitVec 16) :
    s.scalar r + signedImm imm16 = BitVec.ofInt 32 (s.int r + imm16.toInt) := by
  rw [BitVec.ofInt_add, State.int, BitVec.ofInt_toInt, signedImm_eq_ofInt]

/-! ### What each instruction does (R90 to R99) -/

theorem exec_nop (s : State) : exec .nop s = .next (done s) := rfl

theorem exec_clrerr (s : State) : exec .clrerr s = .next (done { s with err := 0 }) := rfl

theorem exec_rdst (sd : SReg) (s : State) :
    exec (.rdst sd) s = .next (done (s.setInt sd (s.err.toNat + 256 * s.nr.toNat))) := by
  rw [State.setInt, ← status_eq_ofInt]; rfl

theorem exec_sli (sd : SReg) (imm16 : BitVec 16) (s : State) :
    exec (.sli sd imm16) s = .next (done (s.setInt sd imm16.toInt)) := by
  rw [State.setInt, ← signedImm_eq_ofInt]; rfl

theorem exec_slih (sd : SReg) (imm16 : BitVec 16) (s : State) :
    exec (.slih sd imm16) s = .next (done (s.setScalar sd
      (BitVec.ofNat 32 ((s.scalar sd).toNat * 2 ^ 16 + imm16.toNat)))) := by
  rw [← shiftLeft_or_unsignedImm]; rfl

theorem exec_saddi (sd : SReg) (imm16 : BitVec 16) (s : State) :
    exec (.saddi sd imm16) s = .next (done (s.setInt sd (s.int sd + imm16.toInt))) := by
  rw [State.setInt, ← scalar_add_signedImm]; rfl

theorem exec_ixclr (s : State) : exec .ixclr s = .next (done { s with indices := [] }) := rfl

theorem exec_ixpush_of_full {s : State} (full : s.indices.length = s.params.cap) (sa : SReg) :
    exec (.ixpush sa) s = .next (failed .cap s) := if_pos full

theorem exec_ixpush_of_not_full {s : State} (room : s.indices.length ≠ s.params.cap) (sa : SReg) :
    exec (.ixpush sa) s = .next (done { s with indices := s.indices ++ [s.scalar sa] }) :=
  if_neg room

theorem exec_ixlen (sd : SReg) (s : State) :
    exec (.ixlen sd) s = .next (done (s.setInt sd s.indices.length)) := rfl

theorem exec_ixget_eq (sd sa : SReg) (s : State) : exec (.ixget sd sa) s = execIxget sd sa s := rfl

theorem exec_ixget_of_out_of_range {s : State} {sa : SReg}
    (outside : s.int sa < 0 ∨ s.indices.length ≤ s.int sa) (sd : SReg) :
    exec (.ixget sd sa) s = .next (failed .index s) := by
  have refused := (plainIdx_eq_none_iff _ _).mpr outside
  rw [exec_ixget_eq, execIxget, refused, raise_eq]

theorem exec_ixget_of_entry {s : State} {sa : SReg} {k : Nat} {v : Scalar} (index : s.int sa = k)
    (entry : s.indices[k]? = some v) (sd : SReg) :
    exec (.ixget sd sa) s = .next (done (s.setScalar sd v)) := by
  obtain ⟨in_range, -⟩ := List.getElem?_eq_some_iff.mp entry
  have legal := (plainIdx_eq_some_iff _ _ k).mpr ⟨index, in_range⟩
  have value : s.indices.getD k 0 = v := by rw [List.getD_eq_getElem?_getD, entry, Option.getD_some]
  rw [exec_ixget_eq, execIxget, legal]
  simp only [value, succeed_eq]

/-! ### The statements -/

/-- Settles O19: `NOP` and `CLRERR` have one word each; `RDST` writes the status register, whose value
is `ERR + 256 * NR`. -/
theorem systemCommandsResult : Obligations.SystemCommandsResult := fun s =>
  ⟨⟨rfl, exec_nop s⟩, ⟨rfl, exec_clrerr s⟩, fun sd => ⟨decode_encode_rdst sd, exec_rdst sd s⟩⟩

/-- Settles O20: each instruction's bit operation is the arithmetic of its rule modulo 2^32. -/
theorem scalarImmediateCommandsResult : Obligations.ScalarImmediateCommandsResult :=
  fun s sd imm16 =>
    ⟨⟨decode_encode_sli sd imm16, exec_sli sd imm16 s⟩,
      ⟨decode_encode_slih sd imm16, exec_slih sd imm16 s⟩,
      ⟨decode_encode_saddi sd imm16, exec_saddi sd imm16 s⟩⟩

/-- Settles O21: `IXPUSH` splits on a full list, `IXGET` on whether the scalar is an index of the
list. -/
theorem indexListCommandsResult : Obligations.IndexListCommandsResult := by
  intro s sd sa
  refine ⟨⟨rfl, exec_ixclr s⟩, ⟨decode_encode_ixpush sa, ?full, ?room⟩,
    ⟨decode_encode_ixlen sd, exec_ixlen sd s⟩, ⟨decode_encode_ixget sd sa, ?outside, ?entry⟩⟩
  case full => exact fun full => exec_ixpush_of_full full sa
  case room => exact fun room => exec_ixpush_of_not_full room sa
  case outside => exact fun outside => exec_ixget_of_out_of_range outside sd
  case entry => exact fun _ _ index entry => exec_ixget_of_entry index entry sd

end Machine

end Sys2Proof
end

section
/-! The statements of 41_storage_core.md: building vectors, single bits, slices, storage words. -/

namespace Sys2Proof

/-! ### Reading back a word the encoder wrote (30_encoding.md R82) -/

theorem decode_encode_vzero (vd : VReg) (sa : SReg) :
    decode (encode (.vzero vd sa)) = .ok (.vzero vd sa) :=
  decode_encode_of_row (Laws.EncodeMatchesRow.vzero vd sa) (fieldOp_formatR ..) rfl
    (congrArg₂ Instr.vzero (fieldVD_formatR ..) (fieldSA_formatR ..))

theorem decode_encode_vint (vd : VReg) (sa : SReg) :
    decode (encode (.vint vd sa)) = .ok (.vint vd sa) :=
  decode_encode_of_row (Laws.EncodeMatchesRow.vint vd sa) (fieldOp_formatR ..) rfl
    (congrArg₂ Instr.vint (fieldVD_formatR ..) (fieldSA_formatR ..))

theorem decode_encode_vints (vd : VReg) (sa sb : SReg) :
    decode (encode (.vints vd sa sb)) = .ok (.vints vd sa sb) :=
  decode_encode_of_row (Laws.EncodeMatchesRow.vints vd sa sb) (fieldOp_formatR ..) rfl
    (congr (congrArg₂ Instr.vints (fieldVD_formatR ..) (fieldSA_formatR ..)) (fieldSB_formatR ..))

theorem decode_encode_vtoint (sd : SReg) (va : VReg) :
    decode (encode (.vtoint sd va)) = .ok (.vtoint sd va) :=
  decode_encode_of_row (Laws.EncodeMatchesRow.vtoint sd va) (fieldOp_formatR ..) rfl
    (congrArg₂ Instr.vtoint (fieldSD_formatR ..) (fieldVA_formatR ..))

theorem decode_encode_vsize (sd : SReg) (va : VReg) :
    decode (encode (.vsize sd va)) = .ok (.vsize sd va) :=
  decode_encode_of_row (Laws.EncodeMatchesRow.vsize sd va) (fieldOp_formatR ..) rfl
    (congrArg₂ Instr.vsize (fieldSD_formatR ..) (fieldVA_formatR ..))

theorem decode_encode_getb (sd : SReg) (va : VReg) (sa : SReg) :
    decode (encode (.getb sd va sa)) = .ok (.getb sd va sa) :=
  decode_encode_of_row (Laws.EncodeMatchesRow.getb sd va sa) (fieldOp_formatR ..) rfl
    (congr (congrArg₂ Instr.getb (fieldSD_formatR ..) (fieldVA_formatR ..)) (fieldSA_formatR ..))

theorem decode_encode_setb (vd : VReg) (sa sb : SReg) :
    decode (encode (.setb vd sa sb)) = .ok (.setb vd sa sb) :=
  decode_encode_of_row (Laws.EncodeMatchesRow.setb vd sa sb) (fieldOp_formatR ..) rfl
    (congr (congrArg₂ Instr.setb (fieldVD_formatR ..) (fieldSA_formatR ..)) (fieldSB_formatR ..))

theorem decode_encode_vslice (vd va : VReg) (sa sb : SReg) :
    decode (encode (.vslice vd va sa sb)) = .ok (.vslice vd va sa sb) :=
  decode_encode_of_row (Laws.EncodeMatchesRow.vslice vd va sa sb) (fieldOp_formatR ..) rfl
    (congr (congr (congrArg₂ Instr.vslice (fieldVD_formatR ..) (fieldVA_formatR ..))
      (fieldSA_formatR ..)) (fieldSB_formatR ..))

theorem decode_encode_vslset (vd va : VReg) (sa sb : SReg) :
    decode (encode (.vslset vd va sa sb)) = .ok (.vslset vd va sa sb) :=
  decode_encode_of_row (Laws.EncodeMatchesRow.vslset vd va sa sb) (fieldOp_formatR ..) rfl
    (congr (congr (congrArg₂ Instr.vslset (fieldVD_formatR ..) (fieldVA_formatR ..))
      (fieldSA_formatR ..)) (fieldSB_formatR ..))

theorem decode_encode_getw (sd : SReg) (va : VReg) (sa : SReg) :
    decode (encode (.getw sd va sa)) = .ok (.getw sd va sa) :=
  decode_encode_of_row (Laws.EncodeMatchesRow.getw sd va sa) (fieldOp_formatR ..) rfl
    (congr (congrArg₂ Instr.getw (fieldSD_formatR ..) (fieldVA_formatR ..)) (fieldSA_formatR ..))

theorem decode_encode_setw (vd : VReg) (sa sb : SReg) :
    decode (encode (.setw vd sa sb)) = .ok (.setw vd sa sb) :=
  decode_encode_of_row (Laws.EncodeMatchesRow.setw vd sa sb) (fieldOp_formatR ..) rfl
    (congr (congrArg₂ Instr.setw (fieldVD_formatR ..) (fieldSA_formatR ..)) (fieldSB_formatR ..))

/-- 00_scope.md R4. -/
theorem Params.Legal.wordWidth_pos {p : Params} (legal : p.Legal) : 0 < p.wordWidth := by
  obtain ⟨width, -⟩ := legal
  omega

/-- 00_scope.md R4: a storage word fits a scalar. -/
theorem Params.Legal.wordWidth_le {p : Params} (legal : p.Legal) : p.wordWidth ≤ 32 := by
  obtain ⟨width, -⟩ := legal
  omega

namespace Machine

/-! ### The bits of the vectors the instructions write -/

theorem IsVector.congr {v : BitArray} {n : Nat} {f g : Nat → Bool} (h : IsVector v n f)
    (same : ∀ k, k < n → f k = g k) : IsVector v n g := by
  obtain ⟨size, bits⟩ := h
  exact ⟨size, fun k hk => same k hk ▸ bits k hk⟩

theorem getElem?_eq_some_getD {v : BitArray} {k : Nat} (hk : k < v.length) :
    v[k]? = some (v.getD k false) := by
  rw [List.getElem?_eq_getElem hk, List.getD_eq_getElem v false hk]

theorem isVector_zeros (n : Nat) : IsVector (zeros n) n (fun _ => false) :=
  ⟨length_zeros n, fun _ hk => List.getElem?_replicate_of_lt hk⟩

/-- 00_scope.md R7. -/
theorem isMinRep_minRep (n : Nat) : IsMinRep (minRep n) n := by
  refine ⟨intOf_minRep n, ?_⟩
  obtain rfl | nonzero := eq_or_ne n 0
  · exact .inl minRep_zero
  · exact .inr (head?_minRep nonzero)

theorem isVector_set {v : BitArray} {p : Nat} (hp : p < v.length) (b : Bool) :
    IsVector (v.set p b) v.length (fun k => if k = p then b else v.getD k false) := by
  refine ⟨List.length_set, fun k hk => ?_⟩
  beta_reduce
  by_cases at_p : k = p
  · subst at_p
    rw [List.getElem?_set_self hp, if_pos rfl]
  · rw [List.getElem?_set_ne (Ne.symm at_p), getElem?_eq_some_getD hk, if_neg at_p]

theorem isVector_slice {v : BitArray} {i j : Nat} (fits : j ≤ v.length) :
    IsVector (slice v i j) (j - i) (fun t => v.getD (i + t) false) :=
  ⟨length_slice fits, fun _ ht =>
    (getElem?_slice ht).trans (getElem?_eq_some_getD (by omega))⟩

/-- 41_storage_core.md R120: `u` put over the bits `i..j-1` of `v`. -/
theorem isVector_splice {v u : BitArray} {i j : Nat} (le : i ≤ j) (fits : j ≤ v.length)
    (size : u.length = j - i) :
    IsVector (v.take i ++ u ++ v.drop j) v.length
      (fun k => if i ≤ k ∧ k < j then u.getD (k - i) false else v.getD k false) := by
  have take_length : (v.take i).length = i := List.length_take_of_le (le.trans fits)
  have front_length : (v.take i ++ u).length = j := by rw [List.length_append]; omega
  refine ⟨by rw [List.length_append, List.length_drop]; omega, fun k hk => ?_⟩
  beta_reduce
  obtain before | inside | after : k < i ∨ (i ≤ k ∧ k < j) ∨ j ≤ k := by omega
  · rw [List.append_assoc, List.getElem?_append_left (by omega), List.getElem?_take_of_lt before,
      getElem?_eq_some_getD hk, if_neg (by omega)]
  · rw [List.getElem?_append_left (by omega), List.getElem?_append_right (by omega), take_length,
      getElem?_eq_some_getD (by omega), if_pos inside]
  · rw [List.getElem?_append_right (by omega), front_length, List.getElem?_drop,
      Nat.add_sub_cancel' after, getElem?_eq_some_getD hk, if_neg (by omega)]

/-- 20_memory.md R51: bit `p` lies in storage word `k` exactly when it is one of that word's `W` bits. -/
theorem div_eq_wordIndex_iff {width : Nat} (width_pos : 0 < width) (p k : Nat) :
    p / width = k ↔ k * width ≤ p ∧ p < (k + 1) * width := by
  rw [Nat.div_eq_iff width_pos, Nat.succ_mul]
  omega

/-- 20_memory.md R53: the word's bits that the vector has are replaced, every other bit is kept. -/
theorem isVector_wordWrite {width : Nat} (width_pos : 0 < width) (v : BitArray) (k w : Nat) :
    IsVector (wordWrite width v k w) v.length (fun p =>
      if k * width ≤ p ∧ p < (k + 1) * width then w.testBit (p - k * width)
      else v.getD p false) := by
  refine ⟨length_wordWrite .., fun p hp => ?_⟩
  beta_reduce
  have in_word := div_eq_wordIndex_iff width_pos p k
  rw [getElem?_wordWrite, getElem?_eq_some_getD hp, Option.map_some]
  by_cases here : p / width = k
  · have offset : p % width = p - k * width := by rw [Nat.mod_eq_sub_div_mul, here]
    rw [if_pos here, if_pos (in_word.mp here), offset]
  · rw [if_neg here, if_neg (mt in_word.mpr here)]

/-! ### The index of a storage word (20_memory.md R51) -/

theorem wordIdx_eq_none_iff {width : Nat} (width_pos : 0 < width) (i : Int) (size : Nat) :
    plainIdx i (wordCount width size) = none ↔ i < 0 ∨ (size : Int) ≤ i * width := by
  rw [plainIdx_eq_none_iff]
  refine or_congr_right' fun not_neg => ?_
  obtain ⟨k, rfl⟩ := Int.eq_ofNat_of_zero_le (Int.not_lt.mp not_neg)
  have in_range := lt_wordCount_iff width_pos size k
  rw [← Nat.cast_mul, Nat.cast_le, Nat.cast_le]
  omega

theorem wordIdx_eq_some {width size k : Nat} {i : Int} (width_pos : 0 < width) (index : i = k)
    (in_range : k * width < size) : plainIdx i (wordCount width size) = some k :=
  (plainIdx_eq_some_iff _ _ k).mpr ⟨index, (lt_wordCount_iff width_pos size k).mpr in_range⟩

/-! ### Building a vector (R110 to R112) -/

theorem exec_vzero_of_neg {s : State} {sa : SReg} (neg : s.int sa < 0) (vd : VReg) :
    exec (.vzero vd sa) s = .next (failed .value s) := if_pos neg

theorem exec_vzero_of_above_cap {s : State} {sa : SReg} (nonneg : 0 ≤ s.int sa)
    (above : s.params.cap < s.int sa) (vd : VReg) :
    exec (.vzero vd sa) s = .next (failed .cap s) :=
  (if_neg (Int.not_lt.mpr nonneg)).trans (if_pos above)

theorem exec_vzero_of_fits {s : State} {sa : SReg} (nonneg : 0 ≤ s.int sa)
    (fits : s.int sa ≤ s.params.cap) (vd : VReg) :
    exec (.vzero vd sa) s = .next (done (s.setVec vd (zeros (s.int sa).toNat))) :=
  (if_neg (Int.not_lt.mpr nonneg)).trans (if_neg (Int.not_lt.mpr fits))

theorem exec_vint_of_neg {s : State} {sa : SReg} (neg : s.int sa < 0) (vd : VReg) :
    exec (.vint vd sa) s = .next (failed .value s) := if_pos neg

theorem exec_vint_of_nonneg {s : State} {sa : SReg} (nonneg : 0 ≤ s.int sa) (vd : VReg) :
    exec (.vint vd sa) s = .next (done (s.setVec vd (minRep (s.int sa).toNat))) :=
  if_neg (Int.not_lt.mpr nonneg)

/-- A scalar that is not negative is below 2^31, so its minimal representation has at most 31 bits. -/
theorem length_minRep_int_le (s : State) (r : SReg) : (minRep (s.int r).toNat).length ≤ 31 := by
  have below := int_lt s r
  rw [length_minRep, minLen_le_iff]
  exact ⟨by decide, by omega⟩

theorem exec_vints_eq (vd : VReg) (sa sb : SReg) (s : State) :
    exec (.vints vd sa sb) s = execVints vd sa sb s := rfl

/-- The third check of `VINTS`: the integer needs more bits than the size given. -/
theorem int_lt_minLen_iff {i : Int} (nonneg : 0 ≤ i) (n : Nat) :
    i < minLen n ↔ i < 1 ∨ 2 ^ i.toNat ≤ n := by
  have fits := minLen_le_iff n i.toNat
  rw [← not_iff_not, not_or, Int.not_lt, Int.not_lt, Nat.not_le]
  omega

theorem exec_vints_of_bad_value {s : State} {sa sb : SReg}
    (bad : s.int sa < 0 ∨ s.int sb < 1 ∨ 2 ^ (s.int sb).toNat ≤ (s.int sa).toNat) (vd : VReg) :
    exec (.vints vd sa sb) s = .next (failed .value s) := by
  rw [exec_vints_eq, execVints]
  by_cases value_neg : s.int sa < 0
  · rw [if_pos value_neg, raise_eq]
  by_cases size_neg : s.int sb < 0
  · rw [if_neg value_neg, if_pos size_neg, raise_eq]
  have short : s.int sb < minLen (s.int sa).toNat :=
    (int_lt_minLen_iff (Int.not_lt.mp size_neg) _).mpr (bad.resolve_left value_neg)
  rw [if_neg value_neg, if_neg size_neg, if_pos short, raise_eq]

/-- With its three checks on the values passed, `VINTS` is left with the check against `CAP`. -/
theorem exec_vints_of_good_value {s : State} {sa sb : SReg} (nonneg : 0 ≤ s.int sa)
    (size : 1 ≤ s.int sb) (fits : (s.int sa).toNat < 2 ^ (s.int sb).toNat) (vd : VReg) :
    exec (.vints vd sa sb) s =
      if s.int sb > s.params.cap then .next (failed .cap s)
      else .next (done (s.setVec vd (fromInt (s.int sa).toNat (s.int sb).toNat))) := by
  have size_nonneg : 0 ≤ s.int sb := by omega
  have long : ¬ s.int sb < minLen (s.int sa).toNat := by
    rw [int_lt_minLen_iff size_nonneg]; omega
  rw [exec_vints_eq, execVints, if_neg (Int.not_lt.mpr nonneg), if_neg (Int.not_lt.mpr size_nonneg),
    if_neg long, raise_eq, succeed_eq]

/-- Settles O22: each check is one branch of the instruction's rule; the size test of `VINTS` through
`minLen_le_iff`. -/
theorem constructingCommandsResult : Obligations.ConstructingCommandsResult := by
  intro s vd sa sb
  refine ⟨⟨decode_encode_vzero vd sa, ?zero_neg, ?zero_cap, ?zero_fits⟩,
    ⟨decode_encode_vint vd sa, ?int_neg, ?int_nonneg⟩,
    ⟨decode_encode_vints vd sa sb, ?ints_bad, ?ints_good⟩⟩
  case zero_neg => exact fun neg => exec_vzero_of_neg neg vd
  case zero_cap => exact fun nonneg above => exec_vzero_of_above_cap nonneg above vd
  case zero_fits =>
    exact fun nonneg fits => ⟨_, isVector_zeros _, exec_vzero_of_fits nonneg fits vd⟩
  case int_neg => exact fun neg => exec_vint_of_neg neg vd
  case int_nonneg =>
    exact fun nonneg =>
      ⟨_, isMinRep_minRep _, length_minRep_int_le s sa, exec_vint_of_nonneg nonneg vd⟩
  case ints_bad => exact fun bad => exec_vints_of_bad_value bad vd
  case ints_good =>
    intro nonneg size fits
    have result := exec_vints_of_good_value nonneg size fits vd
    refine ⟨fun above => result.trans (if_pos above), fun within => ?_⟩
    exact ⟨_, length_fromInt .., intOf_fromInt_of_lt fits,
      result.trans (if_neg (Int.not_lt.mpr within))⟩

/-! ### Value and size (R113, R114) -/

theorem exec_vtoint_of_large {s : State} {va : VReg} (large : 2 ^ 31 - 1 < intOf (s.vec va))
    (sd : SReg) : exec (.vtoint sd va) s = .next (failed .cap s) := if_pos large

theorem exec_vtoint_of_fits {s : State} {va : VReg} (fits : intOf (s.vec va) ≤ 2 ^ 31 - 1)
    (sd : SReg) : exec (.vtoint sd va) s = .next (done (s.setInt sd (intOf (s.vec va)))) :=
  if_neg (Nat.not_lt.mpr fits)

theorem exec_vsize (sd : SReg) (va : VReg) (s : State) :
    exec (.vsize sd va) s = .next (done (s.setInt sd (s.vec va).length)) := rfl

/-- Settles O23: `VTOINT` splits on the value against the largest scalar. -/
theorem valueAndSizeCommandsResult : Obligations.ValueAndSizeCommandsResult := fun s sd va =>
  ⟨⟨decode_encode_vtoint sd va, fun large => exec_vtoint_of_large large sd,
      fun fits => exec_vtoint_of_fits fits sd⟩,
    ⟨decode_encode_vsize sd va, exec_vsize sd va s⟩⟩

/-! ### Single bits (R115, R116, R124) -/

theorem exec_getb_eq (sd : SReg) (va : VReg) (sa : SReg) (s : State) :
    exec (.getb sd va sa) s = execGetb sd va sa s := rfl

theorem exec_getb_of_out_of_range {s : State} {va : VReg} {sa : SReg}
    (outside : (s.size va : Int) ≤ s.int sa ∨ (s.size va : Int) < -s.int sa) (sd : SReg) :
    exec (.getb sd va sa) s = .next (failed .index s) := by
  have refused := (normIdx_eq_none_iff _ _).mpr outside
  rw [exec_getb_eq, execGetb, refused, raise_eq]

theorem exec_getb_of_bit {s : State} {va : VReg} {sa : SReg} {p : Nat} {b : Bool}
    (index : s.int sa = p ∨ s.int sa < 0 ∧ s.int sa + s.size va = p)
    (bit : (s.vec va)[p]? = some b) (sd : SReg) :
    exec (.getb sd va sa) s = .next (done (s.setInt sd (if b then 1 else 0))) := by
  obtain ⟨in_range, -⟩ := List.getElem?_eq_some_iff.mp bit
  have legal := (normIdx_eq_some_iff _ (s.size va) p).mpr ⟨in_range, index⟩
  have value : (s.vec va).getD p false = b := by
    rw [List.getD_eq_getElem?_getD, bit, Option.getD_some]
  rw [exec_getb_eq, execGetb, legal]
  simp only [value, succeed_eq, truth]

theorem exec_setb_eq (vd : VReg) (sa sb : SReg) (s : State) :
    exec (.setb vd sa sb) s = execSetb vd sa sb s := rfl

theorem exec_setb_of_bad_value {s : State} {sb : SReg} (not_zero : s.int sb ≠ 0)
    (not_one : s.int sb ≠ 1) (vd : VReg) (sa : SReg) :
    exec (.setb vd sa sb) s = .next (failed .value s) := by
  have refused := (bitValue_eq_none_iff _).mpr ⟨not_zero, not_one⟩
  rw [exec_setb_eq, execSetb, refused, raise_eq]

theorem exec_setb_of_out_of_range {s : State} {vd : VReg} {sa sb : SReg}
    (value : s.int sb = 0 ∨ s.int sb = 1)
    (outside : (s.size vd : Int) ≤ s.int sa ∨ (s.size vd : Int) < -s.int sa) :
    exec (.setb vd sa sb) s = .next (failed .index s) := by
  have accepted := (bitValue_eq_some_iff _ _).mpr ⟨value, rfl⟩
  have refused := (normIdx_eq_none_iff _ _).mpr outside
  rw [exec_setb_eq, execSetb, accepted]
  simp only [refused, raise_eq]

theorem exec_setb_of_index {s : State} {vd : VReg} {sa sb : SReg} {p : Nat}
    (value : s.int sb = 0 ∨ s.int sb = 1)
    (index : s.int sa = p ∨ s.int sa < 0 ∧ s.int sa + s.size vd = p) (in_range : p < s.size vd) :
    exec (.setb vd sa sb) s =
      .next (done (s.setVec vd ((s.vec vd).set p (s.int sb == 1)))) := by
  have accepted := (bitValue_eq_some_iff _ _).mpr ⟨value, rfl⟩
  have legal := (normIdx_eq_some_iff _ _ p).mpr ⟨in_range, index⟩
  rw [exec_setb_eq, execSetb, accepted]
  simp only [legal, succeed_eq]

/-- Settles O24: the normalised index of R124 decides `GETB`; `SETB` tests the value first. -/
theorem singleBitCommandsResult : Obligations.SingleBitCommandsResult := by
  intro s sd sa sb vd va
  refine ⟨⟨decode_encode_getb sd va sa, ?get_outside, ?get_bit⟩,
    ⟨decode_encode_setb vd sa sb, ?set_value, ?set_outside, ?set_bit⟩⟩
  case get_outside => exact fun outside => exec_getb_of_out_of_range outside sd
  case get_bit => exact fun _ _ index bit => exec_getb_of_bit index bit sd
  case set_value => exact fun not_zero not_one => exec_setb_of_bad_value not_zero not_one vd sa
  case set_outside => exact fun value outside => exec_setb_of_out_of_range value outside
  case set_bit =>
    exact fun p value index in_range =>
      ⟨_, isVector_set in_range _, exec_setb_of_index value index in_range⟩

/-! ### Slices (R119, R120) -/

theorem exec_vslice_eq (vd va : VReg) (sa sb : SReg) (s : State) :
    exec (.vslice vd va sa sb) s = execVslice vd va sa sb s := rfl

theorem exec_vslice_of_bad_bounds {s : State} {va : VReg} {sa sb : SReg}
    (bad : ¬(0 ≤ s.int sa ∧ s.int sa ≤ s.int sb ∧ s.int sb ≤ s.size va)) (vd : VReg) :
    exec (.vslice vd va sa sb) s = .next (failed .slice s) := by
  rw [exec_vslice_eq, execVslice, if_neg (mt (sliceBounds_iff ..).mp bad), raise_eq]

theorem exec_vslice_of_bounds {s : State} {va : VReg} {sa sb : SReg}
    (good : 0 ≤ s.int sa ∧ s.int sa ≤ s.int sb ∧ s.int sb ≤ s.size va) (vd : VReg) :
    exec (.vslice vd va sa sb) s =
      .next (done (s.setVec vd (slice (s.vec va) (s.int sa).toNat (s.int sb).toNat))) := by
  rw [exec_vslice_eq, execVslice, if_pos ((sliceBounds_iff ..).mpr good), succeed_eq]

theorem exec_vslset_eq (vd va : VReg) (sa sb : SReg) (s : State) :
    exec (.vslset vd va sa sb) s = execVslset vd va sa sb s := rfl

theorem exec_vslset_of_bad_slice {s : State} {vd va : VReg} {sa sb : SReg}
    (bad : ¬(0 ≤ s.int sa ∧ s.int sa ≤ s.int sb ∧ s.int sb ≤ s.size vd) ∨
      (s.size va : Int) ≠ s.int sb - s.int sa) :
    exec (.vslset vd va sa sb) s = .next (failed .slice s) := by
  rw [exec_vslset_eq, execVslset]
  by_cases bounds : sliceBounds (s.int sa) (s.int sb) (s.size vd) = true
  · have mismatch := bad.resolve_left (not_not_intro ((sliceBounds_iff ..).mp bounds))
    rw [if_pos bounds, if_pos mismatch, raise_eq]
  · rw [if_neg bounds, raise_eq]

theorem exec_vslset_of_bounds {s : State} {vd va : VReg} {sa sb : SReg}
    (good : 0 ≤ s.int sa ∧ s.int sa ≤ s.int sb ∧ s.int sb ≤ s.size vd)
    (size : (s.size va : Int) = s.int sb - s.int sa) :
    exec (.vslset vd va sa sb) s = .next (done (s.setVec vd
      ((s.vec vd).take (s.int sa).toNat ++ s.vec va ++ (s.vec vd).drop (s.int sb).toNat))) := by
  rw [exec_vslset_eq, execVslset, if_pos ((sliceBounds_iff ..).mpr good),
    if_neg (not_not_intro size), succeed_eq]

/-- Settles O26: the bounds of R119 decide both; under them the scalars are natural numbers, and the
bits are those of `isVector_slice` and `isVector_splice`. -/
theorem sliceCommandsResult : Obligations.SliceCommandsResult := by
  rintro s vd va sa sb i j rfl rfl
  refine ⟨⟨decode_encode_vslice vd va sa sb, ?slice_bad, ?slice_good⟩,
    ⟨decode_encode_vslset vd va sa sb, ?set_bad, ?set_good⟩⟩
  case slice_bad => exact fun bad => exec_vslice_of_bad_bounds bad vd
  case slice_good =>
    intro nonneg le fits
    have size : (s.int sb - s.int sa).toNat = (s.int sb).toNat - (s.int sa).toNat := by omega
    have fits_nat : (s.int sb).toNat ≤ s.size va := by omega
    exact ⟨_, size ▸ isVector_slice fits_nat, exec_vslice_of_bounds ⟨nonneg, le, fits⟩ vd⟩
  case set_bad => exact exec_vslset_of_bad_slice
  case set_good =>
    intro nonneg le fits size
    have le_nat : (s.int sa).toNat ≤ (s.int sb).toNat := by omega
    have fits_nat : (s.int sb).toNat ≤ s.size vd := by omega
    have size_nat : s.size va = (s.int sb).toNat - (s.int sa).toNat := by omega
    refine ⟨_, (isVector_splice le_nat fits_nat size_nat).congr fun k _ => ?_,
      exec_vslset_of_bounds ⟨nonneg, le, fits⟩ size⟩
    have inside : (s.int sa).toNat ≤ k ∧ k < (s.int sb).toNat ↔ s.int sa ≤ k ∧ k < s.int sb := by
      omega
    simp only [inside]

/-! ### Storage words (R121, R122) -/

theorem exec_getw_eq (sd : SReg) (va : VReg) (sa : SReg) (s : State) :
    exec (.getw sd va sa) s = execGetw sd va sa s := rfl

theorem exec_getw_of_out_of_range {s : State} {va : VReg} {sa : SReg} (legal : s.params.Legal)
    (outside : s.int sa < 0 ∨ (s.size va : Int) ≤ s.int sa * s.params.wordWidth) (sd : SReg) :
    exec (.getw sd va sa) s = .next (failed .index s) := by
  have refused := (wordIdx_eq_none_iff legal.wordWidth_pos _ _).mpr outside
  rw [exec_getw_eq, execGetw, refused, raise_eq]

/-- The scalar `GETW` writes: the word, its padding bits the next of the padding stream. -/
def State.storageWord (s : State) (va : VReg) (k : Nat) : Scalar :=
  BitVec.ofNat 32 (wordRead s.params.wordWidth (s.vec va) k
    (takeFree Config.paddingSource s.padding).1)

theorem exec_getw_of_word {s : State} {va : VReg} {sa : SReg} {k : Nat} (legal : s.params.Legal)
    (index : s.int sa = k) (in_range : k * s.params.wordWidth < s.size va) (sd : SReg) :
    exec (.getw sd va sa) s = .next (done ((s.setScalar sd (s.storageWord va k)).setPadding
      (takeFree Config.paddingSource s.padding).2)) := by
  have accepted := wordIdx_eq_some legal.wordWidth_pos index in_range
  rw [exec_getw_eq, execGetw, accepted]
  rfl

/-- 20_memory.md R52: below the vector's size the word holds the vector's bits. -/
theorem getLsbD_storageWord {s : State} {va : VReg} {k t : Nat} (legal : s.params.Legal)
    (low : t < s.params.wordWidth) (in_vector : k * s.params.wordWidth + t < s.size va) :
    (s.storageWord va k).getLsbD t = (s.vec va).getD (k * s.params.wordWidth + t) false := by
  have in_scalar : t < 32 := low.trans_le legal.wordWidth_le
  rw [State.storageWord, BitVec.getLsbD_ofNat, testBit_wordRead, decide_eq_true in_scalar,
    decide_eq_true low, Bool.true_and, Bool.true_and, List.getD_eq_getElem _ _ in_vector,
    List.getD_eq_getElem _ _ in_vector]

/-- 41_storage_core.md R121: the word is zero-extended. -/
theorem getLsbD_storageWord_of_ge {s : State} {t : Nat} (high : s.params.wordWidth ≤ t) (va : VReg)
    (k : Nat) : (s.storageWord va k).getLsbD t = false := by
  rw [State.storageWord, BitVec.getLsbD_ofNat, testBit_wordRead,
    decide_eq_false (Nat.not_lt.mpr high), Bool.false_and, Bool.and_false]

/-- Settles O27: the word index decides the check; the bits of the scalar are those of the storage word,
whatever the padding stream answers. -/
theorem getwReadsTheStorageWord : Obligations.GetwReadsTheStorageWord := by
  intro s sd va sa legal
  refine ⟨decode_encode_getw sd va sa, fun outside => exec_getw_of_out_of_range legal outside sd,
    fun k index in_range => ⟨s.storageWord va k, _, ?low, ?high,
      exec_getw_of_word legal index in_range sd⟩⟩
  case low => exact fun _ low in_vector => getLsbD_storageWord legal low in_vector
  case high => exact fun _ high => getLsbD_storageWord_of_ge high va k

theorem exec_setw_eq (vd : VReg) (sa sb : SReg) (s : State) :
    exec (.setw vd sa sb) s = execSetw vd sa sb s := rfl

theorem exec_setw_of_out_of_range {s : State} {vd : VReg} {sa : SReg} (legal : s.params.Legal)
    (outside : s.int sa < 0 ∨ (s.size vd : Int) ≤ s.int sa * s.params.wordWidth) (sb : SReg) :
    exec (.setw vd sa sb) s = .next (failed .index s) := by
  have refused := (wordIdx_eq_none_iff legal.wordWidth_pos _ _).mpr outside
  rw [exec_setw_eq, execSetw, refused, raise_eq]

theorem exec_setw_of_word {s : State} {vd : VReg} {sa : SReg} {k : Nat} (legal : s.params.Legal)
    (index : s.int sa = k) (in_range : k * s.params.wordWidth < s.size vd) (sb : SReg) :
    exec (.setw vd sa sb) s = .next (done (s.setVec vd
      (wordWrite s.params.wordWidth (s.vec vd) k (s.scalar sb).toNat))) := by
  have accepted := wordIdx_eq_some legal.wordWidth_pos index in_range
  rw [exec_setw_eq, execSetw, accepted]
  simp only [succeed_eq]

/-- Settles O29: the word index decides the check; `wordWrite` visits the vector's bits only, so those
of the scalar that fall on padding reach nothing. -/
theorem setwWritesTheStorageWord : Obligations.SetwWritesTheStorageWord := by
  intro s vd sa sb legal
  refine ⟨decode_encode_setw vd sa sb, fun outside => exec_setw_of_out_of_range legal outside sb,
    fun k index in_range => ⟨_, (isVector_wordWrite legal.wordWidth_pos (s.vec vd) k _).congr ?same,
      exec_setw_of_word legal index in_range sb⟩⟩
  case same => exact fun p _ => by rw [BitVec.testBit_toNat]

end Machine

end Sys2Proof
end

section
/-! The statements of 42_bitwise_relational.md: the logical operators, concatenation, comparisons and
containment; with them the reversal of 45_bit_analysis.md R186. -/

namespace Sys2Proof

/-! ### Reading back a word the encoder wrote (30_encoding.md R82) -/

/-- An instruction with a vector destination and two vector sources. -/
theorem decode_encode_of_vd_va_vb {f : VReg → VReg → VReg → Instr} {op : BitVec 8} {r : OpcodeRow}
    {vd va vb : VReg} (passes : Laws.EncodeMatchesRow.Statement (f vd va vb))
    (word : encode (f vd va vb) = formatR op 0 0 0 vd va vb) (row : rowOf op = some r)
    (build : ∀ w, r.build w = f (fieldVD w) (fieldVA w) (fieldVB w)) :
    decode (encode (f vd va vb)) = .ok (f vd va vb) :=
  decode_encode_of_row passes (word ▸ fieldOp_formatR ..) row
    (by rw [build, word, fieldVD_formatR, fieldVA_formatR, fieldVB_formatR])

/-- An instruction with a vector destination and one vector source. -/
theorem decode_encode_of_vd_va {f : VReg → VReg → Instr} {op : BitVec 8} {r : OpcodeRow}
    {vd va : VReg} (passes : Laws.EncodeMatchesRow.Statement (f vd va))
    (word : encode (f vd va) = formatR op 0 0 0 vd va 0) (row : rowOf op = some r)
    (build : ∀ w, r.build w = f (fieldVD w) (fieldVA w)) :
    decode (encode (f vd va)) = .ok (f vd va) :=
  decode_encode_of_row passes (word ▸ fieldOp_formatR ..) row
    (by rw [build, word, fieldVD_formatR, fieldVA_formatR])

/-- An instruction with a scalar destination and two vector sources. -/
theorem decode_encode_of_sd_va_vb {f : SReg → VReg → VReg → Instr} {op : BitVec 8} {r : OpcodeRow}
    {sd : SReg} {va vb : VReg} (passes : Laws.EncodeMatchesRow.Statement (f sd va vb))
    (word : encode (f sd va vb) = formatR op sd 0 0 0 va vb) (row : rowOf op = some r)
    (build : ∀ w, r.build w = f (fieldSD w) (fieldVA w) (fieldVB w)) :
    decode (encode (f sd va vb)) = .ok (f sd va vb) :=
  decode_encode_of_row passes (word ▸ fieldOp_formatR ..) row
    (by rw [build, word, fieldSD_formatR, fieldVA_formatR, fieldVB_formatR])

theorem decode_encode_vand (vd va vb : VReg) :
    decode (encode (.vand vd va vb)) = .ok (.vand vd va vb) :=
  decode_encode_of_vd_va_vb (Laws.EncodeMatchesRow.vand vd va vb) rfl rfl fun _ => rfl

theorem decode_encode_vor (vd va vb : VReg) :
    decode (encode (.vor vd va vb)) = .ok (.vor vd va vb) :=
  decode_encode_of_vd_va_vb (Laws.EncodeMatchesRow.vor vd va vb) rfl rfl fun _ => rfl

theorem decode_encode_vxor (vd va vb : VReg) :
    decode (encode (.vxor vd va vb)) = .ok (.vxor vd va vb) :=
  decode_encode_of_vd_va_vb (Laws.EncodeMatchesRow.vxor vd va vb) rfl rfl fun _ => rfl

theorem decode_encode_vnot (vd va : VReg) : decode (encode (.vnot vd va)) = .ok (.vnot vd va) :=
  decode_encode_of_vd_va (Laws.EncodeMatchesRow.vnot vd va) rfl rfl fun _ => rfl

theorem decode_encode_vrev (vd va : VReg) : decode (encode (.vrev vd va)) = .ok (.vrev vd va) :=
  decode_encode_of_vd_va (Laws.EncodeMatchesRow.vrev vd va) rfl rfl fun _ => rfl

theorem decode_encode_vcat (vd va vb : VReg) :
    decode (encode (.vcat vd va vb)) = .ok (.vcat vd va vb) :=
  decode_encode_of_vd_va_vb (Laws.EncodeMatchesRow.vcat vd va vb) rfl rfl fun _ => rfl

theorem decode_encode_vceq (sd : SReg) (va vb : VReg) :
    decode (encode (.vceq sd va vb)) = .ok (.vceq sd va vb) :=
  decode_encode_of_sd_va_vb (Laws.EncodeMatchesRow.vceq sd va vb) rfl rfl fun _ => rfl

theorem decode_encode_vcne (sd : SReg) (va vb : VReg) :
    decode (encode (.vcne sd va vb)) = .ok (.vcne sd va vb) :=
  decode_encode_of_sd_va_vb (Laws.EncodeMatchesRow.vcne sd va vb) rfl rfl fun _ => rfl

theorem decode_encode_vclt (sd : SReg) (va vb : VReg) :
    decode (encode (.vclt sd va vb)) = .ok (.vclt sd va vb) :=
  decode_encode_of_sd_va_vb (Laws.EncodeMatchesRow.vclt sd va vb) rfl rfl fun _ => rfl

theorem decode_encode_vcle (sd : SReg) (va vb : VReg) :
    decode (encode (.vcle sd va vb)) = .ok (.vcle sd va vb) :=
  decode_encode_of_sd_va_vb (Laws.EncodeMatchesRow.vcle sd va vb) rfl rfl fun _ => rfl

theorem decode_encode_vcgt (sd : SReg) (va vb : VReg) :
    decode (encode (.vcgt sd va vb)) = .ok (.vcgt sd va vb) :=
  decode_encode_of_sd_va_vb (Laws.EncodeMatchesRow.vcgt sd va vb) rfl rfl fun _ => rfl

theorem decode_encode_vcge (sd : SReg) (va vb : VReg) :
    decode (encode (.vcge sd va vb)) = .ok (.vcge sd va vb) :=
  decode_encode_of_sd_va_vb (Laws.EncodeMatchesRow.vcge sd va vb) rfl rfl fun _ => rfl

theorem decode_encode_vcont (sd : SReg) (va vb : VReg) :
    decode (encode (.vcont sd va vb)) = .ok (.vcont sd va vb) :=
  decode_encode_of_sd_va_vb (Laws.EncodeMatchesRow.vcont sd va vb) rfl rfl fun _ => rfl

namespace Machine

/-! ### The bits of the vectors the instructions write -/

theorem isVector_zipWith {u v : BitArray} (f : Bool → Bool → Bool) (same : u.length = v.length) :
    IsVector (List.zipWith f u v) u.length (fun k => f (u.getD k false) (v.getD k false)) := by
  have size : (List.zipWith f u v).length = u.length := by
    rw [List.length_zipWith, ← same, Nat.min_self]
  refine ⟨size, fun k hk => ?_⟩
  rw [getElem?_eq_some_getD (size.symm ▸ hk), getD_zipWith f hk (same ▸ hk)]

theorem isVector_complement (v : BitArray) :
    IsVector (v.map (!·)) v.length (fun k => !v.getD k false) :=
  ⟨List.length_map .., fun k hk => by
    rw [List.getElem?_map, getElem?_eq_some_getD hk, Option.map_some]⟩

theorem isVector_reverse (v : BitArray) :
    IsVector v.reverse v.length (fun k => v.getD (v.length - 1 - k) false) :=
  ⟨List.length_reverse, fun k hk => by
    rw [List.getElem?_reverse hk, getElem?_eq_some_getD (by omega)]⟩

theorem isVector_append (u v : BitArray) :
    IsVector (u ++ v) (u.length + v.length)
      (fun k => if k < u.length then u.getD k false else v.getD (k - u.length) false) := by
  refine ⟨List.length_append, fun k hk => ?_⟩
  beta_reduce
  by_cases first : k < u.length
  · rw [List.getElem?_append_left first, getElem?_eq_some_getD first, if_pos first]
  · rw [List.getElem?_append_right (Nat.le_of_not_lt first), getElem?_eq_some_getD (by omega),
      if_neg first]

/-! ### The logical operators (R140 to R142, R152) -/

theorem exec_vand (vd va vb : VReg) (s : State) :
    exec (.vand vd va vb) s = logical and vd va vb s := rfl

theorem exec_vor (vd va vb : VReg) (s : State) :
    exec (.vor vd va vb) s = logical or vd va vb s := rfl

theorem exec_vxor (vd va vb : VReg) (s : State) :
    exec (.vxor vd va vb) s = logical xor vd va vb s := rfl

theorem logical_of_size_ne {s : State} {va vb : VReg} (differ : s.size va ≠ s.size vb)
    (f : Bool → Bool → Bool) (vd : VReg) :
    logical f vd va vb s = .next (failed .size s) := if_pos differ

theorem logical_of_size_eq {s : State} {va vb : VReg} (same : s.size va = s.size vb)
    (f : Bool → Bool → Bool) (vd : VReg) :
    logical f vd va vb s = .next (done (s.setVec vd (List.zipWith f (s.vec va) (s.vec vb)))) :=
  if_neg (not_not_intro same)

/-- Settles O30: the three instructions are `logical` of their operator, so one argument about it serves
them all. -/
theorem logicalCommandsResult : Obligations.LogicalCommandsResult := by
  intro s vd va vb i op f operator
  have ⟨decoded, meaning⟩ :
      decode (formatR op 0 0 0 vd va vb) = .ok i ∧ exec i s = logical f vd va vb s := by
    obtain ⟨rfl, rfl, rfl⟩ | ⟨rfl, rfl, rfl⟩ | ⟨rfl, rfl, rfl⟩ := operator
    · exact ⟨decode_encode_vand vd va vb, exec_vand vd va vb s⟩
    · exact ⟨decode_encode_vor vd va vb, exec_vor vd va vb s⟩
    · exact ⟨decode_encode_vxor vd va vb, exec_vxor vd va vb s⟩
  rw [meaning]
  exact ⟨decoded, fun differ => logical_of_size_ne differ f vd,
    fun same => ⟨_, isVector_zipWith f same, logical_of_size_eq same f vd⟩⟩

/-! ### Complement, reversal, concatenation (R143, R144, R186) -/

theorem exec_vnot (vd va : VReg) (s : State) :
    exec (.vnot vd va) s = .next (done (s.setVec vd ((s.vec va).map (!·)))) := rfl

theorem exec_vrev (vd va : VReg) (s : State) :
    exec (.vrev vd va) s = .next (done (s.setVec vd (s.vec va).reverse)) := rfl

/-- Settles O31: neither instruction has a check; the bits are those of `isVector_complement` and
`isVector_reverse`. -/
theorem complementAndReversalResult : Obligations.ComplementAndReversalResult := fun s vd va =>
  ⟨⟨decode_encode_vnot vd va, _, isVector_complement (s.vec va), exec_vnot vd va s⟩,
    ⟨decode_encode_vrev vd va, _, isVector_reverse (s.vec va), exec_vrev vd va s⟩⟩

theorem exec_vcat_of_above_cap {s : State} {va vb : VReg}
    (above : s.params.cap < s.size va + s.size vb) (vd : VReg) :
    exec (.vcat vd va vb) s = .next (failed .cap s) := if_pos above

theorem exec_vcat_of_fits {s : State} {va vb : VReg}
    (fits : s.size va + s.size vb ≤ s.params.cap) (vd : VReg) :
    exec (.vcat vd va vb) s = .next (done (s.setVec vd (s.vec va ++ s.vec vb))) :=
  if_neg (Nat.not_lt.mpr fits)

/-- Settles O32: the sum of the sizes decides the check; the bits are those of `isVector_append`. -/
theorem vcatAppendsTheSecondOperand : Obligations.VcatAppendsTheSecondOperand :=
  fun s vd va vb =>
    ⟨decode_encode_vcat vd va vb, fun above => exec_vcat_of_above_cap above vd,
      fun fits => ⟨_, isVector_append (s.vec va) (s.vec vb), exec_vcat_of_fits fits vd⟩⟩

/-! ### The comparisons (R145 to R150) -/

theorem compareValues_of_iff (rel : Nat → Nat → Bool) {s : State} {va vb : VReg} {p : Prop}
    [Decidable p] (holds : rel (intOf (s.vec va)) (intOf (s.vec vb)) = true ↔ p) (sd : SReg) :
    compareValues rel sd va vb s = .next (done (s.setInt sd (if p then 1 else 0))) := by
  rw [compareValues_eq, if_congr holds rfl rfl]

theorem compareValues_of_iff_not (rel : Nat → Nat → Bool) {s : State} {va vb : VReg} {p : Prop}
    [Decidable p] (fails : rel (intOf (s.vec va)) (intOf (s.vec vb)) = true ↔ ¬p) (sd : SReg) :
    compareValues rel sd va vb s = .next (done (s.setInt sd (if p then 0 else 1))) := by
  rw [compareValues_of_iff rel fails, ite_not]

theorem exec_vceq (sd : SReg) (va vb : VReg) (s : State) :
    exec (.vceq sd va vb) s =
      .next (done (s.setInt sd (if intOf (s.vec va) = intOf (s.vec vb) then 1 else 0))) :=
  compareValues_of_iff (fun a b => decide (a = b)) decide_eq_true_iff sd

theorem exec_vcne (sd : SReg) (va vb : VReg) (s : State) :
    exec (.vcne sd va vb) s =
      .next (done (s.setInt sd (if intOf (s.vec va) = intOf (s.vec vb) then 0 else 1))) :=
  compareValues_of_iff_not (fun a b => decide (a ≠ b)) decide_eq_true_iff sd

theorem exec_vclt (sd : SReg) (va vb : VReg) (s : State) :
    exec (.vclt sd va vb) s =
      .next (done (s.setInt sd (if intOf (s.vec va) < intOf (s.vec vb) then 1 else 0))) :=
  compareValues_of_iff (fun a b => decide (a < b)) decide_eq_true_iff sd

theorem exec_vcle (sd : SReg) (va vb : VReg) (s : State) :
    exec (.vcle sd va vb) s =
      .next (done (s.setInt sd (if intOf (s.vec vb) < intOf (s.vec va) then 0 else 1))) :=
  compareValues_of_iff_not (fun a b => decide (a ≤ b)) (decide_eq_true_iff.trans Nat.not_lt.symm) sd

theorem exec_vcgt (sd : SReg) (va vb : VReg) (s : State) :
    exec (.vcgt sd va vb) s =
      .next (done (s.setInt sd (if intOf (s.vec vb) < intOf (s.vec va) then 1 else 0))) :=
  compareValues_of_iff (fun a b => decide (a > b)) decide_eq_true_iff sd

theorem exec_vcge (sd : SReg) (va vb : VReg) (s : State) :
    exec (.vcge sd va vb) s =
      .next (done (s.setInt sd (if intOf (s.vec va) < intOf (s.vec vb) then 0 else 1))) :=
  compareValues_of_iff_not (fun a b => decide (a ≥ b)) (decide_eq_true_iff.trans Nat.not_lt.symm) sd

/-- Settles O33: the six instructions are `compareValues` of their relation, which never looks at the
sizes. -/
theorem comparisonsCompareTheValues : Obligations.ComparisonsCompareTheValues := by
  rintro s sd va vb _ _ rfl rfl
  exact ⟨⟨decode_encode_vceq sd va vb, exec_vceq sd va vb s⟩,
    ⟨decode_encode_vcne sd va vb, exec_vcne sd va vb s⟩,
    ⟨decode_encode_vclt sd va vb, exec_vclt sd va vb s⟩,
    ⟨decode_encode_vcle sd va vb, exec_vcle sd va vb s⟩,
    ⟨decode_encode_vcgt sd va vb, exec_vcgt sd va vb s⟩,
    ⟨decode_encode_vcge sd va vb, exec_vcge sd va vb s⟩⟩

/-! ### Containment (R151) -/

/-- The model's search succeeds exactly when a position of the rule exists. -/
theorem occursIn_iff_exists_position (b a : BitArray) :
    occursIn b a = true ↔ ∃ p, p + b.length ≤ a.length ∧
      ∀ t, t < b.length → a.getD (p + t) false = b.getD t false := by
  rw [occursIn_iff, List.infix_iff_getElem?]
  refine exists_congr fun p => ?_
  rw [Nat.add_comm b.length p]
  refine and_congr_right fun fits => forall₂_congr fun t ht => ?_
  rw [Nat.add_comm t p, getElem?_eq_some_getD (by omega), Option.some_inj,
    ← List.getD_eq_getElem b false ht]

theorem exec_vcont (sd : SReg) (va vb : VReg) (s : State) :
    exec (.vcont sd va vb) s =
      .next (done (s.setInt sd (truth (occursIn (s.vec vb) (s.vec va))))) := rfl

/-- Settles O34: through `occursIn_iff_exists_position`, the search answers whether a position exists. -/
theorem vcontTestsForASubstring : Obligations.VcontTestsForASubstring := by
  intro s sd va vb found position
  have search : occursIn (s.vec vb) (s.vec va) = true ↔ found :=
    (occursIn_iff_exists_position _ _).trans position.symm
  refine ⟨decode_encode_vcont sd va vb, fun present => ?_, fun absent => ?_⟩
  · rw [exec_vcont, search.mpr present]
    rfl
  · rw [exec_vcont, Bool.eq_false_iff.mpr (mt search.mp absent)]
    rfl

end Machine

end Sys2Proof
end

section
/-! The statements of 43_shift.md: the circular and the linear shifts. -/

namespace Sys2Proof

/-! ### Reading back a word the encoder wrote (30_encoding.md R82) -/

/-- An instruction that works in place on a vector and reads one scalar. -/
theorem decode_encode_of_vd_sa {f : VReg → SReg → Instr} {op : BitVec 8} {r : OpcodeRow}
    {vd : VReg} {sa : SReg} (passes : Laws.EncodeMatchesRow.Statement (f vd sa))
    (word : encode (f vd sa) = formatR op 0 sa 0 vd 0 0) (row : rowOf op = some r)
    (build : ∀ w, r.build w = f (fieldVD w) (fieldSA w)) :
    decode (encode (f vd sa)) = .ok (f vd sa) :=
  decode_encode_of_row passes (word ▸ fieldOp_formatR ..) row
    (by rw [build, word, fieldVD_formatR, fieldSA_formatR])

theorem decode_encode_vrol (vd : VReg) (sa : SReg) :
    decode (encode (.vrol vd sa)) = .ok (.vrol vd sa) :=
  decode_encode_of_vd_sa (Laws.EncodeMatchesRow.vrol vd sa) rfl rfl fun _ => rfl

theorem decode_encode_vror (vd : VReg) (sa : SReg) :
    decode (encode (.vror vd sa)) = .ok (.vror vd sa) :=
  decode_encode_of_vd_sa (Laws.EncodeMatchesRow.vror vd sa) rfl rfl fun _ => rfl

theorem decode_encode_vshl (vd : VReg) (sa : SReg) :
    decode (encode (.vshl vd sa)) = .ok (.vshl vd sa) :=
  decode_encode_of_vd_sa (Laws.EncodeMatchesRow.vshl vd sa) rfl rfl fun _ => rfl

theorem decode_encode_vshr (vd : VReg) (sa : SReg) :
    decode (encode (.vshr vd sa)) = .ok (.vshr vd sa) :=
  decode_encode_of_vd_sa (Laws.EncodeMatchesRow.vshr vd sa) rfl rfl fun _ => rfl

namespace Machine

/-! ### The bits of the shifted vectors -/

/-- Going back `n` places around a circle of `size` places is going forward `size - n mod size`: the two
sums differ by a whole number of turns (43_shift.md R161). -/
theorem toNat_sub_emod {size : Nat} (size_pos : 0 < size) (k n : Nat) :
    (((k : Int) - n) % size).toNat = (k + (size - n % size)) % size := by
  have turns : ((k + (size - n % size) : Nat) : Int) = (k - n) + size * (1 + n / size : Nat) := by
    have below : n % size < size := Nat.mod_lt n size_pos
    have split : (n : Int) = size * (n / size : Nat) + (n % size : Nat) :=
      mod_cast (Nat.div_add_mod n size).symm
    rw [Nat.cast_add, Nat.cast_sub below.le, Nat.cast_add, Nat.cast_one, mul_add, mul_one]
    omega
  calc (((k : Int) - n) % size).toNat
      = (((k + (size - n % size) : Nat) : Int) % size).toNat := by
        rw [turns, Int.add_mul_emod_self_left]
    _ = (k + (size - n % size)) % size := by rw [← Int.natCast_mod, Int.toNat_natCast]

theorem isVector_rotateLeft (v : BitArray) (n : Nat) :
    IsVector (rotateLeft v n) v.length (fun k => v.getD ((k + n) % v.length) false) :=
  ⟨length_rotateLeft v n, fun k hk =>
    (getElem?_rotateLeft v n k hk).trans (getElem?_eq_some_getD (Nat.mod_lt _ (by omega)))⟩

theorem isVector_rotateRight (v : BitArray) (n : Nat) :
    IsVector (rotateRight v n) v.length
      (fun k => v.getD (((k : Int) - n) % v.length).toNat false) := by
  rw [rotateRight_eq]
  refine (isVector_rotateLeft v _).congr fun k hk => ?_
  rw [toNat_sub_emod (by omega)]

theorem isVector_shiftLeft (v : BitArray) (n : Nat) :
    IsVector (shiftLeft v n) v.length (fun k => v.getD (k + n) false) :=
  ⟨length_shiftLeft v n, getElem?_shiftLeft v n⟩

theorem isVector_shiftRight (v : BitArray) (n : Nat) :
    IsVector (shiftRight v n) v.length (fun k => if n ≤ k then v.getD (k - n) false else false) :=
  ⟨length_shiftRight v n, getElem?_shiftRight v n⟩

/-! ### The shifts in place (R160 to R164) -/

theorem exec_vrol (vd : VReg) (sa : SReg) (s : State) :
    exec (.vrol vd sa) s = shiftInPlace rotateLeft vd sa s := rfl

theorem exec_vror (vd : VReg) (sa : SReg) (s : State) :
    exec (.vror vd sa) s = shiftInPlace rotateRight vd sa s := rfl

theorem exec_vshl (vd : VReg) (sa : SReg) (s : State) :
    exec (.vshl vd sa) s = shiftInPlace shiftLeft vd sa s := rfl

theorem exec_vshr (vd : VReg) (sa : SReg) (s : State) :
    exec (.vshr vd sa) s = shiftInPlace shiftRight vd sa s := rfl

theorem shiftInPlace_of_neg {s : State} {sa : SReg} (neg : s.int sa < 0)
    (op : BitArray → Nat → BitArray) (vd : VReg) :
    shiftInPlace op vd sa s = .next (failed .value s) := if_pos neg

theorem shiftInPlace_of_count {s : State} {sa : SReg} {n : Nat} (count : s.int sa = n)
    (op : BitArray → Nat → BitArray) (vd : VReg) :
    shiftInPlace op vd sa s = .next (done (s.setVec vd (op (s.vec vd) n))) := by
  rw [shiftInPlace, count, if_neg (by omega), Int.toNat_natCast, succeed_eq]

/-- The check and the result of any in-place shift, from the bits of its operation on vectors. -/
theorem exec_shift_result {i : Instr} {op : BitArray → Nat → BitArray} {s : State} {vd : VReg}
    {sa : SReg} {bit : Nat → Nat → Bool} (meaning : exec i s = shiftInPlace op vd sa s)
    (bits : ∀ n, IsVector (op (s.vec vd) n) (s.size vd) (bit n)) :
    (s.int sa < 0 → exec i s = .next (failed .value s)) ∧
      ∀ n : Nat, s.int sa = n →
        ∃ v, IsVector v (s.size vd) (bit n) ∧ exec i s = .next (done (s.setVec vd v)) :=
  ⟨fun neg => meaning.trans (shiftInPlace_of_neg neg op vd),
    fun n count => ⟨_, bits n, meaning.trans (shiftInPlace_of_count count op vd)⟩⟩

/-- Settles O35: both are `shiftInPlace` of a rotation, and a right rotation is a left one the rest of the
way around (`rotateRight_eq`). -/
theorem circularShiftsResult : Obligations.CircularShiftsResult := fun s vd sa =>
  ⟨⟨decode_encode_vrol vd sa,
      exec_shift_result (exec_vrol vd sa s) (isVector_rotateLeft (s.vec vd))⟩,
    ⟨decode_encode_vror vd sa,
      exec_shift_result (exec_vror vd sa s) (isVector_rotateRight (s.vec vd))⟩⟩

/-- Settles O36: both are `shiftInPlace` of a linear shift, whose count is not reduced modulo the size. -/
theorem linearShiftsResult : Obligations.LinearShiftsResult := fun s vd sa =>
  ⟨⟨decode_encode_vshl vd sa,
      exec_shift_result (exec_vshl vd sa s) (isVector_shiftLeft (s.vec vd))⟩,
    ⟨decode_encode_vshr vd sa,
      exec_shift_result (exec_vshr vd sa s) (isVector_shiftRight (s.vec vd))⟩⟩

end Machine

end Sys2Proof
end

section
/-! The statements of 44_permutation.md: permuting by the index list, and the two halves. -/

namespace Sys2Proof

/-! ### Reading back a word the encoder wrote (30_encoding.md R82) -/

theorem decode_encode_vperm (vd va : VReg) : decode (encode (.vperm vd va)) = .ok (.vperm vd va) :=
  decode_encode_of_vd_va (Laws.EncodeMatchesRow.vperm vd va) rfl rfl fun _ => rfl

theorem decode_encode_vunperm (vd va : VReg) :
    decode (encode (.vunperm vd va)) = .ok (.vunperm vd va) :=
  decode_encode_of_vd_va (Laws.EncodeMatchesRow.vunperm vd va) rfl rfl fun _ => rfl

theorem decode_encode_vhalf0 (vd va : VReg) :
    decode (encode (.vhalf0 vd va)) = .ok (.vhalf0 vd va) :=
  decode_encode_of_vd_va (Laws.EncodeMatchesRow.vhalf0 vd va) rfl rfl fun _ => rfl

theorem decode_encode_vhalf1 (vd va : VReg) :
    decode (encode (.vhalf1 vd va)) = .ok (.vhalf1 vd va) :=
  decode_encode_of_vd_va (Laws.EncodeMatchesRow.vhalf1 vd va) rfl rfl fun _ => rfl

namespace Machine

/-! ### The entries of an index list -/

/-- The check of R170 and R171 fails on the first entry that names no bit. -/
theorem not_indicesInRange_iff (l : List Scalar) (size : Nat) :
    ¬ indicesInRange l size = true ↔ ∃ i ∈ l, i.toInt < 0 ∨ size ≤ i.toInt := by
  simp only [indicesInRange_iff, not_forall, exists_prop, not_and_or, Int.not_le, Int.not_lt]

/-- An entry that passed the check is the position it names, read signed or unsigned. -/
theorem toNat_toInt_of_nonneg {i : Scalar} (nonneg : 0 ≤ i.toInt) : i.toInt.toNat = i.toNat := by
  rw [toNat_of_toInt_nonneg nonneg, Int.toNat_natCast]

/-! ### The bits of a permuted vector (R170) -/

theorem isVector_permute {v : BitArray} {l : List Scalar} (nonneg : ∀ i ∈ l, 0 ≤ i.toInt) :
    IsVector (permute v l) l.length (fun k => v.getD (l.getD k 0).toInt.toNat false) := by
  refine ⟨length_permute v l, fun k hk => ?_⟩
  beta_reduce
  rw [List.getD_eq_getElem l 0 hk, toNat_toInt_of_nonneg (nonneg _ (List.getElem_mem hk)), permute,
    List.getElem?_map, List.getElem?_eq_getElem hk, Option.map_some]

/-! ### The bits the loop of R171 leaves -/

theorem getElem?_unpermute_of_unnamed {v : BitArray} {l : List Scalar} {p : Nat} (hp : p < v.length)
    (unnamed : ∀ i ∈ l, i.toNat ≠ p) : (unpermute v l)[p]? = some false := by
  have kept := getElem?_foldl_set_of_notMem (l.zip v) (zeros v.length) p fun ib mem =>
    unnamed ib.1 (List.of_mem_zip mem).1
  exact kept.trans (List.getElem?_replicate_of_lt hp)

/-- The loop, cut at round `k`: no later round stores at that round's position. -/
theorem getElem?_unpermute_of_last {v : BitArray} {l : List Scalar} {k : Nat} {i : Scalar}
    (same : l.length = v.length) (entry : l[k]? = some i) (in_range : i.toNat < v.length)
    (last : ∀ (j : Nat) (i' : Scalar), k < j → l[j]? = some i' → i' ≠ i) :
    (unpermute v l)[i.toNat]? = v[k]? := by
  obtain ⟨hk, rfl⟩ := List.getElem?_eq_some_iff.mp entry
  have hkv : k < v.length := same ▸ hk
  have hkz : k < (l.zip v).length := by rw [List.length_zip]; omega
  have rounds : l.zip v = (l.zip v).take k ++ (l[k], v[k]) :: (l.zip v).drop (k + 1) := by
    rw [← List.getElem_zip (h := hkz), List.getElem_cons_drop, List.take_append_drop]
  have later : ∀ ib ∈ (l.zip v).drop (k + 1), ib.1.toNat ≠ l[k].toNat := by
    intro ib mem
    obtain ⟨j, hj, rfl⟩ := List.mem_drop_iff_getElem.mp mem
    rw [List.getElem_zip, ne_eq, BitVec.toNat_inj]
    exact last (k + 1 + j) _ (by omega) (List.getElem?_eq_getElem _)
  have stored := getElem?_foldl_set_of_last ((l.zip v).take k) _ (l[k], v[k]) (zeros v.length) later
    (by rwa [length_zeros])
  rw [unpermute, rounds, stored, List.getElem?_eq_getElem hkv]

/-! ### `VPERM` and `VUNPERM` (R170, R171) -/

theorem exec_vperm_of_out_of_range {s : State} {va : VReg}
    (outside : ∃ i ∈ s.indices, i.toInt < 0 ∨ s.size va ≤ i.toInt) (vd : VReg) :
    exec (.vperm vd va) s = .next (failed .perm s) :=
  if_neg ((not_indicesInRange_iff ..).mpr outside)

theorem exec_vperm_of_in_range {s : State} {va : VReg}
    (inside : ∀ i ∈ s.indices, 0 ≤ i.toInt ∧ i.toInt < s.size va) (vd : VReg) :
    exec (.vperm vd va) s = .next (done (s.setVec vd (permute (s.vec va) s.indices))) :=
  if_pos ((indicesInRange_iff ..).mpr inside)

/-- Settles O38: the check is `indicesInRange`; the bits are those of `isVector_permute`. -/
theorem vpermCollectsTheIndexedBits : Obligations.VpermCollectsTheIndexedBits := fun _ vd va =>
  ⟨decode_encode_vperm vd va, fun outside => exec_vperm_of_out_of_range outside vd,
    fun inside => ⟨_, isVector_permute fun i mem => (inside i mem).1,
      exec_vperm_of_in_range inside vd⟩⟩

theorem exec_vunperm_of_length_ne {s : State} {va : VReg} (differ : s.indices.length ≠ s.size va)
    (vd : VReg) : exec (.vunperm vd va) s = .next (failed .size s) := if_pos differ

theorem exec_vunperm_of_out_of_range {s : State} {va : VReg} (same : s.indices.length = s.size va)
    (outside : ∃ i ∈ s.indices, i.toInt < 0 ∨ s.size va ≤ i.toInt) (vd : VReg) :
    exec (.vunperm vd va) s = .next (failed .perm s) :=
  (if_neg (not_not_intro same)).trans (if_neg ((not_indicesInRange_iff ..).mpr outside))

theorem exec_vunperm_of_in_range {s : State} {va : VReg} (same : s.indices.length = s.size va)
    (inside : ∀ i ∈ s.indices, 0 ≤ i.toInt ∧ i.toInt < s.size va) (vd : VReg) :
    exec (.vunperm vd va) s = .next (done (s.setVec vd (unpermute (s.vec va) s.indices))) :=
  (if_neg (not_not_intro same)).trans (if_pos ((indicesInRange_iff ..).mpr inside))

/-- Settles O39: an entry in range is a natural number, so the two facts about the loop of R171
apply: positions never stored to, and the last store to a position. -/
theorem vunpermPlacesTheBits : Obligations.VunpermPlacesTheBits := by
  intro s vd va
  refine ⟨decode_encode_vunperm vd va, fun differ => exec_vunperm_of_length_ne differ vd,
    fun same outside => exec_vunperm_of_out_of_range same outside vd, fun same inside =>
      ⟨_, length_unpermute .., ?unnamed, ?last, exec_vunperm_of_in_range same inside vd⟩⟩
  case unnamed =>
    intro p hp unnamed
    refine getElem?_unpermute_of_unnamed hp fun i mem names => unnamed i mem ?_
    rw [toNat_of_toInt_nonneg (inside i mem).1, names]
  case last =>
    intro k i entry last
    obtain ⟨nonneg, below⟩ := inside i (List.mem_of_getElem? entry)
    rw [toNat_of_toInt_nonneg nonneg] at below
    rw [toNat_toInt_of_nonneg nonneg]
    exact getElem?_unpermute_of_last same entry (Int.ofNat_lt.mp below) last

/-! ### The two halves (R172, R173) -/

theorem isVector_firstHalf (v : BitArray) :
    IsVector (slice v 0 (v.length / 2)) (v.length / 2) (fun k => v.getD k false) := by
  have bits := isVector_slice (v := v) (i := 0) (Nat.div_le_self v.length 2)
  simpa only [Nat.sub_zero, Nat.zero_add] using bits

theorem isVector_secondHalf {v : BitArray} (even : v.length % 2 = 0) :
    IsVector (slice v (v.length / 2) v.length) (v.length / 2)
      (fun k => v.getD (v.length / 2 + k) false) := by
  have half : v.length - v.length / 2 = v.length / 2 := by omega
  have bits := isVector_slice (v := v) (i := v.length / 2) le_rfl
  rwa [half] at bits

theorem exec_vhalf0_of_odd {s : State} {va : VReg} (odd : s.size va % 2 = 1) (vd : VReg) :
    exec (.vhalf0 vd va) s = .next (failed .odd s) := if_pos odd

theorem exec_vhalf1_of_odd {s : State} {va : VReg} (odd : s.size va % 2 = 1) (vd : VReg) :
    exec (.vhalf1 vd va) s = .next (failed .odd s) := if_pos odd

theorem exec_vhalf0_of_even {s : State} {va : VReg} (even : s.size va % 2 = 0) (vd : VReg) :
    exec (.vhalf0 vd va) s =
      .next (done (s.setVec vd (slice (s.vec va) 0 (s.size va / 2)))) :=
  if_neg (Nat.mod_two_ne_one.mpr even)

theorem exec_vhalf1_of_even {s : State} {va : VReg} (even : s.size va % 2 = 0) (vd : VReg) :
    exec (.vhalf1 vd va) s =
      .next (done (s.setVec vd (slice (s.vec va) (s.size va / 2) (s.size va)))) :=
  if_neg (Nat.mod_two_ne_one.mpr even)

/-- Settles O41: both halves are slices, and an even size is twice its half. -/
theorem halvingCommandsResult : Obligations.HalvingCommandsResult := fun s vd va =>
  ⟨decode_encode_vhalf0 vd va, decode_encode_vhalf1 vd va,
    fun odd => ⟨exec_vhalf0_of_odd odd vd, exec_vhalf1_of_odd odd vd⟩,
    fun even => ⟨_, _, isVector_firstHalf (s.vec va), isVector_secondHalf even,
      exec_vhalf0_of_even even vd, exec_vhalf1_of_even even vd⟩⟩

end Machine

end Sys2Proof
end

section
/-! The statements of 45_bit_analysis.md: counting, searching, runs and metrics. -/

namespace Sys2Proof

/-! ### Reading back a word the encoder wrote (30_encoding.md R82) -/

/-- An instruction with a scalar destination and one vector source. -/
theorem decode_encode_of_sd_va {f : SReg → VReg → Instr} {op : BitVec 8} {r : OpcodeRow}
    {sd : SReg} {va : VReg} (passes : Laws.EncodeMatchesRow.Statement (f sd va))
    (word : encode (f sd va) = formatR op sd 0 0 0 va 0) (row : rowOf op = some r)
    (build : ∀ w, r.build w = f (fieldSD w) (fieldVA w)) :
    decode (encode (f sd va)) = .ok (f sd va) :=
  decode_encode_of_row passes (word ▸ fieldOp_formatR ..) row
    (by rw [build, word, fieldSD_formatR, fieldVA_formatR])

/-- An instruction with a scalar destination, a vector source and a scalar source. -/
theorem decode_encode_of_sd_va_sa {f : SReg → VReg → SReg → Instr} {op : BitVec 8} {r : OpcodeRow}
    {sd sa : SReg} {va : VReg} (passes : Laws.EncodeMatchesRow.Statement (f sd va sa))
    (word : encode (f sd va sa) = formatR op sd sa 0 0 va 0) (row : rowOf op = some r)
    (build : ∀ w, r.build w = f (fieldSD w) (fieldVA w) (fieldSA w)) :
    decode (encode (f sd va sa)) = .ok (f sd va sa) :=
  decode_encode_of_row passes (word ▸ fieldOp_formatR ..) row
    (by rw [build, word, fieldSD_formatR, fieldVA_formatR, fieldSA_formatR])

/-- An instruction with two scalar destinations, the second in the `SA` slot (30_encoding.md R71), and
two vector sources. -/
theorem decode_encode_of_sd_se_va_vb {f : SReg → SReg → VReg → VReg → Instr} {op : BitVec 8}
    {r : OpcodeRow} {sd se : SReg} {va vb : VReg}
    (passes : Laws.EncodeMatchesRow.Statement (f sd se va vb))
    (word : encode (f sd se va vb) = formatR op sd se 0 0 va vb) (row : rowOf op = some r)
    (build : ∀ w, r.build w = f (fieldSD w) (fieldSA w) (fieldVA w) (fieldVB w)) :
    decode (encode (f sd se va vb)) = .ok (f sd se va vb) :=
  decode_encode_of_row passes (word ▸ fieldOp_formatR ..) row
    (by rw [build, word, fieldSD_formatR, fieldSA_formatR, fieldVA_formatR, fieldVB_formatR])

theorem decode_encode_popc (sd : SReg) (va : VReg) :
    decode (encode (.popc sd va)) = .ok (.popc sd va) :=
  decode_encode_of_sd_va (Laws.EncodeMatchesRow.popc sd va) rfl rfl fun _ => rfl

theorem decode_encode_popcs (sd : SReg) (va : VReg) :
    decode (encode (.popcs sd va)) = .ok (.popcs sd va) :=
  decode_encode_of_sd_va (Laws.EncodeMatchesRow.popcs sd va) rfl rfl fun _ => rfl

theorem decode_encode_nsb (sd : SReg) (va : VReg) (sa : SReg) :
    decode (encode (.nsb sd va sa)) = .ok (.nsb sd va sa) :=
  decode_encode_of_sd_va_sa (Laws.EncodeMatchesRow.nsb sd va sa) rfl rfl fun _ => rfl

theorem decode_encode_rank (sd : SReg) (va : VReg) (sa : SReg) :
    decode (encode (.rank sd va sa)) = .ok (.rank sd va sa) :=
  decode_encode_of_sd_va_sa (Laws.EncodeMatchesRow.rank sd va sa) rfl rfl fun _ => rfl

theorem decode_encode_isp2 (sd : SReg) (va : VReg) :
    decode (encode (.isp2 sd va)) = .ok (.isp2 sd va) :=
  decode_encode_of_sd_va (Laws.EncodeMatchesRow.isp2 sd va) rfl rfl fun _ => rfl

theorem decode_encode_isp2s (sd : SReg) (va : VReg) :
    decode (encode (.isp2s sd va)) = .ok (.isp2s sd va) :=
  decode_encode_of_sd_va (Laws.EncodeMatchesRow.isp2s sd va) rfl rfl fun _ => rfl

theorem decode_encode_vruns (sd : SReg) (va : VReg) :
    decode (encode (.vruns sd va)) = .ok (.vruns sd va) :=
  decode_encode_of_sd_va (Laws.EncodeMatchesRow.vruns sd va) rfl rfl fun _ => rfl

theorem decode_encode_hamm (sd : SReg) (va vb : VReg) :
    decode (encode (.hamm sd va vb)) = .ok (.hamm sd va vb) :=
  decode_encode_of_sd_va_vb (Laws.EncodeMatchesRow.hamm sd va vb) rfl rfl fun _ => rfl

theorem decode_encode_jsim (sd se : SReg) (va vb : VReg) :
    decode (encode (.jsim sd se va vb)) = .ok (.jsim sd se va vb) :=
  decode_encode_of_sd_se_va_vb (Laws.EncodeMatchesRow.jsim sd se va vb) rfl rfl fun _ => rfl

theorem decode_encode_jdist (sd se : SReg) (va vb : VReg) :
    decode (encode (.jdist sd se va vb)) = .ok (.jdist sd se va vb) :=
  decode_encode_of_sd_se_va_vb (Laws.EncodeMatchesRow.jdist sd se va vb) rfl rfl fun _ => rfl

namespace Machine

/-! ### Population count (R180, R181, R184, R185) -/

theorem exec_popc (sd : SReg) (va : VReg) (s : State) :
    exec (.popc sd va) s = .next (done (s.setInt sd (popcount (s.vec va)))) := countBits_eq sd va s

theorem exec_popcs (sd : SReg) (va : VReg) (s : State) :
    exec (.popcs sd va) s = .next (done (s.setInt sd (popcount (s.vec va)))) := countBits_eq sd va s

theorem exec_isp2 (sd : SReg) (va : VReg) (s : State) :
    exec (.isp2 sd va) s =
      .next (done (s.setInt sd (if popcount (s.vec va) = 1 then 1 else 0))) :=
  isPowerOfTwo_eq sd va s

theorem exec_isp2s (sd : SReg) (va : VReg) (s : State) :
    exec (.isp2s sd va) s =
      .next (done (s.setInt sd (if popcount (s.vec va) = 1 then 1 else 0))) :=
  isPowerOfTwo_eq sd va s

/-- Settles O43: all four read the population count, which counts the set positions
(`popcount_eq_countBelow`). -/
theorem populationCountResult : Obligations.PopulationCountResult := by
  intro s sd va n count
  obtain rfl : popcount (s.vec va) = n := (popcount_eq_countBelow _).trans count
  exact ⟨⟨decode_encode_popc sd va, exec_popc sd va s⟩,
    ⟨decode_encode_popcs sd va, exec_popcs sd va s⟩,
    ⟨decode_encode_isp2 sd va, exec_isp2 sd va s⟩,
    ⟨decode_encode_isp2s sd va, exec_isp2s sd va s⟩⟩

/-! ### Searching and ranking (R182, R183) -/

/-- Positions at or after the cut do not count. -/
theorem popcount_take {v : BitArray} {n : Nat} (fits : n ≤ v.length) :
    popcount (v.take n) = countBelow n (fun p => v.getD p false) := by
  rw [popcount_eq_countBelow, List.length_take_of_le fits, countBelow, countBelow]
  refine congrArg List.length (List.filter_congr fun p hp => ?_)
  rw [List.getD_eq_getElem?_getD, List.getElem?_take_of_lt (List.mem_range.mp hp),
    ← List.getD_eq_getElem?_getD]

theorem exec_nsb_eq (sd : SReg) (va : VReg) (sa : SReg) (s : State) :
    exec (.nsb sd va sa) s = execNsb sd va sa s := rfl

theorem exec_nsb_of_least {s : State} {va : VReg} {sa : SReg} {p : Nat}
    (is_set : (s.vec va)[p]? = some true) (start : s.int sa ≤ p)
    (least : ∀ q : Nat, q < p → s.int sa ≤ q → (s.vec va)[q]? ≠ some true) (sd : SReg) :
    exec (.nsb sd va sa) s = .next (done (s.setInt sd p)) := by
  have found := (nextSetBit_eq_some_iff _ _ p).mpr ⟨⟨start, is_set⟩, least⟩
  rw [exec_nsb_eq, execNsb, found]
  rfl

theorem exec_nsb_of_none {s : State} {va : VReg} {sa : SReg}
    (none_set : ∀ p : Nat, s.int sa ≤ p → (s.vec va)[p]? ≠ some true) (sd : SReg) :
    exec (.nsb sd va sa) s = .next (done (s.setInt sd (-1))) := by
  have missing := (nextSetBit_eq_none_iff _ _).mpr none_set
  rw [exec_nsb_eq, execNsb, missing]
  rfl

theorem exec_rank_eq (sd : SReg) (va : VReg) (sa : SReg) (s : State) :
    exec (.rank sd va sa) s = execRank sd va sa s := rfl

theorem exec_rank_of_out_of_range {s : State} {va : VReg} {sa : SReg}
    (outside : s.int sa < 0 ∨ s.size va ≤ s.int sa) (sd : SReg) :
    exec (.rank sd va sa) s = .next (failed .index s) := by
  have refused := (plainIdx_eq_none_iff _ _).mpr outside
  rw [exec_rank_eq, execRank, refused, raise_eq]

theorem exec_rank_of_bit {s : State} {va : VReg} {sa : SReg} {i : Nat} {b : Bool}
    (index : s.int sa = i) (bit : (s.vec va)[i]? = some b) (sd : SReg) :
    exec (.rank sd va sa) s = .next (done (s.setInt sd
      (if b then countBelow (i + 1) (fun p => (s.vec va).getD p false) else 0))) := by
  obtain ⟨in_range, -⟩ := List.getElem?_eq_some_iff.mp bit
  have legal := (plainIdx_eq_some_iff _ (s.size va) i).mpr ⟨index, in_range⟩
  have value : (s.vec va).getD i false = b := by
    rw [List.getD_eq_getElem?_getD, bit, Option.getD_some]
  rw [exec_rank_eq, execRank, legal, ← popcount_take in_range]
  simp only [value]
  cases b <;> rfl

/-- Settles O44: `NSB` splits on whether the search of R182 finds a position, `RANK` on whether the
scalar names a bit. -/
theorem searchAndRankResult : Obligations.SearchAndRankResult := by
  intro s sd va sa
  refine ⟨⟨decode_encode_nsb sd va sa, ?least, ?none_set⟩,
    ⟨decode_encode_rank sd va sa, ?outside, ?bit⟩⟩
  case least =>
    intro p is_set start clear
    refine exec_nsb_of_least is_set start (fun q before after => ?_) sd
    rw [clear q before after]
    exact nofun
  case none_set => exact fun none_set => exec_nsb_of_none none_set sd
  case outside => exact fun outside => exec_rank_of_out_of_range outside sd
  case bit => exact fun _ _ index bit => exec_rank_of_bit index bit sd

/-! ### Runs (R187, R189) -/

theorem runs_cons_of_head?_ne {b : Bool} {v : BitArray} (differs : v.head? ≠ some b) :
    runs (b :: v) = (b, 1) :: runs v := by
  have first := head?_runs v
  rw [runs]
  cases eq : runs v with
  | nil => rfl
  | cons r rest =>
    rw [eq] at first
    exact if_neg fun same : b = r.1 => differs (first.symm.trans (congrArg some same.symm))

theorem runs_cons_of_runs_eq {b : Bool} {v : BitArray} {n : Nat} {rest : List (Bool × Nat)}
    (eq : runs v = (b, n) :: rest) : runs (b :: v) = (b, n + 1) :: rest := by
  rw [runs, eq]
  exact if_pos rfl

/-- Equal bits in front of a vector that starts otherwise are its first run. -/
theorem runs_replicate_append {b : Bool} {v : BitArray} (differs : v.head? ≠ some b) (n : Nat) :
    runs (List.replicate (n + 1) b ++ v) = (b, n + 1) :: runs v := by
  induction n with
  | zero => exact runs_cons_of_head?_ne differs
  | succ n ih => exact runs_cons_of_runs_eq ih

theorem head?_flatMap_replicate {rs : List (Bool × Nat)} (pos : ∀ r ∈ rs, 1 ≤ r.2) :
    (rs.flatMap fun r => List.replicate r.2 r.1).head? = rs.head?.map Prod.fst := by
  cases rs with
  | nil => rfl
  | cons r rs =>
    obtain ⟨n, length⟩ := Nat.exists_eq_add_of_le' (pos r List.mem_cons_self)
    rw [List.flatMap_cons, length]
    rfl

/-- Positive runs of alternating values are read back from the vector they make. -/
theorem runs_flatMap_replicate {rs : List (Bool × Nat)} (pos : ∀ r ∈ rs, 1 ≤ r.2)
    (alternate : rs.IsChain (fun a b => a.1 ≠ b.1)) :
    runs (rs.flatMap fun r => List.replicate r.2 r.1) = rs := by
  induction rs with
  | nil => rfl
  | cons r rs ih =>
    obtain ⟨next_differs, alternate_rs⟩ := List.isChain_cons.mp alternate
    have pos_rs : ∀ r ∈ rs, 1 ≤ r.2 := fun r mem => pos r (List.mem_cons_of_mem _ mem)
    have differs : (rs.flatMap fun r => List.replicate r.2 r.1).head? ≠ some r.1 := by
      rw [head?_flatMap_replicate pos_rs]
      intro same
      obtain ⟨next, is_next, value⟩ := Option.map_eq_some_iff.mp same
      exact next_differs next is_next value.symm
    obtain ⟨b, length⟩ := r
    obtain ⟨n, rfl⟩ := Nat.exists_eq_add_of_le' (pos _ List.mem_cons_self)
    rw [List.flatMap_cons, runs_replicate_append differs, ih pos_rs alternate_rs]

theorem isRuns_runs (v : BitArray) : IsRuns v (runs v) :=
  ⟨flatMap_runs v, one_le_of_mem_runs v, isChain_runs v⟩

/-- R187: the run decomposition is unique. -/
theorem IsRuns.eq_runs {v : BitArray} {rs : List (Bool × Nat)} (h : IsRuns v rs) : rs = runs v := by
  obtain ⟨rfl, pos, alternate⟩ := h
  exact (runs_flatMap_replicate pos alternate).symm

theorem truth_headD_eq (v : BitArray) :
    truth (v.headD false) = if (runs v).head?.map Prod.fst = some true then 1 else 0 := by
  rw [head?_runs]
  cases v with
  | nil => rfl
  | cons b v => cases b <;> rfl

theorem exec_vruns (sd : SReg) (va : VReg) (s : State) :
    exec (.vruns sd va) s = .next (done
      ((s.setIndices ((runs (s.vec va)).map fun r => BitVec.ofNat 32 r.2)).setInt sd
        (if (runs (s.vec va)).head?.map Prod.fst = some true then 1 else 0))) := by
  rw [← truth_headD_eq]
  rfl

/-- Settles O45: the model's `runs` is the one run decomposition. -/
theorem vrunsWritesTheRunLengths : Obligations.VrunsWritesTheRunLengths := fun s sd va =>
  ⟨decode_encode_vruns sd va, runs (s.vec va), isRuns_runs (s.vec va), fun _ h => h.eq_runs,
    length_runs_le (s.vec va), exec_vruns sd va s⟩

/-! ### Metrics (R188, R190 to R192) -/

theorem exec_hamm_of_size_ne {s : State} {va vb : VReg} (differ : s.size va ≠ s.size vb)
    (sd : SReg) : exec (.hamm sd va vb) s = .next (failed .size s) := if_pos differ

theorem exec_hamm_of_size_eq {s : State} {va vb : VReg} (same : s.size va = s.size vb)
    (sd : SReg) :
    exec (.hamm sd va vb) s = .next (done (s.setInt sd (countBelow (s.size va)
      (fun k => (s.vec va).getD k false != (s.vec vb).getD k false)))) := by
  have result : exec (.hamm sd va vb) s = .next (done (s.setInt sd
      (popcount (List.zipWith (· != ·) (s.vec va) (s.vec vb))))) :=
    if_neg (not_not_intro same)
  rw [result, popcount_zipWith (· != ·) same]
  rfl

theorem exec_jsim (sd se : SReg) (va vb : VReg) (s : State) :
    exec (.jsim sd se va vb) s = jaccard (fun i _ => i) sd se va vb s := rfl

theorem exec_jdist (sd se : SReg) (va vb : VReg) (s : State) :
    exec (.jdist sd se va vb) s = jaccard (fun i u => (u : Int) - i) sd se va vb s := rfl

/-- R188: the positions set in both vectors, and those set in either. -/
theorem jaccardCounts_eq {a b : BitArray} (same : a.length = b.length) :
    jaccardCounts a b =
      (countBelow a.length (fun k => a.getD k false && b.getD k false),
        countBelow a.length (fun k => a.getD k false || b.getD k false)) :=
  congrArg₂ Prod.mk (popcount_zipWith and same) (popcount_zipWith or same)

theorem jaccard_of_dests_eq {sd se : SReg} (equal : sd = se) (f : Nat → Nat → Int) (va vb : VReg)
    (s : State) : jaccard f sd se va vb s = .next (failed .illegal s) := if_pos equal

theorem jaccard_of_size_ne {s : State} {sd se : SReg} {va vb : VReg} (distinct : sd ≠ se)
    (differ : s.size va ≠ s.size vb) (f : Nat → Nat → Int) :
    jaccard f sd se va vb s = .next (failed .size s) :=
  (if_neg distinct).trans (if_pos differ)

theorem jaccard_of_union_zero {s : State} {sd se : SReg} {va vb : VReg} {i : Nat}
    (distinct : sd ≠ se) (same : s.size va = s.size vb)
    (counts : jaccardCounts (s.vec va) (s.vec vb) = (i, 0)) (f : Nat → Nat → Int) :
    jaccard f sd se va vb s = .next (failed .undef s) := by
  rw [jaccard, if_neg distinct, if_neg (not_not_intro same), counts]
  rfl

theorem jaccard_of_union_ne_zero {s : State} {sd se : SReg} {va vb : VReg} {i u : Nat}
    (distinct : sd ≠ se) (same : s.size va = s.size vb)
    (counts : jaccardCounts (s.vec va) (s.vec vb) = (i, u)) (nonzero : u ≠ 0)
    (f : Nat → Nat → Int) :
    jaccard f sd se va vb s = .next (done ((s.setInt sd (f i u)).setInt se u)) := by
  rw [jaccard, if_neg distinct, if_neg (not_not_intro same), counts]
  exact if_neg nonzero

/-- Settles O46: `JSIM` and `JDIST` are `jaccard` of their numerator, so its four cases serve both; the
counts are those of `popcount_zipWith`. -/
theorem metricsResult : Obligations.MetricsResult := by
  rintro s sd se va vb _ i u rfl common either
  have counts (same : s.size va = s.size vb) : jaccardCounts (s.vec va) (s.vec vb) = (i, u) :=
    (jaccardCounts_eq same).trans (congrArg₂ Prod.mk common either)
  simp only [exec_jsim, exec_jdist]
  refine ⟨⟨decode_encode_hamm sd va vb, fun differ => exec_hamm_of_size_ne differ sd,
      fun same => exec_hamm_of_size_eq same sd⟩,
    ⟨decode_encode_jsim sd se va vb, decode_encode_jdist sd se va vb⟩,
    ?dests, ?sizes, ?union_zero, ?union_ne_zero⟩
  case dests =>
    exact fun equal => ⟨jaccard_of_dests_eq equal .., jaccard_of_dests_eq equal ..⟩
  case sizes =>
    exact fun distinct differ =>
      ⟨jaccard_of_size_ne distinct differ _, jaccard_of_size_ne distinct differ _⟩
  case union_zero =>
    rintro distinct same rfl
    exact ⟨jaccard_of_union_zero distinct same (counts same) _,
      jaccard_of_union_zero distinct same (counts same) _⟩
  case union_ne_zero =>
    intro distinct same nonzero
    exact ⟨jaccard_of_union_ne_zero distinct same (counts same) nonzero _,
      jaccard_of_union_ne_zero distinct same (counts same) nonzero _⟩

end Machine

end Sys2Proof
end

section
/-! The statements of 46_galois_field.md: arithmetic of polynomials over GF(2), the inverse modulo an
integer and the greatest common divisor of integers. -/

namespace Sys2Proof

/-! ### Reading back a word the encoder wrote (30_encoding.md R82) -/

/-- An instruction with a vector destination, two vector sources and a scalar source. -/
theorem decode_encode_of_vd_va_vb_sa {f : VReg → VReg → VReg → SReg → Instr} {op : BitVec 8}
    {r : OpcodeRow} {vd va vb : VReg} {sa : SReg}
    (passes : Laws.EncodeMatchesRow.Statement (f vd va vb sa))
    (word : encode (f vd va vb sa) = formatR op 0 sa 0 vd va vb) (row : rowOf op = some r)
    (build : ∀ w, r.build w = f (fieldVD w) (fieldVA w) (fieldVB w) (fieldSA w)) :
    decode (encode (f vd va vb sa)) = .ok (f vd va vb sa) :=
  decode_encode_of_row passes (word ▸ fieldOp_formatR ..) row
    (by rw [build, word, fieldVD_formatR, fieldVA_formatR, fieldVB_formatR, fieldSA_formatR])

theorem decode_encode_gfmul (vd va vb : VReg) :
    decode (encode (.gfmul vd va vb)) = .ok (.gfmul vd va vb) :=
  decode_encode_of_vd_va_vb (Laws.EncodeMatchesRow.gfmul vd va vb) rfl rfl fun _ => rfl

theorem decode_encode_gfquo (vd va vb : VReg) (sa : SReg) :
    decode (encode (.gfquo vd va vb sa)) = .ok (.gfquo vd va vb sa) :=
  decode_encode_of_vd_va_vb_sa (Laws.EncodeMatchesRow.gfquo vd va vb sa) rfl rfl fun _ => rfl

theorem decode_encode_gfrem (vd va vb : VReg) (sa : SReg) :
    decode (encode (.gfrem vd va vb sa)) = .ok (.gfrem vd va vb sa) :=
  decode_encode_of_vd_va_vb_sa (Laws.EncodeMatchesRow.gfrem vd va vb sa) rfl rfl fun _ => rfl

/-- The third vector source of `GFMULM` stands in the `SB` slot (30_encoding.md R71). -/
theorem decode_encode_gfmulm (vd va vb vc : VReg) (sa : SReg) :
    decode (encode (.gfmulm vd va vb vc sa)) = .ok (.gfmulm vd va vb vc sa) :=
  decode_encode_of_row (Laws.EncodeMatchesRow.gfmulm vd va vb vc sa) (fieldOp_formatR ..) rfl
    (congr (congr (congr (congrArg₂ Instr.gfmulm (fieldVD_formatR ..) (fieldVA_formatR ..))
      (fieldVB_formatR ..)) (fieldSB_formatR ..)) (fieldSA_formatR ..))

theorem decode_encode_gfmi (vd va vb : VReg) (sa : SReg) :
    decode (encode (.gfmi vd va vb sa)) = .ok (.gfmi vd va vb sa) :=
  decode_encode_of_vd_va_vb_sa (Laws.EncodeMatchesRow.gfmi vd va vb sa) rfl rfl fun _ => rfl

theorem decode_encode_modinv (vd va vb : VReg) :
    decode (encode (.modinv vd va vb)) = .ok (.modinv vd va vb) :=
  decode_encode_of_vd_va_vb (Laws.EncodeMatchesRow.modinv vd va vb) rfl rfl fun _ => rfl

theorem decode_encode_vgcd (vd va vb : VReg) :
    decode (encode (.vgcd vd va vb)) = .ok (.vgcd vd va vb) :=
  decode_encode_of_vd_va_vb (Laws.EncodeMatchesRow.vgcd vd va vb) rfl rfl fun _ => rfl

namespace Machine

/-! ### The product (R200) -/

/-- The polynomial of a number written in enough bits (00_scope.md R8). -/
theorem polyOf_fromInt_of_lt {n size : Nat} (fits : n < 2 ^ size) :
    polyOf (fromInt n size) = natPoly n := by
  rw [polyOf_eq, intOf_fromInt_of_lt fits]

theorem polyOf_product (a b : BitArray) :
    polyOf (fromInt (mulBits a (intOf b)) (a.length + b.length - 1)) = polyOf a * polyOf b := by
  rw [polyOf_fromInt_of_lt (mulBits_lt a b), natPoly_mulBits, polyOf_eq, polyOf_eq]

theorem exec_gfmul_of_above_cap {s : State} {va vb : VReg}
    (above : s.params.cap < s.size va + s.size vb - 1) (vd : VReg) :
    exec (.gfmul vd va vb) s = .next (failed .cap s) := if_pos above

theorem exec_gfmul_of_fits {s : State} {va vb : VReg}
    (fits : s.size va + s.size vb - 1 ≤ s.params.cap) (vd : VReg) :
    exec (.gfmul vd va vb) s = .next (done (s.setVec vd
      (fromInt (mulBits (s.vec va) (intOf (s.vec vb))) (s.size va + s.size vb - 1)))) :=
  if_neg (Nat.not_lt.mpr fits)

/-- Settles O47: the size of the result decides the check and holds the product (`mulBits_lt`). -/
theorem gfmulMultipliesThePolynomials : Obligations.GfmulMultipliesThePolynomials :=
  fun s vd va vb =>
    ⟨decode_encode_gfmul vd va vb, fun above => exec_gfmul_of_above_cap above vd,
      fun fits => ⟨_, length_fromInt .., polyOf_product (s.vec va) (s.vec vb),
        exec_gfmul_of_fits fits vd⟩⟩

/-! ### The checks on a modulus (R209) -/

/-- The modulus `m` passes the three checks of `modcheck(m, n)`. -/
structure ValidModulus (m : BitArray) (n : Int) : Prop where
  /-- Check a. -/
  pos : 1 ≤ n
  /-- Check b. -/
  size : (m.length : Int) = n + 1
  /-- Check c. -/
  nonzero : intOf m ≠ 0

theorem intOf_ne_zero_of_set_bit {m : BitArray} (set : ∃ b ∈ m, b = true) : intOf m ≠ 0 := by
  rw [Ne, intOf_eq_zero_iff]
  obtain ⟨b, mem, rfl⟩ := set
  exact fun clear => Bool.noConfusion (clear true mem)

/-- What the four instructions with a modulus share: nothing is written before the checks are passed,
and then the command succeeds with its writes `t`. -/
def modCheckThen (m : BitArray) (n : Int) (s t : State) : Result :=
  match modCheck m n with
  | some e => raise e s
  | none => succeed t

theorem modCheckThen_of_refused {m : BitArray} {n : Int} {e : ErrCode}
    (refused : modCheck m n = some e) (s t : State) :
    modCheckThen m n s t = .next (failed e s) := by
  rw [modCheckThen, refused]
  exact raise_eq e s

theorem modCheckThen_of_valid {m : BitArray} {n : Int} (valid : ValidModulus m n) (s t : State) :
    modCheckThen m n s t = .next (done t) := by
  obtain ⟨pos, size, nonzero⟩ := valid
  rw [modCheckThen, (modCheck_eq_none_iff m n).mpr ⟨pos, size, nonzero⟩]
  exact succeed_eq t

/-- The three refusals of `modcheck`, by the one case of `modCheck_cases` that each leaves possible. -/
theorem checksModulus_of_meaning {i : Instr} {m : BitArray} {n : Int} {s t : State}
    (meaning : exec i s = modCheckThen m n s t) : ChecksModulus i m n s := by
  simp only [ChecksModulus, meaning, ← intOf_eq_zero_iff]
  obtain ⟨below, refused⟩ | ⟨pos, differ, refused⟩ | ⟨pos, size, zero, refused⟩ |
    ⟨pos, size, nonzero, -⟩ := modCheck_cases m n
  · have fails := modCheckThen_of_refused refused s t
    exact ⟨fun _ => fails, fun pos => by omega, fun pos => by omega⟩
  · have fails := modCheckThen_of_refused refused s t
    exact ⟨fun below => by omega, fun _ _ => fails, fun _ size => absurd size differ⟩
  · have fails := modCheckThen_of_refused refused s t
    exact ⟨fun below => by omega, fun _ differ => absurd size differ, fun _ _ _ => fails⟩
  · exact ⟨fun below => by omega, fun _ differ => absurd size differ,
      fun _ _ zero => absurd zero nonzero⟩

theorem exec_of_validModulus {i : Instr} {m : BitArray} {n : Int} {s t : State}
    (meaning : exec i s = modCheckThen m n s t) (valid : ValidModulus m n) :
    exec i s = .next (done t) := meaning.trans (modCheckThen_of_valid valid s t)

/-! ### What the instructions with a modulus write (R201 to R204) -/

/-- What an instruction that looks for an inverse writes: the inverse found, or the empty vector, and
`NR` accordingly (R204, R205). -/
def State.setInverse (s : State) (vd : VReg) : Option BitArray → State
  | some v => { s.setVec vd v with nr := false }
  | none => { s.setVec vd [] with nr := true }

theorem exec_gfquo_eq (vd va vb : VReg) (sa : SReg) (s : State) :
    exec (.gfquo vd va vb sa) s = modCheckThen (s.vec vb) (s.int sa) s (s.setVec vd
      (fromInt (polyDivMod (intOf (s.vec va)) (intOf (s.vec vb))).1 (s.size va))) := rfl

theorem exec_gfrem_eq (vd va vb : VReg) (sa : SReg) (s : State) :
    exec (.gfrem vd va vb sa) s = modCheckThen (s.vec vb) (s.int sa) s (s.setVec vd
      (fromInt (polyDivMod (intOf (s.vec va)) (intOf (s.vec vb))).2 (s.int sa).toNat)) := rfl

theorem exec_gfmulm_eq (vd va vb vc : VReg) (sa : SReg) (s : State) :
    exec (.gfmulm vd va vb vc sa) s = modCheckThen (s.vec vc) (s.int sa) s (s.setVec vd
      (fromInt (polyDivMod (mulBits (s.vec va) (intOf (s.vec vb))) (intOf (s.vec vc))).2
        (s.int sa).toNat)) := rfl

theorem exec_gfmi_eq (vd va vb : VReg) (sa : SReg) (s : State) :
    exec (.gfmi vd va vb sa) s = modCheckThen (s.vec vb) (s.int sa) s (s.setInverse vd
      ((polyInverse (intOf (s.vec va)) (intOf (s.vec vb))).map
        fun b => fromInt b (s.int sa).toNat)) := by
  have unfolded : exec (.gfmi vd va vb sa) s = execGfmi vd va vb sa s := rfl
  rw [unfolded, execGfmi]
  cases polyInverse (intOf (s.vec va)) (intOf (s.vec vb)) <;> rfl

/-- Settles O48: the four instructions are `modCheckThen` of what they write, so one argument about it
serves them all. -/
theorem modulusChecksInOrder : Obligations.ModulusChecksInOrder := by
  intro s vd va vb vm sa i instruction
  obtain ⟨t, meaning⟩ : ∃ t, exec i s = modCheckThen (s.vec vm) (s.int sa) s t := by
    obtain rfl | rfl | rfl | rfl := instruction
    · exact ⟨_, exec_gfquo_eq vd va vm sa s⟩
    · exact ⟨_, exec_gfrem_eq vd va vm sa s⟩
    · exact ⟨_, exec_gfmulm_eq vd va vb vm sa s⟩
    · exact ⟨_, exec_gfmi_eq vd va vm sa s⟩
  refine ⟨checksModulus_of_meaning meaning, fun pos size set => ⟨_, ?_, done_resp t⟩⟩
  exact exec_of_validModulus meaning ⟨pos, size, intOf_ne_zero_of_set_bit set⟩

/-! ### Quotient and remainder (R201 to R203) -/

/-- R209: a modulus of `n + 1` bits has degree at most `n`, so what has lower degree fits in `n` bits. -/
theorem ValidModulus.two_pow_degree_le {m : BitArray} {n : Int} (valid : ValidModulus m n) :
    2 ^ degree (intOf m) ≤ 2 ^ n.toNat := by
  obtain ⟨pos, size, nonzero⟩ := valid
  have below : degree (intOf m) < m.length := (Nat.log2_lt nonzero).mpr (intOf_lt m)
  exact Nat.pow_le_pow_right Nat.two_pos (by omega)

theorem polyOf_quotient (a : BitArray) {m : BitArray} (nonzero : intOf m ≠ 0) :
    polyOf (fromInt (polyDivMod (intOf a) (intOf m)).1 a.length) = polyOf a / polyOf m := by
  have fits := polyDivMod_fst_lt nonzero (intOf_lt a)
  obtain ⟨quotient, -⟩ := natPoly_polyDivMod (intOf a) (intOf m) nonzero
  rw [polyOf_fromInt_of_lt fits, quotient, polyOf_eq, polyOf_eq]

theorem polyOf_remainder (p : Nat) {m : BitArray} {n : Int} (valid : ValidModulus m n) :
    polyOf (fromInt (polyDivMod p (intOf m)).2 n.toNat) = natPoly p % polyOf m := by
  have fits := (polyDivMod_snd_lt p _ valid.nonzero).trans_le valid.two_pow_degree_le
  obtain ⟨-, remainder⟩ := natPoly_polyDivMod p (intOf m) valid.nonzero
  rw [polyOf_fromInt_of_lt fits, remainder, polyOf_eq]

/-- Settles O49: the two results of one division; the quotient fits in the dividend's size, the
remainder in `n` bits. -/
theorem gfquoAndGfremDivideThePolynomials : Obligations.GfquoAndGfremDivideThePolynomials := by
  intro s vd va vb sa
  have quotient_meaning := exec_gfquo_eq vd va vb sa s
  have remainder_meaning := exec_gfrem_eq vd va vb sa s
  refine ⟨decode_encode_gfquo vd va vb sa, decode_encode_gfrem vd va vb sa,
    checksModulus_of_meaning quotient_meaning, checksModulus_of_meaning remainder_meaning,
    fun pos size set => ?_⟩
  have valid : ValidModulus (s.vec vb) (s.int sa) := ⟨pos, size, intOf_ne_zero_of_set_bit set⟩
  constructor
  · exact ⟨_, length_fromInt .., polyOf_quotient (s.vec va) valid.nonzero,
      exec_of_validModulus quotient_meaning valid⟩
  · refine ⟨_, length_fromInt .., ?_, exec_of_validModulus remainder_meaning valid⟩
    rw [polyOf_remainder _ valid, polyOf_eq (s.vec va)]

/-- Settles O50: the remainder of the whole product, which no size bounds. -/
theorem gfmulmMultipliesModuloTheModulus : Obligations.GfmulmMultipliesModuloTheModulus := by
  intro s vd va vb vc sa
  have meaning := exec_gfmulm_eq vd va vb vc sa s
  refine ⟨decode_encode_gfmulm vd va vb vc sa, checksModulus_of_meaning meaning,
    fun pos size set => ?_⟩
  have valid : ValidModulus (s.vec vc) (s.int sa) := ⟨pos, size, intOf_ne_zero_of_set_bit set⟩
  refine ⟨_, length_fromInt .., ?_, exec_of_validModulus meaning valid⟩
  rw [polyOf_remainder _ valid, natPoly_mulBits, ← polyOf_eq, ← polyOf_eq]

/-! ### The inverse modulo a polynomial (R204) -/

/-- The inverse that `polyInverse` answers, written in `n` bits. -/
theorem polyOf_inverse {a m : BitArray} {n : Int} {b : Nat} (valid : ValidModulus m n)
    (found : polyInverse (intOf a) (intOf m) = some b) :
    (polyOf (fromInt b n.toNat)).degree < (polyOf m).degree ∧
      polyOf a * polyOf (fromInt b n.toNat) % polyOf m = 1 := by
  obtain ⟨answers, -⟩ := polyInverse_spec (intOf a) (intOf m) valid.nonzero
  obtain ⟨below, inverse⟩ := answers b found
  rw [polyOf_fromInt_of_lt (below.trans_le valid.two_pow_degree_le), polyOf_eq a, polyOf_eq m,
    degree_natPoly valid.nonzero]
  exact ⟨(lt_two_pow_iff_degree_lt b _).mp below, inverse⟩

theorem polyInverse_isSome_iff (a : BitArray) {m : BitArray} (nonzero : intOf m ≠ 0) :
    (polyInverse (intOf a) (intOf m)).isSome = true ↔
      polyOf a % polyOf m ≠ 0 ∧ IsCoprime (polyOf a) (polyOf m) := by
  obtain ⟨-, exactly⟩ := polyInverse_spec (intOf a) (intOf m) nonzero
  rw [polyOf_eq, polyOf_eq, exactly]

/-- Settles O51: `polyInverse` answers exactly when the condition of R204 holds, and `setInverse` writes
its answer. -/
theorem gfmiFindsTheInverse : Obligations.GfmiFindsTheInverse := by
  intro s vd va vb sa
  have meaning := exec_gfmi_eq vd va vb sa s
  refine ⟨decode_encode_gfmi vd va vb sa, checksModulus_of_meaning meaning, fun pos size set => ?_⟩
  have valid : ValidModulus (s.vec vb) (s.int sa) := ⟨pos, size, intOf_ne_zero_of_set_bit set⟩
  have result := exec_of_validModulus meaning valid
  rw [← polyInverse_isSome_iff (s.vec va) valid.nonzero]
  cases found : polyInverse (intOf (s.vec va)) (intOf (s.vec vb)) with
  | some b =>
    rw [found] at result
    obtain ⟨degree_lt, inverse⟩ := polyOf_inverse valid found
    exact ⟨fun _ => ⟨_, length_fromInt .., degree_lt, inverse, result⟩,
      fun not_found => absurd rfl not_found⟩
  | none =>
    rw [found] at result
    exact ⟨nofun, fun _ => result⟩

/-! ### The inverse modulo an integer (R205) -/

theorem exec_modinv_of_zero {s : State} {vb : VReg} (zero : intOf (s.vec vb) = 0) (vd va : VReg) :
    exec (.modinv vd va vb) s = .next (failed .divZero s) := if_pos zero

theorem exec_modinv_of_nonzero {s : State} {vb : VReg} (nonzero : intOf (s.vec vb) ≠ 0)
    (vd va : VReg) :
    exec (.modinv vd va vb) s = .next (done (s.setInverse vd
      ((modInverse (intOf (s.vec va)) (intOf (s.vec vb))).map minRep))) := by
  have unfolded : exec (.modinv vd va vb) s = execModinv vd va vb s := rfl
  rw [unfolded, execModinv, if_neg nonzero]
  cases modInverse (intOf (s.vec va)) (intOf (s.vec vb)) <;> rfl

/-- A value below that of a vector needs no more bits than the vector has. -/
theorem length_minRep_le_of_lt {n : Nat} {v : BitArray} (below : n < intOf v) :
    (minRep n).length ≤ v.length := by
  have value_lt := intOf_lt v
  have nonempty : v.length ≠ 0 := by
    intro empty
    rw [empty] at value_lt
    omega
  rw [length_minRep, minLen_le_iff]
  omega

/-- Settles O52: `modInverse` answers exactly when the two are coprime, and `setInverse` writes its
answer. -/
theorem modinvFindsTheInverse : Obligations.ModinvFindsTheInverse := by
  rintro s vd va vb _ _ rfl rfl
  refine ⟨decode_encode_modinv vd va vb, fun zero => exec_modinv_of_zero zero vd va,
    fun nonzero coprime => ?_, fun nonzero not_coprime => ?_⟩
  all_goals
    have result := exec_modinv_of_nonzero nonzero vd va
    obtain ⟨answers, exactly⟩ := modInverse_spec (intOf (s.vec va)) (intOf (s.vec vb)) nonzero
  · obtain ⟨x, found⟩ := Option.isSome_iff_exists.mp (exactly.mpr coprime)
    obtain ⟨below, inverse⟩ := answers x found
    rw [found] at result
    exact ⟨x, _, below, inverse, isMinRep_minRep x, length_minRep_le_of_lt below, result⟩
  · have none_found := Option.not_isSome_iff_eq_none.mp (mt exactly.mp not_coprime)
    rwa [none_found] at result

/-! ### The greatest common divisor (R206) -/

theorem exec_vgcd (vd va vb : VReg) (s : State) :
    exec (.vgcd vd va vb) s =
      .next (done (s.setVec vd (minRep (Nat.gcd (intOf (s.vec va)) (intOf (s.vec vb)))))) := rfl

/-- R206: the divisor divides an operand that is not 0; of two zeros it is 0, one bit. -/
theorem length_minRep_gcd_le (a b : BitArray) :
    (minRep (Nat.gcd (intOf a) (intOf b))).length ≤ max (max a.length b.length) 1 := by
  have fits : Nat.gcd (intOf a) (intOf b) < 2 ^ max a.length b.length := by
    obtain zero | nonzero := Nat.eq_zero_or_pos (intOf a)
    · rw [zero, Nat.gcd_zero_left]
      exact (intOf_lt b).trans_le (Nat.pow_le_pow_right Nat.two_pos (le_max_right ..))
    · calc Nat.gcd (intOf a) (intOf b) ≤ intOf a := Nat.gcd_le_left _ nonzero
        _ < 2 ^ a.length := intOf_lt a
        _ ≤ 2 ^ max a.length b.length := Nat.pow_le_pow_right Nat.two_pos (le_max_left ..)
  rw [length_minRep, minLen_le_iff]
  exact ⟨le_max_right .., fits.trans_le (Nat.pow_le_pow_right Nat.two_pos (le_max_left ..))⟩

/-- Settles O53: `VGCD` has no check; its divisibility laws are those of `Nat.gcd`. -/
theorem vgcdComputesTheIntegerGcd : Obligations.VgcdComputesTheIntegerGcd := fun s vd va vb =>
  ⟨decode_encode_vgcd vd va vb, _, _, Nat.gcd_dvd_left .., Nat.gcd_dvd_right ..,
    fun _ => Nat.dvd_gcd, isMinRep_minRep _, length_minRep_gcd_le (s.vec va) (s.vec vb),
    exec_vgcd vd va vb s⟩

end Machine

end Sys2Proof
end

section
/-! The statements of 47_byte_packing.md: reading and appending a byte. -/

namespace Sys2Proof

/-! ### Reading back a word the encoder wrote (30_encoding.md R82) -/

theorem decode_encode_getbyte (sd : SReg) (va : VReg) (sa : SReg) :
    decode (encode (.getbyte sd va sa)) = .ok (.getbyte sd va sa) :=
  decode_encode_of_sd_va_sa (Laws.EncodeMatchesRow.getbyte sd va sa) rfl rfl fun _ => rfl

theorem decode_encode_appbyte (vd : VReg) (sa : SReg) :
    decode (encode (.appbyte vd sa)) = .ok (.appbyte vd sa) :=
  decode_encode_of_vd_sa (Laws.EncodeMatchesRow.appbyte vd sa) rfl rfl fun _ => rfl

namespace Machine

/-! ### The packing rule (R232) -/

theorem IsVector.getD {v : BitArray} {n : Nat} {f : Nat → Bool} (h : IsVector v n f) {k : Nat}
    (hk : k < n) : v.getD k false = f k := by
  obtain ⟨-, bits⟩ := h
  rw [List.getD_eq_getElem?_getD, bits k hk, Option.getD_some]

/-- 00_scope.md R7. -/
theorem isVector_fromInt (n size : Nat) :
    IsVector (fromInt n size) size (fun k => n.testBit (size - 1 - k)) :=
  ⟨length_fromInt n size, fun k hk => getElem?_fromInt n size k hk⟩

/-- R232: a byte is the big-endian value (00_scope.md R6) of an eight-bit slice, so the bit of lowest
index has the weight `2^7`. -/
theorem byteOf_eq_sum {v : BitArray} {k : Nat} (complete : k < v.length / 8) :
    byteOf v k = ∑ j ∈ Finset.range 8, (v.getD (8 * k + j) false).toNat * 2 ^ (7 - j) := by
  have bits : IsVector (slice v (8 * k) (8 * k + 8)) (8 * k + 8 - 8 * k)
      (fun j => v.getD (8 * k + j) false) := isVector_slice (by omega)
  rw [Nat.add_sub_cancel_left] at bits
  have size : (slice v (8 * k) (8 * k + 8)).length = 8 := bits.1
  rw [byteOf, intOf_eq_sum, size]
  exact Finset.sum_congr rfl fun j hj => by rw [bits.getD (Finset.mem_range.mp hj)]

/-- R231: the old bits stay, and bit `j` of the byte appended is bit `7 - j` of the value. -/
theorem isVector_append_byte (v : BitArray) (n : Nat) :
    IsVector (v ++ fromInt n 8) (v.length + 8)
      (fun k => if k < v.length then v.getD k false else n.testBit (7 - (k - v.length))) := by
  have appended := isVector_append v (fromInt n 8)
  rw [length_fromInt] at appended
  refine appended.congr fun k hk => if_ctx_congr Iff.rfl (fun _ => rfl) fun new => ?_
  exact (isVector_fromInt n 8).getD (by omega)

/-! ### GETBYTE (R230) -/

theorem exec_getbyte_eq (sd : SReg) (va : VReg) (sa : SReg) (s : State) :
    exec (.getbyte sd va sa) s = execGetbyte sd va sa s := rfl

theorem exec_getbyte_of_out_of_range {s : State} {va : VReg} {sa : SReg}
    (outside : s.int sa < 0 ∨ (s.size va / 8 : Nat) ≤ s.int sa) (sd : SReg) :
    exec (.getbyte sd va sa) s = .next (failed .index s) := by
  have refused := (plainIdx_eq_none_iff _ _).mpr outside
  rw [exec_getbyte_eq, execGetbyte, refused, raise_eq]

theorem exec_getbyte_of_byte {s : State} {va : VReg} {sa : SReg} {k : Nat} (index : s.int sa = k)
    (complete : k < s.size va / 8) (sd : SReg) :
    exec (.getbyte sd va sa) s = .next (done (s.setInt sd (byteOf (s.vec va) k))) := by
  have legal := (plainIdx_eq_some_iff _ (s.size va / 8) k).mpr ⟨index, complete⟩
  rw [exec_getbyte_eq, execGetbyte, legal]
  exact succeed_eq _

/-! ### APPBYTE (R231) -/

theorem exec_appbyte_of_bad_value {s : State} {sa : SReg} (bad : s.int sa < 0 ∨ 255 < s.int sa)
    (vd : VReg) : exec (.appbyte vd sa) s = .next (failed .value s) := if_pos bad

/-- With its check on the value passed, `APPBYTE` is left with the check against `CAP`. -/
theorem exec_appbyte_of_byte {s : State} {sa : SReg} (nonneg : 0 ≤ s.int sa)
    (byte : s.int sa ≤ 255) (vd : VReg) :
    exec (.appbyte vd sa) s =
      if s.params.cap < s.size vd + 8 then .next (failed .cap s)
      else .next (done (s.setVec vd (s.vec vd ++ fromInt (s.int sa).toNat 8))) :=
  if_neg (not_or.mpr ⟨Int.not_lt.mpr nonneg, Int.not_lt.mpr byte⟩)

/-- Settles O58: the checks of `GETBYTE` through `plainIdx`, its byte by `byteOf_eq_sum`; the bits that
`APPBYTE` leaves by `isVector_append_byte`. -/
theorem byteCommandsResult : Obligations.ByteCommandsResult := by
  refine ⟨fun s sd va sa => ⟨decode_encode_getbyte sd va sa, ?get_outside, ?get_byte⟩,
    fun s vd sa => ⟨decode_encode_appbyte vd sa, ?app_value, ?app_cap, ?app_fits⟩⟩
  case get_outside => exact fun outside => exec_getbyte_of_out_of_range outside sd
  case get_byte =>
    intro k index complete
    rw [exec_getbyte_of_byte index complete, byteOf_eq_sum complete]
  case app_value => exact fun bad => exec_appbyte_of_bad_value bad vd
  case app_cap =>
    exact fun nonneg byte above => (exec_appbyte_of_byte nonneg byte vd).trans (if_pos above)
  case app_fits =>
    exact fun nonneg byte fits => ⟨_, isVector_append_byte (s.vec vd) (s.int sa).toNat,
      (exec_appbyte_of_byte nonneg byte vd).trans (if_neg (Nat.not_lt.mpr fits))⟩

end Machine

end Sys2Proof
end

section
/-! The statements of 30_encoding.md: the decoder and the encoder undo each other (R82). -/

namespace Sys2Proof

/-! ### Reading back a word the encoder wrote -/

theorem decode_encode_vfill (vd : VReg) (sa : SReg) :
    decode (encode (.vfill vd sa)) = .ok (.vfill vd sa) :=
  decode_encode_of_vd_sa (Laws.EncodeMatchesRow.vfill vd sa) rfl rfl fun _ => rfl

theorem decode_encode_vmov (vd va : VReg) : decode (encode (.vmov vd va)) = .ok (.vmov vd va) :=
  decode_encode_of_vd_va (Laws.EncodeMatchesRow.vmov vd va) rfl rfl fun _ => rfl

theorem decode_encode_prime (sd : SReg) (va : VReg) (sa : SReg) :
    decode (encode (.prime sd va sa)) = .ok (.prime sd va sa) :=
  decode_encode_of_sd_va_sa (Laws.EncodeMatchesRow.prime sd va sa) rfl rfl fun _ => rfl

theorem decode_encode_randp (vd : VReg) (sa : SReg) :
    decode (encode (.randp vd sa)) = .ok (.randp vd sa) :=
  decode_encode_of_vd_sa (Laws.EncodeMatchesRow.randp vd sa) rfl rfl fun _ => rfl

/-- Settles O6: one lemma for each row of the opcode map; the three instructions without operands have one
word each. -/
theorem decodeOfEncodeIsTheInstruction : Obligations.DecodeOfEncodeIsTheInstruction := by
  intro i
  cases i with
  | nop | clrerr | ixclr => rfl
  | rdst sd => exact decode_encode_rdst sd
  | sli sd imm16 => exact decode_encode_sli sd imm16
  | slih sd imm16 => exact decode_encode_slih sd imm16
  | saddi sd imm16 => exact decode_encode_saddi sd imm16
  | ixpush sa => exact decode_encode_ixpush sa
  | ixlen sd => exact decode_encode_ixlen sd
  | ixget sd sa => exact decode_encode_ixget sd sa
  | vzero vd sa => exact decode_encode_vzero vd sa
  | vint vd sa => exact decode_encode_vint vd sa
  | vints vd sa sb => exact decode_encode_vints vd sa sb
  | vtoint sd va => exact decode_encode_vtoint sd va
  | vsize sd va => exact decode_encode_vsize sd va
  | getb sd va sa => exact decode_encode_getb sd va sa
  | setb vd sa sb => exact decode_encode_setb vd sa sb
  | vfill vd sa => exact decode_encode_vfill vd sa
  | vslice vd va sa sb => exact decode_encode_vslice vd va sa sb
  | vslset vd va sa sb => exact decode_encode_vslset vd va sa sb
  | getw sd va sa => exact decode_encode_getw sd va sa
  | setw vd sa sb => exact decode_encode_setw vd sa sb
  | vmov vd va => exact decode_encode_vmov vd va
  | vand vd va vb => exact decode_encode_vand vd va vb
  | vor vd va vb => exact decode_encode_vor vd va vb
  | vxor vd va vb => exact decode_encode_vxor vd va vb
  | vnot vd va => exact decode_encode_vnot vd va
  | vcat vd va vb => exact decode_encode_vcat vd va vb
  | vceq sd va vb => exact decode_encode_vceq sd va vb
  | vcne sd va vb => exact decode_encode_vcne sd va vb
  | vclt sd va vb => exact decode_encode_vclt sd va vb
  | vcle sd va vb => exact decode_encode_vcle sd va vb
  | vcgt sd va vb => exact decode_encode_vcgt sd va vb
  | vcge sd va vb => exact decode_encode_vcge sd va vb
  | vcont sd va vb => exact decode_encode_vcont sd va vb
  | vrol vd sa => exact decode_encode_vrol vd sa
  | vror vd sa => exact decode_encode_vror vd sa
  | vshl vd sa => exact decode_encode_vshl vd sa
  | vshr vd sa => exact decode_encode_vshr vd sa
  | vperm vd va => exact decode_encode_vperm vd va
  | vunperm vd va => exact decode_encode_vunperm vd va
  | vhalf0 vd va => exact decode_encode_vhalf0 vd va
  | vhalf1 vd va => exact decode_encode_vhalf1 vd va
  | popc sd va => exact decode_encode_popc sd va
  | popcs sd va => exact decode_encode_popcs sd va
  | nsb sd va sa => exact decode_encode_nsb sd va sa
  | rank sd va sa => exact decode_encode_rank sd va sa
  | isp2 sd va => exact decode_encode_isp2 sd va
  | isp2s sd va => exact decode_encode_isp2s sd va
  | vrev vd va => exact decode_encode_vrev vd va
  | vruns sd va => exact decode_encode_vruns sd va
  | hamm sd va vb => exact decode_encode_hamm sd va vb
  | jsim sd se va vb => exact decode_encode_jsim sd se va vb
  | jdist sd se va vb => exact decode_encode_jdist sd se va vb
  | gfmul vd va vb => exact decode_encode_gfmul vd va vb
  | gfquo vd va vb sa => exact decode_encode_gfquo vd va vb sa
  | gfrem vd va vb sa => exact decode_encode_gfrem vd va vb sa
  | gfmulm vd va vb vc sa => exact decode_encode_gfmulm vd va vb vc sa
  | gfmi vd va vb sa => exact decode_encode_gfmi vd va vb sa
  | modinv vd va vb => exact decode_encode_modinv vd va vb
  | vgcd vd va vb => exact decode_encode_vgcd vd va vb
  | prime sd va sa => exact decode_encode_prime sd va sa
  | randp vd sa => exact decode_encode_randp vd sa
  | getbyte sd va sa => exact decode_encode_getbyte sd va sa
  | appbyte vd sa => exact decode_encode_appbyte vd sa

/-! ### The word a row's instruction came from -/

/-- 30_encoding.md R71: a word is its opcode and its six slots. -/
theorem formatR_fields (w : Command) :
    formatR (fieldOp w) (fieldSD w) (fieldSA w) (fieldSB w) (fieldVD w) (fieldVA w) (fieldVB w) = w := by
  apply BitVec.eq_of_getLsbD_eq
  intro k hk
  rw [getLsbD_formatR]
  simp only [fieldOp, fieldSD, fieldSA, fieldSB, fieldVD, fieldVA, fieldVB, BitVec.getLsbD_extractLsb']
  split_ifs with low
  · rw [Nat.zero_add, decide_eq_true low, Bool.true_and]
  all_goals
    rw [Nat.add_sub_cancel' (by omega), decide_eq_true (by omega), Bool.true_and]

/-- 30_encoding.md R72: the immediate of a word of format I is its four low slots. -/
theorem formatI_fields (op : BitVec 8) (w : Command) :
    formatI op (fieldSD w) (fieldImm16 w) =
      formatR op (fieldSD w) 0 (fieldSB w) (fieldVD w) (fieldVA w) (fieldVB w) := by
  have slot {start : Nat} (inside : start + 4 ≤ 16) :
      (fieldImm16 w).extractLsb' start 4 = w.extractLsb' start 4 := by
    apply BitVec.eq_of_getLsbD_eq
    intro k hk
    have low : start + k < 16 := by omega
    simp [fieldImm16, BitVec.getLsbD_extractLsb', low]
  rw [formatI_eq, slot (by decide), slot (by decide), slot (by decide), slot (by decide)]
  rfl

/-- A slot of a word as its row sees it: the operand of a used slot, whose mask is 0, and 0 for an unused
one. -/
def keptSlot (mask slot : BitVec 4) : BitVec 4 := if mask = 0 then slot else 0

/-- The word made of a row's opcode and the slots of `w` that the row uses. -/
def OpcodeRow.rebuild (r : OpcodeRow) (w : Command) : Command :=
  formatR r.op (keptSlot (fieldSD r.mask) (fieldSD w)) (keptSlot (fieldSA r.mask) (fieldSA w))
    (keptSlot (fieldSB r.mask) (fieldSB w)) (keptSlot (fieldVD r.mask) (fieldVD w))
    (keptSlot (fieldVA r.mask) (fieldVA w)) (keptSlot (fieldVB r.mask) (fieldVB w))

/-- A slot's mask is 0 or all ones. -/
def WholeSlot (mask : BitVec 4) : Prop := mask = 0 ∨ mask = BitVec.allOnes 4

/-- 30_encoding.md R75: a row's mask covers the opcode, and each slot as a whole or not at all. -/
def OpcodeRow.MasksWholeSlots (r : OpcodeRow) : Prop :=
  fieldOp r.mask = BitVec.allOnes 8 ∧ WholeSlot (fieldSD r.mask) ∧ WholeSlot (fieldSA r.mask) ∧
    WholeSlot (fieldSB r.mask) ∧ WholeSlot (fieldVD r.mask) ∧ WholeSlot (fieldVA r.mask) ∧
    WholeSlot (fieldVB r.mask)

theorem keptSlot_of_masked {mask slot : BitVec 4} (whole : WholeSlot mask)
    (zero : slot &&& mask = 0) : keptSlot mask slot = slot := by
  obtain rfl | rfl := whole
  · exact if_pos rfl
  · rw [BitVec.and_allOnes] at zero
    exact zero.symm ▸ ite_self _

/-- A word that passes a row's test has zeros in the slots the row does not use. -/
theorem OpcodeRow.rebuild_of_matches {r : OpcodeRow} (whole : r.MasksWholeSlots) {w : Command}
    (passes : w &&& r.mask = r.matchWord) : r.rebuild w = w := by
  obtain ⟨wop, wsd, wsa, wsb, wvd, wva, wvb⟩ := whole
  have masked := passes
  rw [← formatR_fields w, ← formatR_fields r.mask, formatR_and, matchWord_eq] at masked
  have op : fieldOp w = r.op := by
    have := congrArg fieldOp masked
    rwa [fieldOp_formatR, fieldOp_formatR, wop, BitVec.and_allOnes] at this
  have sd := congrArg fieldSD masked
  have sa := congrArg fieldSA masked
  have sb := congrArg fieldSB masked
  have vd := congrArg fieldVD masked
  have va := congrArg fieldVA masked
  have vb := congrArg fieldVB masked
  simp only [fieldSD_formatR, fieldSA_formatR, fieldSB_formatR, fieldVD_formatR, fieldVA_formatR,
    fieldVB_formatR] at sd sa sb vd va vb
  rw [OpcodeRow.rebuild, keptSlot_of_masked wsd sd, keptSlot_of_masked wsa sa,
    keptSlot_of_masked wsb sb, keptSlot_of_masked wvd vd, keptSlot_of_masked wva va,
    keptSlot_of_masked wvb vb, ← op, formatR_fields]

theorem masksWholeSlots_of_mem : ∀ r ∈ opcodeMap, r.MasksWholeSlots := by
  unfold OpcodeRow.MasksWholeSlots WholeSlot
  decide

/-- The instruction a row builds from a word holds every slot the row uses. -/
def OpcodeRow.KeepsItsSlots (r : OpcodeRow) : Prop := ∀ w, encode (r.build w) = r.rebuild w

theorem keepsItsSlots_systemRows : systemRows.Forall OpcodeRow.KeepsItsSlots :=
  ⟨fun _ => rfl, fun _ => rfl, fun _ => rfl, formatI_fields 0x04, formatI_fields 0x05,
    formatI_fields 0x06, fun _ => rfl, fun _ => rfl, fun _ => rfl, fun _ => rfl⟩

theorem keepsItsSlots_storageRows : storageRows.Forall OpcodeRow.KeepsItsSlots :=
  ⟨fun _ => rfl, fun _ => rfl, fun _ => rfl, fun _ => rfl, fun _ => rfl, fun _ => rfl, fun _ => rfl,
    fun _ => rfl, fun _ => rfl, fun _ => rfl, fun _ => rfl, fun _ => rfl, fun _ => rfl⟩

theorem keepsItsSlots_bitwiseRows : bitwiseRows.Forall OpcodeRow.KeepsItsSlots :=
  ⟨fun _ => rfl, fun _ => rfl, fun _ => rfl, fun _ => rfl, fun _ => rfl, fun _ => rfl, fun _ => rfl,
    fun _ => rfl, fun _ => rfl, fun _ => rfl, fun _ => rfl, fun _ => rfl⟩

theorem keepsItsSlots_shiftRows : shiftRows.Forall OpcodeRow.KeepsItsSlots :=
  ⟨fun _ => rfl, fun _ => rfl, fun _ => rfl, fun _ => rfl⟩

theorem keepsItsSlots_permutationRows : permutationRows.Forall OpcodeRow.KeepsItsSlots :=
  ⟨fun _ => rfl, fun _ => rfl, fun _ => rfl, fun _ => rfl⟩

theorem keepsItsSlots_analysisRows : analysisRows.Forall OpcodeRow.KeepsItsSlots :=
  ⟨fun _ => rfl, fun _ => rfl, fun _ => rfl, fun _ => rfl, fun _ => rfl, fun _ => rfl, fun _ => rfl,
    fun _ => rfl, fun _ => rfl, fun _ => rfl, fun _ => rfl⟩

theorem keepsItsSlots_galoisRows : galoisRows.Forall OpcodeRow.KeepsItsSlots :=
  ⟨fun _ => rfl, fun _ => rfl, fun _ => rfl, fun _ => rfl, fun _ => rfl, fun _ => rfl, fun _ => rfl,
    fun _ => rfl, fun _ => rfl⟩

theorem keepsItsSlots_byteRows : byteRows.Forall OpcodeRow.KeepsItsSlots :=
  ⟨fun _ => rfl, fun _ => rfl⟩

theorem keepsItsSlots_of_mem : ∀ r ∈ opcodeMap, r.KeepsItsSlots := by
  rw [← List.forall_iff_forall_mem]
  simp only [opcodeMap, List.forall_append, keepsItsSlots_systemRows, keepsItsSlots_storageRows,
    keepsItsSlots_bitwiseRows, keepsItsSlots_shiftRows, keepsItsSlots_permutationRows,
    keepsItsSlots_analysisRows, keepsItsSlots_galoisRows, keepsItsSlots_byteRows, and_self]

/-- What the decoder did to answer an instruction: it found a row whose test the word passes. -/
theorem exists_row_of_decode {w : Command} {i : Instr} (h : decode w = .ok i) :
    ∃ r ∈ opcodeMap, w &&& r.mask = r.matchWord ∧ r.build w = i := by
  cases row : rowOf (fieldOp w) with
  | none =>
    obtain ⟨e, he⟩ := (Machine.decode_eq_error_iff w).mpr (.inl row)
    cases h.symm.trans he
  | some r =>
    by_cases passes : w &&& r.mask = r.matchWord
    · have built := (Machine.decode_of_matches row passes).symm.trans h
      exact ⟨r, List.mem_of_find?_eq_some row, passes, Except.ok.inj built⟩
    · obtain ⟨e, he⟩ := (Machine.decode_eq_error_iff w).mpr (.inr ⟨r, row, passes⟩)
      cases h.symm.trans he

theorem encode_of_decode {w : Command} {i : Instr} (h : decode w = .ok i) : encode i = w := by
  obtain ⟨r, mem, passes, rfl⟩ := exists_row_of_decode h
  rw [keepsItsSlots_of_mem r mem, r.rebuild_of_matches (masksWholeSlots_of_mem r mem) passes]

/-- Settles O7: the word that passes a row's test is the row's opcode and used slots with zeros
elsewhere, which is what the encoder writes. -/
theorem decodedWordIsTheEncoding : Obligations.DecodedWordIsTheEncoding := by
  refine ⟨fun _ _ => encode_of_decode, fun w no_word => ?_⟩
  cases h : decode w with
  | ok i => exact absurd (encode_of_decode h) (no_word i)
  | error e => exact ⟨e, rfl⟩

/-- Settles O8: the decoder evaluated on the nine words. -/
theorem exampleWordsDecode : Obligations.ExampleWordsDecode :=
  ⟨rfl, rfl, rfl, rfl, rfl, rfl, rfl, rfl, rfl⟩

end Sys2Proof
end

section
/-! Further statements of 41_storage_core.md: `VFILL` and `VMOV`, and that every value of the padding bits
of `GETW` is possible. -/

namespace Sys2Proof.Machine

/-! ### VFILL and VMOV (R117, R123) -/

theorem isVector_replicate (n : Nat) (b : Bool) : IsVector (List.replicate n b) n (fun _ => b) :=
  ⟨List.length_replicate, fun _ hk => List.getElem?_replicate_of_lt hk⟩

theorem exec_vfill_eq (vd : VReg) (sa : SReg) (s : State) :
    exec (.vfill vd sa) s = execVfill vd sa s := rfl

theorem exec_vfill_of_bad_value {s : State} {sa : SReg} (not_zero : s.int sa ≠ 0)
    (not_one : s.int sa ≠ 1) (vd : VReg) : exec (.vfill vd sa) s = .next (failed .value s) := by
  have refused := (bitValue_eq_none_iff _).mpr ⟨not_zero, not_one⟩
  rw [exec_vfill_eq, execVfill, refused, raise_eq]

theorem exec_vfill_of_bit {s : State} {sa : SReg} (value : s.int sa = 0 ∨ s.int sa = 1) (vd : VReg) :
    exec (.vfill vd sa) s =
      .next (done (s.setVec vd (List.replicate (s.size vd) (s.int sa == 1)))) := by
  have accepted := (bitValue_eq_some_iff _ _).mpr ⟨value, rfl⟩
  rw [exec_vfill_eq, execVfill, accepted]
  exact succeed_eq _

theorem exec_vmov (vd va : VReg) (s : State) :
    exec (.vmov vd va) s = .next (done (s.setVec vd (s.vec va))) := rfl

/-- Settles O25: `VFILL` splits on whether the scalar is a bit. -/
theorem fillAndCopyResult : Obligations.FillAndCopyResult := fun s vd va sa =>
  ⟨⟨decode_encode_vfill vd sa,
      fun not_zero not_one => exec_vfill_of_bad_value not_zero not_one vd,
      fun value => ⟨_, isVector_replicate .., exec_vfill_of_bit value vd⟩⟩,
    ⟨decode_encode_vmov vd va, exec_vmov vd va s⟩⟩

/-! ### The padding bits of GETW (R121, 93_implementation_defined.md U1) -/

/-- With the scalar `x` itself supplied as the padding word, the storage word is `x`, if `x` agrees with
the vector's bits and is zero-extended. -/
theorem storageWord_of_supplied {s : State} {va : VReg} {k : Nat} {x : Scalar}
    (legal : s.params.Legal)
    (bits : ∀ t, t < s.params.wordWidth → k * s.params.wordWidth + t < s.size va →
      x.getLsbD t = (s.vec va).getD (k * s.params.wordWidth + t) false)
    (high : ∀ t, s.params.wordWidth ≤ t → x.getLsbD t = false)
    (supplied : s.padding.supplied = [x.toNat]) : s.storageWord va k = x := by
  apply BitVec.eq_of_getLsbD_eq
  intro t ht
  obtain past | low := le_or_gt s.params.wordWidth t
  · rw [getLsbD_storageWord_of_ge past, high t past]
  obtain inside | beyond := Nat.lt_or_ge (k * s.params.wordWidth + t) (s.size va)
  · rw [getLsbD_storageWord legal low inside, bits t low inside]
  · have padding_bit : (s.vec va).getD (k * s.params.wordWidth + t) (x.toNat.testBit t) =
        x.toNat.testBit t := List.getD_eq_default _ _ beyond
    rw [State.storageWord, takeFree_cons supplied, BitVec.getLsbD_ofNat, testBit_wordRead,
      padding_bit, decide_eq_true ht, decide_eq_true low, Bool.true_and, Bool.true_and,
      BitVec.testBit_toNat]

/-- Settles O28: the stream that supplies the value itself. -/
theorem getwAllowsEveryPaddingValue : Obligations.GetwAllowsEveryPaddingValue := by
  intro s sd va sa k x legal index in_range bits high
  have word : (s.setPadding { supplied := [x.toNat], taken := 0 }).storageWord va k = x :=
    storageWord_of_supplied (s := s.setPadding _) legal bits high rfl
  refine ⟨_, _, exec_getw_of_word (s := s.setPadding { supplied := [x.toNat], taken := 0 })
    legal index in_range sd, ?_⟩
  rw [done_scalar, State.setPadding_scalar, State.scalar_setScalar_self, word]

end Sys2Proof.Machine
end

section
/-! The laws of 43_shift.md, 44_permutation.md and of concatenation: one instruction after another. -/

namespace Sys2Proof.Machine

/-- `t` is `s` with `v` written to one vector register, as far as a later command reads it. -/
structure WritesVector (s t : State) (vd : VReg) (v : BitArray) : Prop where
  /-- The register written. -/
  written : t.vec vd = v
  /-- The other vector registers. -/
  other : ∀ r, r ≠ vd → t.vec r = s.vec r
  /-- The scalars. -/
  int : ∀ r, t.int r = s.int r
  /-- The index list. -/
  indices : t.indices = s.indices
  /-- The parameters. -/
  params : t.params = s.params

theorem exists_writesVector {i : Instr} {s : State} {vd : VReg} {v : BitArray}
    (result : exec i s = .next (done (s.setVec vd v))) :
    ∃ t, exec i s = .next t ∧ WritesVector s t vd v :=
  ⟨_, result, s.vec_setVec_self vd v, fun r other => s.vec_setVec_ne vd r v other, fun _ => rfl, rfl,
    rfl⟩

theorem WritesVector.size {s t : State} {vd : VReg} {v : BitArray} (h : WritesVector s t vd v) :
    t.size vd = v.length := congrArg List.length h.written

/-! ### Shifts (43_shift.md) -/

/-- R160 is Mathlib's rotation of a list. -/
theorem rotateLeft_eq_rotate (v : BitArray) (n : Nat) : rotateLeft v n = v.rotate n :=
  List.rotate_eq_drop_append_take_mod.symm

/-- Section 1 (a): a left rotation undoes the right rotation by the same count, the two making whole
turns. -/
theorem rotate_rotateRight (v : BitArray) (n : Nat) : (rotateRight v n).rotate n = v := by
  rw [rotateRight_eq, rotateLeft_eq_rotate, List.rotate_rotate]
  obtain empty | pos := Nat.eq_zero_or_pos v.length
  · rw [List.length_eq_zero_iff.mp empty, List.rotate_nil]
  · have below := Nat.mod_lt n pos
    have split := Nat.div_add_mod n v.length
    have turns : v.length - n % v.length + n = v.length * (n / v.length + 1) := by
      rw [Nat.mul_add, Nat.mul_one]
      omega
    rw [turns, List.rotate_length_mul]

theorem rotateRight_rotateLeft (v : BitArray) (n : Nat) : rotateRight (rotateLeft v n) n = v := by
  apply List.rotate_injective n
  beta_reduce
  rw [rotate_rotateRight, rotateLeft_eq_rotate]

theorem rotateLeft_rotateLeft (v : BitArray) (m n : Nat) :
    rotateLeft (rotateLeft v m) n = rotateLeft v (m + n) := by
  simp only [rotateLeft_eq_rotate, List.rotate_rotate]

theorem rotateRight_rotateRight (v : BitArray) (m n : Nat) :
    rotateRight (rotateRight v m) n = rotateRight v (m + n) := by
  apply List.rotate_injective (m + n)
  beta_reduce
  rw [rotate_rotateRight, Nat.add_comm, ← List.rotate_rotate, rotate_rotateRight, rotate_rotateRight]

theorem shiftLeft_shiftLeft (v : BitArray) (m n : Nat) :
    shiftLeft (shiftLeft v m) n = shiftLeft v (m + n) := by
  apply eq_of_intOf_eq (by simp only [length_shiftLeft])
  rw [intOf_shiftLeft, intOf_shiftLeft, intOf_shiftLeft, length_shiftLeft, Nat.mod_mul_mod,
    Nat.mul_assoc, ← Nat.pow_add]

theorem shiftRight_shiftRight (v : BitArray) (m n : Nat) :
    shiftRight (shiftRight v m) n = shiftRight v (m + n) := by
  apply eq_of_intOf_eq (by simp only [length_shiftRight])
  rw [intOf_shiftRight, intOf_shiftRight, intOf_shiftRight, Nat.div_div_eq_div_mul, ← Nat.pow_add]

/-- What an in-place shift by a count that is not negative leaves. -/
theorem exists_shifted {i : Instr} {op : BitArray → Nat → BitArray} {vd : VReg} {sa : SReg}
    {s : State} {n : Nat} (meaning : ∀ u, exec i u = shiftInPlace op vd sa u) (count : s.int sa = n) :
    ∃ t, exec i s = .next t ∧ WritesVector s t vd (op (s.vec vd) n) :=
  exists_writesVector ((meaning s).trans (shiftInPlace_of_count count op vd))

/-- A shift by `n`, then one by 1, against one by `n + 1`, for an operation whose counts add. -/
theorem shift_succ_law {i : Instr} {op : BitArray → Nat → BitArray} {vd : VReg} {sa : SReg}
    (meaning : ∀ u, exec i u = shiftInPlace op vd sa u)
    (add : ∀ v m n, op (op v m) n = op v (m + n)) (s : State) {n : Nat} (range : n + 1 < 2 ^ 31) :
    ∃ t u w, exec i (s.setInt sa n) = .next t ∧ exec i (t.setInt sa 1) = .next u ∧
      exec i (s.setInt sa (n + 1)) = .next w ∧ u.vec vd = w.vec vd := by
  obtain ⟨t, first, shifted⟩ := exists_shifted (s := s.setInt sa n) meaning
    (State.int_setInt_self _ _ _ (by omega) (by omega))
  obtain ⟨u, second, again⟩ := exists_shifted (s := t.setInt sa 1) (n := 1) meaning
    (State.int_setInt_self _ _ _ (by decide) (by decide))
  obtain ⟨w, both, at_once⟩ := exists_shifted (s := s.setInt sa (n + 1)) (n := n + 1) meaning
    (State.int_setInt_self _ _ _ (by omega) (by omega))
  refine ⟨t, u, w, first, second, both, ?_⟩
  rw [again.written, at_once.written, State.setInt_vec, shifted.written, State.setInt_vec,
    State.setInt_vec, add]

/-- Settles O37: the rotations are Mathlib's, so counts add and whole turns vanish; the linear shifts
through the value they give. -/
theorem shiftLaws : Obligations.ShiftLaws := by
  refine ⟨?restores, ?add, ?values⟩
  case restores =>
    intro s vd sa nonneg
    obtain ⟨n, count⟩ := Int.eq_ofNat_of_zero_le nonneg
    obtain ⟨t, first, left⟩ := exists_shifted (exec_vrol vd sa) count
    obtain ⟨u, second, right⟩ := exists_shifted (exec_vror vd sa) ((left.int sa).trans count)
    refine ⟨t, u, first, second, ?_⟩
    rw [right.written, left.written, rotateRight_rotateLeft]
  case add =>
    rintro s vd sa n i range (rfl | rfl | rfl | rfl)
    · exact shift_succ_law (exec_vrol vd sa) rotateLeft_rotateLeft s range
    · exact shift_succ_law (exec_vror vd sa) rotateRight_rotateRight s range
    · exact shift_succ_law (exec_vshl vd sa) shiftLeft_shiftLeft s range
    · exact shift_succ_law (exec_vshr vd sa) shiftRight_shiftRight s range
  case values =>
    intro s vd sa n count
    obtain ⟨t, first, left⟩ := exists_shifted (exec_vshl vd sa) count
    obtain ⟨u, second, right⟩ := exists_shifted (exec_vshr vd sa) count
    refine ⟨t, u, first, second, ?_, ?_⟩
    · rw [left.written, intOf_shiftLeft]
      rfl
    · rw [right.written, intOf_shiftRight]

/-! ### VPERM and VUNPERM (R171) -/

/-- Entries without repeats, as many as the vector has bits, name every bit: none is left over. -/
theorem exists_entry_of_position {l : List Scalar} {size p : Nat} (same : l.length = size)
    (distinct : l.Nodup) (inside : ∀ i ∈ l, i.toNat < size) (hp : p < size) :
    ∃ (k : Nat) (i : Scalar), l[k]? = some i ∧ i.toNat = p := by
  have distinct_nat : (l.map BitVec.toNat).Nodup :=
    distinct.map fun _ _ equal => BitVec.eq_of_toNat_eq equal
  have below : l.map BitVec.toNat ⊆ List.range size := by
    intro n mem
    obtain ⟨i, hi, rfl⟩ := List.mem_map.mp mem
    exact List.mem_range.mpr (inside i hi)
  have all : (l.map BitVec.toNat).Perm (List.range size) :=
    (List.subperm_of_subset distinct_nat below).perm_of_length_le (by simp [same])
  obtain ⟨i, mem, names⟩ := List.mem_map.mp (all.mem_iff.mpr (List.mem_range.mpr hp))
  obtain ⟨k, entry⟩ := List.mem_iff_getElem?.mp mem
  exact ⟨k, i, entry, names⟩

theorem unpermute_permute {v : BitArray} {l : List Scalar} (same : l.length = v.length)
    (distinct : l.Nodup) (inside : ∀ i ∈ l, i.toNat < v.length) : unpermute (permute v l) l = v := by
  apply List.ext_getElem?
  intro p
  have size : (unpermute (permute v l) l).length = v.length := by
    rw [length_unpermute, length_permute, same]
  obtain hp | past := Nat.lt_or_ge p v.length
  case inr => rw [List.getElem?_eq_none (size.trans_le past), List.getElem?_eq_none past]
  obtain ⟨k, i, entry, rfl⟩ := exists_entry_of_position same distinct inside hp
  have last : ∀ (j : Nat) (i' : Scalar), k < j → l[j]? = some i' → i' ≠ i := by
    rintro j i' before entry' rfl
    obtain ⟨hk, -⟩ := List.getElem?_eq_some_iff.mp entry
    exact before.ne ((List.getElem?_inj hk distinct).mp (entry.trans entry'.symm))
  rw [getElem?_unpermute_of_last (length_permute v l).symm entry
    (by rwa [length_permute, same]) last, permute, List.getElem?_map, entry, Option.map_some,
    getElem?_eq_some_getD hp]

/-- Settles O40: the list without repeats names every position once, so the loop of R171 puts every bit
back. -/
theorem unpermuteUndoesPermute : Obligations.UnpermuteUndoesPermute := by
  intro s va vd ve same distinct inside
  obtain ⟨t, first, permuted⟩ := exists_writesVector (exec_vperm_of_in_range inside vd)
  have size : t.size vd = s.size va := permuted.size.trans ((length_permute ..).trans same)
  have same_t : t.indices.length = t.size vd := by rw [permuted.indices, same, size]
  have inside_t : ∀ i ∈ t.indices, 0 ≤ i.toInt ∧ i.toInt < t.size vd := by
    rwa [permuted.indices, size]
  obtain ⟨u, second, restored⟩ := exists_writesVector (exec_vunperm_of_in_range same_t inside_t ve)
  have inside_nat : ∀ i ∈ s.indices, i.toNat < (s.vec va).length := fun i mem => by
    obtain ⟨nonneg, below⟩ := inside i mem
    rw [toNat_of_toInt_nonneg nonneg] at below
    exact Int.ofNat_lt.mp below
  refine ⟨t, u, first, second, ?_⟩
  rw [restored.written, permuted.written, permuted.indices,
    unpermute_permute same distinct inside_nat]

/-! ### Concatenation -/

theorem byteOf_append_byte {v : BitArray} (whole : v.length % 8 = 0) {n : Nat} (byte : n < 256) :
    byteOf (v ++ fromInt n 8) (v.length / 8) = n := by
  have start : 8 * (v.length / 8) = v.length := Nat.mul_div_cancel' (Nat.dvd_of_mod_eq_zero whole)
  have last : slice (v ++ fromInt n 8) v.length (v.length + 8) = fromInt n 8 := by
    rw [slice, List.take_of_length_le (by simp), List.drop_left]
  rw [byteOf, start, last, intOf_fromInt_of_lt byte]

/-- Settles O42: the value by `intOf_append`, the halves by `slice_append_slice`, the byte by its eight
bits standing at the end. -/
theorem concatenationLaws : Obligations.ConcatenationLaws := by
  refine ⟨?value, ?halves, ?byte⟩
  case value =>
    intro s vd va vb fits
    obtain ⟨t, result, joined⟩ := exists_writesVector (exec_vcat_of_fits fits vd)
    refine ⟨t, result, ?_⟩
    rw [joined.written, intOf_append]
    rfl
  case halves =>
    intro s va vd ve vf vd_ne ve_ne even fits
    obtain ⟨t, first, half0⟩ := exists_writesVector (exec_vhalf0_of_even even vd)
    have kept : t.vec va = s.vec va := half0.other va vd_ne.symm
    have kept_size : t.size va = s.size va := congrArg List.length kept
    obtain ⟨u, second, half1⟩ := exists_writesVector
      (exec_vhalf1_of_even (s := t) (kept_size ▸ even) ve)
    have whole : u.vec vd ++ u.vec ve = s.vec va := by
      rw [half1.other vd ve_ne.symm, half0.written, half1.written, kept, kept_size]
      exact slice_append_slice ..
    have room : u.size vd + u.size ve ≤ u.params.cap := by
      rw [half1.params, half0.params, State.size, State.size, ← List.length_append, whole]
      exact fits
    obtain ⟨w, third, joined⟩ := exists_writesVector (exec_vcat_of_fits room vf)
    exact ⟨t, u, w, first, second, third, joined.written.trans whole⟩
  case byte =>
    intro s vd sa sk sd nonneg byte whole fits index
    obtain ⟨t, first, appended⟩ := exists_writesVector
      ((exec_appbyte_of_byte nonneg byte vd).trans (if_neg (Nat.not_lt.mpr fits)))
    have size : t.size vd = s.size vd + 8 := by
      rw [appended.size, List.length_append, length_fromInt]
      rfl
    refine ⟨t, _, first, exec_getbyte_of_byte ((appended.int sk).trans index) (by omega) sd, ?_⟩
    have read : byteOf (t.vec vd) (s.size vd / 8) = (s.int sa).toNat := by
      rw [appended.written]
      exact byteOf_append_byte whole (by omega)
    rw [done_int, read, State.int_setInt_self _ _ _ (by omega) (by omega)]
    omega

end Sys2Proof.Machine
end

section
/-! The statements of 46_galois_field.md section 6: the prime test and the prime candidates. -/

namespace Sys2Proof.Machine

/-! ### A round of the test (R210) -/

/-- In a field 1 has only the square roots 1 and -1, so the repeated squares of `x` that end in 1 either
start at 1 or pass through -1. -/
theorem eq_one_or_square_eq_neg_one {n : Nat} [Fact n.Prime] {x : ZMod n} {r : Nat}
    (h : x ^ 2 ^ r = 1) : x = 1 ∨ ∃ j, j < r ∧ x ^ 2 ^ j = -1 := by
  induction r with
  | zero => exact .inl (by rwa [pow_zero, pow_one] at h)
  | succ r ih =>
    rw [pow_succ, pow_mul, pow_two, mul_self_eq_one_iff] at h
    obtain one | neg_one := h
    · obtain start | ⟨j, hj, hit⟩ := ih one
      · exact .inl start
      · exact .inr ⟨j, by omega, hit⟩
    · exact .inr ⟨r, by omega, neg_one⟩

/-- 46_galois_field.md R210 (i): a prime passes the round of every base. -/
theorem passesRound_of_prime {n a : Nat} (prime : n.Prime) (odd : n % 2 = 1) (lo : 2 ≤ a)
    (hi : a ≤ n - 2) : PassesRound n a := by
  have : Fact n.Prime := ⟨prime⟩
  have two_le := prime.two_le
  obtain ⟨product, d_odd⟩ := oddPart_spec n 0 (n - 1) (by omega) (by omega)
  generalize oddPart n 0 (n - 1) = rd at product d_odd
  obtain ⟨r, d⟩ := rd
  rw [pow_zero, one_mul] at product
  have nonzero : (a : ZMod n) ≠ 0 := by
    rw [Ne, ZMod.natCast_eq_zero_iff]
    exact Nat.not_dvd_of_pos_of_lt (by omega) (by omega)
  have fermat : ((a : ZMod n) ^ d) ^ 2 ^ r = 1 := by
    rw [← pow_mul, Nat.mul_comm, product]
    exact ZMod.pow_card_sub_one_eq_one nonzero
  have last_residue : ((n - 1 : Nat) : ZMod n) = -1 := by
    rw [Nat.cast_sub (by omega), ZMod.natCast_self, Nat.cast_one, zero_sub]
  refine ⟨r, d, product.symm, d_odd, ?_⟩
  obtain start | ⟨j, hj, hit⟩ := eq_one_or_square_eq_neg_one fermat
  · left
    have residues := (ZMod.natCast_eq_natCast_iff' (a ^ d) 1 n).mp
      (by rw [Nat.cast_pow, start, Nat.cast_one])
    rwa [Nat.mod_eq_of_lt (by omega : 1 < n)] at residues
  · right
    refine ⟨j, hj, ?_⟩
    have residues := (ZMod.natCast_eq_natCast_iff' (a ^ (2 ^ j * d)) (n - 1) n).mp
      (by rw [Nat.cast_pow, last_residue, Nat.mul_comm, pow_mul, hit])
    rwa [Nat.mod_eq_of_lt (by omega : n - 1 < n)] at residues

/-- A round with the exponents that `PRIME` computes is a round of R210. -/
theorem roundPasses_oddPart_iff {n : Nat} (large : 5 ≤ n) (odd : n % 2 = 1) (a : Nat) :
    roundPasses n (oddPart n 0 (n - 1)).1 (oddPart n 0 (n - 1)).2 a = true ↔ PassesRound n a := by
  obtain ⟨product, d_odd⟩ := oddPart_spec n 0 (n - 1) (by omega) (by omega)
  generalize oddPart n 0 (n - 1) = rd at product d_odd
  obtain ⟨r, d⟩ := rd
  rw [pow_zero, one_mul] at product
  have r_pos : 1 ≤ r := by
    by_contra not_pos
    obtain rfl : r = 0 := by omega
    rw [pow_zero, one_mul] at product
    omega
  exact roundPasses_iff a r_pos d_odd product.symm

/-! ### The rounds one after another -/

/-- Every draw is a base of the range, so if each of those passes then so does the test. -/
theorem millerRabin_of_all_pass {n r d : Nat} (large : 4 ≤ n)
    (pass : ∀ a, 2 ≤ a → a ≤ n - 2 → roundPasses n r d a = true) (k : Nat) (e : FreeStream) :
    (millerRabin n r d k e).1 = true := by
  induction k generalizing e with
  | zero => rfl
  | succ k ih =>
    obtain ⟨lo, hi⟩ := draw_mem (lo := 2) (hi := n - 2) (by omega) e
    rw [millerRabin, if_pos (pass _ lo hi)]
    exact ih _

/-- With the bases supplied, the test is that all of them pass. -/
theorem millerRabin_supplied {n r d : Nat} (bases rest : List Nat) (e : FreeStream)
    (range : ∀ a ∈ bases, 2 ≤ a ∧ a ≤ n - 2) (supplied : e.supplied = bases ++ rest) :
    (millerRabin n r d bases.length e).1 = bases.all (roundPasses n r d) := by
  induction bases generalizing e with
  | nil => rfl
  | cons a bases ih =>
    obtain ⟨⟨lo, hi⟩, range⟩ := List.forall_mem_cons.mp range
    rw [List.length_cons, millerRabin, draw_cons supplied lo hi, List.all_cons]
    cases roundPasses n r d a with
    | true => exact ih _ range rfl
    | false => rfl

/-! ### PRIME (R207) -/

theorem primeTest_of_below_two_or_even {n : Nat} (h : n < 2 ∨ n % 2 = 0 ∧ n ≠ 2) (k : Nat)
    (e : FreeStream) : primeTest n k e = (false, e) := by
  rw [primeTest]
  by_cases below : n < 2
  · rw [if_pos below]
  · rw [if_neg below, if_neg (by omega), if_pos (by omega)]

theorem primeTest_of_two_or_three {n : Nat} (h : n = 2 ∨ n = 3) (k : Nat) (e : FreeStream) :
    primeTest n k e = (true, e) := by
  rw [primeTest, if_neg (by omega), if_pos h]

theorem primeTest_of_odd {n : Nat} (large : 5 ≤ n) (odd : n % 2 = 1) (k : Nat) (e : FreeStream) :
    primeTest n k e = millerRabin n (oddPart n 0 (n - 1)).1 (oddPart n 0 (n - 1)).2 k e := by
  rw [primeTest, if_neg (by omega), if_neg (by omega), if_neg (by omega)]

/-- R210 (i): the test accepts every prime, whatever the draws. -/
theorem primeTest_of_prime {n : Nat} (prime : n.Prime) (k : Nat) (e : FreeStream) :
    (primeTest n k e).1 = true := by
  have two_le := prime.two_le
  by_cases small : n = 2 ∨ n = 3
  · rw [primeTest_of_two_or_three small]
  obtain ⟨not_two, not_three⟩ := not_or.mp small
  have odd := prime.eq_two_or_odd.resolve_left not_two
  rw [primeTest_of_odd (by omega) odd]
  exact millerRabin_of_all_pass (by omega)
    (fun a lo hi => (roundPasses_oddPart_iff (by omega) odd a).mpr
      (passesRound_of_prime prime odd lo hi)) k e

/-- The answer of `PRIME` and the entropy stream after its draws. -/
def State.primeAnswer (s : State) (va : VReg) (sa : SReg) : Bool × FreeStream :=
  primeTest (intOf (s.vec va)) (s.int sa).toNat s.entropy

theorem truth_eq_toNat (b : Bool) : truth b = b.toNat := by cases b <;> rfl

theorem exec_prime_of_bad_value {s : State} {sa : SReg} (bad : s.int sa < 1) (sd : SReg)
    (va : VReg) : exec (.prime sd va sa) s = .next (failed .value s) := if_pos bad

theorem exec_prime_of_rounds {s : State} {sa : SReg} (rounds : 1 ≤ s.int sa) (sd : SReg)
    (va : VReg) : exec (.prime sd va sa) s =
      .next (done ((s.setInt sd (s.primeAnswer va sa).1.toNat).setEntropy
        (s.primeAnswer va sa).2)) := by
  rw [← truth_eq_toNat]
  exact if_neg (Int.not_lt.mpr rounds)

/-- The value `PRIME` leaves in its destination. -/
theorem exec_prime_int {s : State} {sa : SReg} (rounds : 1 ≤ s.int sa) (sd : SReg) (va : VReg) :
    ∃ t, exec (.prime sd va sa) s = .next t ∧ t.resp = some 0 ∧
      t.int sd = (s.primeAnswer va sa).1.toNat := by
  have bit := Bool.toNat_le (s.primeAnswer va sa).1
  refine ⟨_, exec_prime_of_rounds rounds sd va, done_resp _, ?_⟩
  rw [done_int, State.setEntropy_int, State.int_setInt_self _ _ _ (by omega) (by omega)]

/-- Settles O54: the first cases of `primeTest` return the stream they were given. -/
theorem primeCasesWithoutDraws : Obligations.PrimeCasesWithoutDraws := by
  rintro s sd va sa _ rfl
  refine ⟨decode_encode_prime sd va sa, fun bad => exec_prime_of_bad_value bad sd va,
    fun rounds small => ?_, fun rounds small => ?_, fun rounds _ _ =>
      ⟨(s.primeAnswer va sa).1, (s.primeAnswer va sa).2, exec_prime_of_rounds rounds sd va⟩⟩
  · rw [exec_prime_of_rounds rounds, State.primeAnswer, primeTest_of_below_two_or_even small]
    rfl
  · rw [exec_prime_of_rounds rounds, State.primeAnswer, primeTest_of_two_or_three small]
    rfl

/-- Settles O55: the supplied draws are the bases, and each round is that of R210. -/
theorem primeIsTheMillerRabinTest : Obligations.PrimeIsTheMillerRabinTest := by
  intro s sd va sa bases rest large odd rounds count range supplied
  obtain ⟨t, result, succeeds, value⟩ := exec_prime_int rounds sd va
  have answer : (s.primeAnswer va sa).1 = true ↔ ∀ a ∈ bases, PassesRound (intOf (s.vec va)) a := by
    rw [State.primeAnswer, count, Int.toNat_natCast, primeTest_of_odd large odd,
      millerRabin_supplied bases rest _ range supplied, List.all_eq_true]
    simp only [roundPasses_oddPart_iff large odd]
  refine ⟨t, result, succeeds, fun all_pass => ?_, fun ⟨a, mem, fails⟩ => ?_⟩
  · rw [value, answer.mpr all_pass]
    rfl
  · have rejected : (s.primeAnswer va sa).1 = false := by
      rw [← Bool.not_eq_true, answer]
      exact fun all_pass => fails (all_pass a mem)
    rw [value, rejected]
    rfl

/-- Settles O56: a prime passes every round (Fermat, and the two square roots of 1 modulo a prime). -/
theorem primeNeverRejectsAPrime : Obligations.PrimeNeverRejectsAPrime := by
  intro s sd va sa rounds
  obtain ⟨t, result, -, value⟩ := exec_prime_int rounds sd va
  have accepts (prime : (intOf (s.vec va)).Prime) : t.int sd = 1 := by
    rw [value, State.primeAnswer, primeTest_of_prime prime]
    rfl
  refine ⟨t, result, ?_, accepts, fun zero prime => ?_⟩
  · rw [value]
    cases (s.primeAnswer va sa).1
    · exact .inl rfl
    · exact .inr rfl
  · exact absurd (zero.symm.trans (accepts prime)) (by decide)

/-! ### RANDP (R208) -/

/-- The candidate of `RANDP` and the entropy stream after its draws. -/
def State.randpCandidate (s : State) (sa : SReg) : BitArray × FreeStream :=
  primeCandidate (s.int sa).toNat s.entropy

theorem exec_randp_of_bad_value {s : State} {sa : SReg} (bad : s.int sa < 1) (vd : VReg) :
    exec (.randp vd sa) s = .next (failed .value s) := if_pos bad

theorem exec_randp_of_above_cap {s : State} {sa : SReg} (width : 1 ≤ s.int sa)
    (above : s.params.cap < s.int sa) (vd : VReg) :
    exec (.randp vd sa) s = .next (failed .cap s) :=
  (if_neg (Int.not_lt.mpr width)).trans (if_pos above)

theorem exec_randp_of_fits {s : State} {sa : SReg} (width : 1 ≤ s.int sa)
    (fits : s.int sa ≤ s.params.cap) (vd : VReg) :
    exec (.randp vd sa) s = .next (done
      ((s.setVec vd (s.randpCandidate sa).1).setEntropy (s.randpCandidate sa).2)) :=
  (if_neg (Int.not_lt.mpr width)).trans (if_neg (Int.not_lt.mpr fits))

theorem primeCandidate_one (e : FreeStream) : primeCandidate 1 e = ([true], e) := if_pos rfl

theorem primeCandidate_of_two_le {w : Nat} (wide : 2 ≤ w) (e : FreeStream) :
    primeCandidate w e =
      (true :: ((drawBits (w - 2) e).1 ++ [true]), (drawBits (w - 2) e).2) :=
  if_neg (by omega)

/-- R208: both ends of a candidate are 1; in width 1 they are the same bit. -/
theorem primeCandidate_ends {w : Nat} (width : 1 ≤ w) (e : FreeStream) :
    (primeCandidate w e).1.head? = some true ∧ (primeCandidate w e).1.getLast? = some true := by
  obtain rfl | wide : w = 1 ∨ 2 ≤ w := by omega
  · rw [primeCandidate_one]
    exact ⟨rfl, rfl⟩
  · rw [primeCandidate_of_two_le wide, ← List.cons_append]
    exact ⟨rfl, List.getLast?_concat⟩

/-- Settles O57: the shape by `primeCandidate_ends`, the inner bits by `drawBits_supplied`. -/
theorem randpMakesAnOddCandidate : Obligations.RandpMakesAnOddCandidate := by
  intro s vd sa
  refine ⟨decode_encode_randp vd sa, fun bad => exec_randp_of_bad_value bad vd,
    fun width above => exec_randp_of_above_cap width above vd, fun width fits => ?_⟩
  have width_nat : 1 ≤ (s.int sa).toNat := by omega
  obtain ⟨first, last⟩ := primeCandidate_ends width_nat s.entropy
  refine ⟨(s.randpCandidate sa).1, (s.randpCandidate sa).2, length_primeCandidate width_nat _, first,
    last, exec_randp_of_fits width fits vd, fun inner rest inner_width supplied => ?_⟩
  have wide : 2 ≤ (s.int sa).toNat := by omega
  have drawn : (s.int sa).toNat - 2 = inner.length := by omega
  rw [State.randpCandidate, primeCandidate_of_two_le wide, drawn,
    drawBits_supplied inner rest _ supplied]
  exact ⟨rfl, rfl⟩

end Sys2Proof.Machine
end

section
/-! The statements about every command: what a step answers, what a command writes and what it reads
(10_state.md, 60_exceptions.md R243, 70_reset_and_hazards.md R282). -/

namespace Sys2Proof.Machine

/-! ### The writes of a command -/

/-- One write to the state, as the rules list them (10_state.md section 1). -/
inductive Write where
  /-- `S[r] <- v`. -/
  | scalar (r : SReg) (v : Scalar)
  /-- `V[r] <- v`. -/
  | vector (r : VReg) (v : BitArray)
  /-- The index list is replaced. -/
  | indices (l : List Scalar)
  /-- `STATUS.ERR <- 0`. -/
  | clearErr
  /-- `STATUS.NR <- b`. -/
  | nr (b : Bool)
  /-- Draws are taken from the entropy input. -/
  | entropy (e : FreeStream)
  /-- A word of padding bits is taken. -/
  | padding (p : FreeStream)

/-- The state after one write. -/
def Write.apply : Write → State → State
  | .scalar r v, s => s.setScalar r v
  | .vector r v, s => s.setVec r v
  | .indices l, s => s.setIndices l
  | .clearErr, s => s.clearErr
  | .nr b, s => s.setNr b
  | .entropy e, s => s.setEntropy e
  | .padding p, s => s.setPadding p

/-- The state after several writes, the first one first. -/
def applyWrites : List Write → State → State
  | [], s => s
  | w :: ws, s => applyWrites ws (w.apply s)

/-- A write that instruction `i` may make in `s`: to a destination of `i`, and within the bounds of the
invariant if `s` has it. -/
def Write.Allowed (i : Instr) (s : State) : Write → Prop
  | .scalar r _ => r ∈ i.scalarDests
  | .vector r v => i.vectorDest = some r ∧ (s.Inv → v.length ≤ s.params.cap)
  | .indices l => i.writesIndices = true ∧ (s.Inv → l.length ≤ s.params.cap)
  | .clearErr => i = .clrerr
  | .nr _ => i.writesNr = true
  | .entropy _ => i.draws = true
  | .padding _ => i.readsPadding = true

/-- `s` with another earlier response, other later host events and other free values: what a command
that neither draws nor reads padding bits cannot see. -/
def State.withInputs (s : State) (c : Option (BitVec 8)) (h : List HostEvent) (e p : FreeStream) :
    State := { s with resp := c, host := h, entropy := e, padding := p }

/-- `i` does the same to `s` whatever the inputs it does not read are: it leaves `f` of the state. -/
def Leaves (i : Instr) (s : State) (f : State → State) : Prop :=
  ∀ c h e p, (i.draws = true → e = s.entropy) → (i.readsPadding = true → p = s.padding) →
    exec i (s.withInputs c h e p) = .next (f (s.withInputs c h e p))

/-- What `i` can do in `s`: fail, or make writes it may make and succeed. Every fact about all commands
follows from this (60_exceptions.md R243). -/
def FailsOrWrites (i : Instr) (s : State) : Prop :=
  (∃ code, Leaves i s (failed code)) ∨
    ∃ ws : List Write, (∀ w ∈ ws, w.Allowed i s) ∧ Leaves i s (fun u => done (applyWrites ws u))

section
variable {i : Instr} {s : State}

theorem failsOrWrites_of_fails {code : ErrCode}
    (fails : ∀ c h e p, exec i (s.withInputs c h e p) = .next (failed code (s.withInputs c h e p))) :
    FailsOrWrites i s := .inl ⟨code, fun c h e p _ _ => fails c h e p⟩

theorem failsOrWrites_of_writes (ws : List Write) (allowed : ∀ w ∈ ws, w.Allowed i s)
    (writes : ∀ c h e p, exec i (s.withInputs c h e p) =
      .next (done (applyWrites ws (s.withInputs c h e p)))) :
    FailsOrWrites i s := .inr ⟨ws, allowed, fun c h e p _ _ => writes c h e p⟩

/-- A command that writes one scalar register. -/
theorem failsOrWrites_of_setScalar {r : SReg} (v : Scalar) (dest : r ∈ i.scalarDests)
    (writes : ∀ c h e p, exec i (s.withInputs c h e p) =
      .next (done ((s.withInputs c h e p).setScalar r v))) : FailsOrWrites i s :=
  failsOrWrites_of_writes [.scalar r v] (List.forall_mem_singleton.mpr dest) writes

/-- A command that writes an integer to one scalar register. -/
theorem failsOrWrites_of_setInt {r : SReg} (v : Int) (dest : r ∈ i.scalarDests)
    (writes : ∀ c h e p, exec i (s.withInputs c h e p) =
      .next (done ((s.withInputs c h e p).setInt r v))) : FailsOrWrites i s :=
  failsOrWrites_of_setScalar (BitVec.ofInt 32 v) dest writes

/-- A command that writes one vector register. -/
theorem failsOrWrites_of_setVec {r : VReg} (v : BitArray) (dest : i.vectorDest = some r)
    (size : s.Inv → v.length ≤ s.params.cap)
    (writes : ∀ c h e p, exec i (s.withInputs c h e p) =
      .next (done ((s.withInputs c h e p).setVec r v))) : FailsOrWrites i s :=
  failsOrWrites_of_writes [.vector r v] (List.forall_mem_singleton.mpr ⟨dest, size⟩) writes

/-! ### The shared rules -/

theorem failsOrWrites_of_logical {op : Bool → Bool → Bool} {vd va vb : VReg}
    (dest : i.vectorDest = some vd) (meaning : ∀ u, exec i u = logical op vd va vb u) :
    FailsOrWrites i s := by
  by_cases same : s.size va = s.size vb
  · refine failsOrWrites_of_setVec (List.zipWith op (s.vec va) (s.vec vb)) dest (fun inv => ?_)
      fun c h e p => (meaning _).trans (if_neg (not_not_intro same))
    rw [List.length_zipWith]
    exact (min_le_left ..).trans (inv.sizes va)
  · exact failsOrWrites_of_fails fun c h e p => (meaning _).trans (if_pos same)

theorem failsOrWrites_of_compare {rel : Nat → Nat → Bool} {sd : SReg} {va vb : VReg}
    (dest : sd ∈ i.scalarDests) (meaning : ∀ u, exec i u = compareValues rel sd va vb u) :
    FailsOrWrites i s :=
  failsOrWrites_of_setInt (truth (rel (intOf (s.vec va)) (intOf (s.vec vb)))) dest
    fun _ _ _ _ => meaning _

theorem failsOrWrites_of_shift {op : BitArray → Nat → BitArray} {vd : VReg} {sa : SReg}
    (dest : i.vectorDest = some vd) (size : ∀ v n, (op v n).length = v.length)
    (meaning : ∀ u, exec i u = shiftInPlace op vd sa u) : FailsOrWrites i s := by
  by_cases neg : s.int sa < 0
  · exact failsOrWrites_of_fails fun c h e p => (meaning _).trans (if_pos neg)
  · refine failsOrWrites_of_setVec (op (s.vec vd) (s.int sa).toNat) dest (fun inv => ?_)
      fun c h e p => (meaning _).trans (if_neg neg)
    rw [size]
    exact inv.sizes vd

theorem failsOrWrites_of_jaccard {f : Nat → Nat → Int} {sd se : SReg} {va vb : VReg}
    (dests : i.scalarDests = [sd, se]) (meaning : ∀ u, exec i u = jaccard f sd se va vb u) :
    FailsOrWrites i s := by
  by_cases equal : sd = se
  · exact failsOrWrites_of_fails fun c h e p =>
      (meaning _).trans (jaccard_of_dests_eq equal f va vb _)
  by_cases same : s.size va = s.size vb
  case neg =>
    exact failsOrWrites_of_fails fun c h e p =>
      (meaning _).trans (jaccard_of_size_ne (s := s.withInputs c h e p) equal same f)
  obtain ⟨n, u, counts⟩ : ∃ n u, jaccardCounts (s.vec va) (s.vec vb) = (n, u) := ⟨_, _, rfl⟩
  by_cases zero : u = 0
  · subst zero
    exact failsOrWrites_of_fails fun c h e p =>
      (meaning _).trans (jaccard_of_union_zero (s := s.withInputs c h e p) equal same counts f)
  · refine failsOrWrites_of_writes
      [.scalar sd (BitVec.ofInt 32 (f n u)), .scalar se (BitVec.ofInt 32 u)] ?_
      fun c h e p => (meaning _).trans
        (jaccard_of_union_ne_zero (s := s.withInputs c h e p) equal same counts zero f)
    simp [Write.Allowed, dests]

/-- An instruction with a modulus that makes the writes `ws` when the modulus is valid. -/
theorem failsOrWrites_of_modCheck {vm : VReg} {sa : SReg} (ws : State → List Write)
    (meaning : ∀ u, exec i u = modCheckThen (u.vec vm) (u.int sa) u (applyWrites (ws u) u))
    (reads : ∀ c h e p, ws (s.withInputs c h e p) = ws s)
    (allowed : ValidModulus (s.vec vm) (s.int sa) → ∀ w ∈ ws s, w.Allowed i s) :
    FailsOrWrites i s := by
  cases check : modCheck (s.vec vm) (s.int sa) with
  | some code =>
    exact failsOrWrites_of_fails fun c h e p =>
      (meaning _).trans (modCheckThen_of_refused check _ _)
  | none =>
    obtain ⟨pos, size, nonzero⟩ := (modCheck_eq_none_iff _ _).mp check
    have valid : ValidModulus (s.vec vm) (s.int sa) := ⟨pos, size, nonzero⟩
    refine failsOrWrites_of_writes (ws s) (allowed valid) fun c h e p => ?_
    rw [meaning, reads]
    exact modCheckThen_of_valid valid _ _

/-- An instruction with a modulus that writes one vector register. -/
theorem failsOrWrites_of_modCheck_setVec {vm vd : VReg} {sa : SReg} {v : State → BitArray}
    (dest : i.vectorDest = some vd)
    (meaning : ∀ u, exec i u = modCheckThen (u.vec vm) (u.int sa) u (u.setVec vd (v u)))
    (reads : ∀ c h e p, v (s.withInputs c h e p) = v s)
    (size : ValidModulus (s.vec vm) (s.int sa) → s.Inv → (v s).length ≤ s.params.cap) :
    FailsOrWrites i s :=
  failsOrWrites_of_modCheck (fun u => [.vector vd (v u)]) meaning
    (fun c h e p => congrArg (fun v => [Write.vector vd v]) (reads c h e p))
    fun valid => List.forall_mem_singleton.mpr ⟨dest, size valid⟩

/-- The writes of `State.setInverse`. -/
def inverseWrites (vd : VReg) : Option BitArray → List Write
  | some v => [.vector vd v, .nr false]
  | none => [.vector vd [], .nr true]

theorem setInverse_eq_applyWrites (vd : VReg) (found : Option BitArray) (u : State) :
    u.setInverse vd found = applyWrites (inverseWrites vd found) u := by
  cases found <;> rfl

theorem inverseWrites_allowed {vd : VReg} {found : Option BitArray} (dest : i.vectorDest = some vd)
    (writesNr : i.writesNr = true)
    (size : ∀ v, found = some v → s.Inv → v.length ≤ s.params.cap) :
    ∀ w ∈ inverseWrites vd found, w.Allowed i s := by
  cases found with
  | some v =>
    exact List.forall_mem_cons.mpr ⟨⟨dest, size v rfl⟩, List.forall_mem_singleton.mpr writesNr⟩
  | none =>
    exact List.forall_mem_cons.mpr
      ⟨⟨dest, fun _ => Nat.zero_le _⟩, List.forall_mem_singleton.mpr writesNr⟩

/-- R209: a modulus leaves room for a result of `n` bits. -/
theorem ValidModulus.toNat_le_cap {vm : VReg} {n : Int} (valid : ValidModulus (s.vec vm) n)
    (inv : s.Inv) : n.toNat ≤ s.params.cap := by
  have size : ((s.vec vm).length : Int) = n + 1 := valid.size
  have bound : (s.vec vm).length ≤ s.params.cap := inv.sizes vm
  omega

/-- 00_scope.md R4. -/
theorem State.Inv.thirtyTwo_le_cap (inv : s.Inv) : 32 ≤ s.params.cap := by
  obtain ⟨-, -, -, low, -⟩ := inv.legal
  exact low

end

theorem length_slice_le (v : BitArray) (i j : Nat) : (slice v i j).length ≤ v.length := by
  rw [slice, List.length_drop]
  exact (Nat.sub_le ..).trans (List.length_take_le' ..)

/-! ### What each instruction with a check of its own writes -/

section
variable (s : State) (sd sa sb : SReg) (vd va vb vc : VReg)

theorem failsOrWrites_ixpush : FailsOrWrites (.ixpush sa) s := by
  by_cases full : s.indices.length = s.params.cap
  · exact failsOrWrites_of_fails fun c h e p =>
      exec_ixpush_of_full (s := s.withInputs c h e p) full sa
  · refine failsOrWrites_of_writes [.indices (s.indices ++ [s.scalar sa])]
      (List.forall_mem_singleton.mpr ⟨rfl, fun inv => ?_⟩)
      fun c h e p => exec_ixpush_of_not_full (s := s.withInputs c h e p) full sa
    have bound := inv.indices
    rw [List.length_append, List.length_singleton]
    omega

theorem failsOrWrites_ixget : FailsOrWrites (.ixget sd sa) s := by
  cases index : plainIdx (s.int sa) s.indices.length with
  | none =>
    have outside := (plainIdx_eq_none_iff _ _).mp index
    exact failsOrWrites_of_fails fun c h e p =>
      exec_ixget_of_out_of_range (s := s.withInputs c h e p) outside sd
  | some k =>
    obtain ⟨at_k, below⟩ := (plainIdx_eq_some_iff _ _ _).mp index
    exact failsOrWrites_of_setScalar s.indices[k] (List.mem_singleton_self sd) fun c h e p =>
      exec_ixget_of_entry (s := s.withInputs c h e p) at_k (List.getElem?_eq_getElem below) sd

theorem failsOrWrites_vzero : FailsOrWrites (.vzero vd sa) s := by
  obtain neg | ⟨nonneg, above⟩ | ⟨nonneg, fits⟩ : s.int sa < 0 ∨
      (0 ≤ s.int sa ∧ s.params.cap < s.int sa) ∨ 0 ≤ s.int sa ∧ s.int sa ≤ s.params.cap := by omega
  · exact failsOrWrites_of_fails fun c h e p =>
      exec_vzero_of_neg (s := s.withInputs c h e p) neg vd
  · exact failsOrWrites_of_fails fun c h e p =>
      exec_vzero_of_above_cap (s := s.withInputs c h e p) nonneg above vd
  · refine failsOrWrites_of_setVec (zeros (s.int sa).toNat) rfl (fun _ => ?_)
      fun c h e p => exec_vzero_of_fits (s := s.withInputs c h e p) nonneg fits vd
    rw [length_zeros]
    omega

theorem failsOrWrites_vint : FailsOrWrites (.vint vd sa) s := by
  obtain neg | nonneg := lt_or_ge (s.int sa) 0
  · exact failsOrWrites_of_fails fun c h e p => exec_vint_of_neg (s := s.withInputs c h e p) neg vd
  · refine failsOrWrites_of_setVec (minRep (s.int sa).toNat) rfl (fun inv => ?_)
      fun c h e p => exec_vint_of_nonneg (s := s.withInputs c h e p) nonneg vd
    have size := length_minRep_int_le s sa
    have room := inv.thirtyTwo_le_cap
    omega

theorem failsOrWrites_vints : FailsOrWrites (.vints vd sa sb) s := by
  by_cases bad : s.int sa < 0 ∨ s.int sb < 1 ∨ 2 ^ (s.int sb).toNat ≤ (s.int sa).toNat
  · exact failsOrWrites_of_fails fun c h e p =>
      exec_vints_of_bad_value (s := s.withInputs c h e p) bad vd
  obtain ⟨nonneg, size, fits⟩ : 0 ≤ s.int sa ∧ 1 ≤ s.int sb ∧
      (s.int sa).toNat < 2 ^ (s.int sb).toNat := by omega
  have result c h e p := exec_vints_of_good_value (s := s.withInputs c h e p) nonneg size fits vd
  by_cases above : s.int sb > s.params.cap
  · exact failsOrWrites_of_fails fun c h e p => (result c h e p).trans (if_pos above)
  · refine failsOrWrites_of_setVec (fromInt (s.int sa).toNat (s.int sb).toNat) rfl (fun _ => ?_)
      fun c h e p => (result c h e p).trans (if_neg above)
    rw [length_fromInt]
    omega

theorem failsOrWrites_vtoint : FailsOrWrites (.vtoint sd va) s := by
  obtain large | fits := Nat.lt_or_ge (2 ^ 31 - 1) (intOf (s.vec va))
  · exact failsOrWrites_of_fails fun c h e p =>
      exec_vtoint_of_large (s := s.withInputs c h e p) large sd
  · exact failsOrWrites_of_setInt (intOf (s.vec va)) (List.mem_singleton_self sd)
      fun c h e p => exec_vtoint_of_fits (s := s.withInputs c h e p) fits sd

theorem failsOrWrites_getb : FailsOrWrites (.getb sd va sa) s := by
  cases index : normIdx (s.int sa) (s.size va) with
  | none =>
    have outside := (normIdx_eq_none_iff _ _).mp index
    exact failsOrWrites_of_fails fun c h e p =>
      exec_getb_of_out_of_range (s := s.withInputs c h e p) outside sd
  | some k =>
    obtain ⟨below, names⟩ := (normIdx_eq_some_iff _ _ _).mp index
    exact failsOrWrites_of_setInt (if (s.vec va).getD k false then 1 else 0)
      (List.mem_singleton_self sd) fun c h e p =>
        exec_getb_of_bit (s := s.withInputs c h e p) names (getElem?_eq_some_getD below) sd

theorem failsOrWrites_setb : FailsOrWrites (.setb vd sa sb) s := by
  by_cases value : s.int sb = 0 ∨ s.int sb = 1
  case neg =>
    obtain ⟨not_zero, not_one⟩ := not_or.mp value
    exact failsOrWrites_of_fails fun c h e p =>
      exec_setb_of_bad_value (s := s.withInputs c h e p) not_zero not_one vd sa
  cases index : normIdx (s.int sa) (s.size vd) with
  | none =>
    have outside := (normIdx_eq_none_iff _ _).mp index
    exact failsOrWrites_of_fails fun c h e p =>
      exec_setb_of_out_of_range (s := s.withInputs c h e p) value outside
  | some k =>
    obtain ⟨below, names⟩ := (normIdx_eq_some_iff _ _ _).mp index
    refine failsOrWrites_of_setVec ((s.vec vd).set k (s.int sb == 1)) rfl (fun inv => ?_)
      fun c h e p => exec_setb_of_index (s := s.withInputs c h e p) value names below
    rw [List.length_set]
    exact inv.sizes vd

theorem failsOrWrites_vfill : FailsOrWrites (.vfill vd sa) s := by
  by_cases value : s.int sa = 0 ∨ s.int sa = 1
  · refine failsOrWrites_of_setVec (List.replicate (s.size vd) (s.int sa == 1)) rfl (fun inv => ?_)
      fun c h e p => exec_vfill_of_bit (s := s.withInputs c h e p) value vd
    rw [List.length_replicate]
    exact inv.sizes vd
  · obtain ⟨not_zero, not_one⟩ := not_or.mp value
    exact failsOrWrites_of_fails fun c h e p =>
      exec_vfill_of_bad_value (s := s.withInputs c h e p) not_zero not_one vd

theorem failsOrWrites_vslice : FailsOrWrites (.vslice vd va sa sb) s := by
  by_cases good : 0 ≤ s.int sa ∧ s.int sa ≤ s.int sb ∧ s.int sb ≤ s.size va
  case neg =>
    exact failsOrWrites_of_fails fun c h e p =>
      exec_vslice_of_bad_bounds (s := s.withInputs c h e p) good vd
  refine failsOrWrites_of_setVec (slice (s.vec va) (s.int sa).toNat (s.int sb).toNat) rfl
    (fun inv => ?_) fun c h e p => exec_vslice_of_bounds (s := s.withInputs c h e p) good vd
  exact (length_slice_le ..).trans (inv.sizes va)

theorem failsOrWrites_vslset : FailsOrWrites (.vslset vd va sa sb) s := by
  by_cases good : 0 ≤ s.int sa ∧ s.int sa ≤ s.int sb ∧ s.int sb ≤ s.size vd
  case neg =>
    exact failsOrWrites_of_fails fun c h e p =>
      exec_vslset_of_bad_slice (s := s.withInputs c h e p) (.inl good)
  by_cases size : (s.size va : Int) = s.int sb - s.int sa
  case neg =>
    exact failsOrWrites_of_fails fun c h e p =>
      exec_vslset_of_bad_slice (s := s.withInputs c h e p) (.inr size)
  refine failsOrWrites_of_setVec
    ((s.vec vd).take (s.int sa).toNat ++ s.vec va ++ (s.vec vd).drop (s.int sb).toNat) rfl
    (fun inv => ?_) fun c h e p => exec_vslset_of_bounds (s := s.withInputs c h e p) good size
  obtain ⟨nonneg, le, fits⟩ := good
  have le_nat : (s.int sa).toNat ≤ (s.int sb).toNat := by omega
  have fits_nat : (s.int sb).toNat ≤ s.size vd := by omega
  have size_nat : s.size va = (s.int sb).toNat - (s.int sa).toNat := by omega
  obtain ⟨same, -⟩ := isVector_splice le_nat fits_nat size_nat
  exact same.trans_le (inv.sizes vd)

theorem exec_setw_of_no_word {s : State} {vd : VReg} {sa : SReg}
    (no_word : plainIdx (s.int sa) (wordCount s.params.wordWidth (s.size vd)) = none) (sb : SReg) :
    exec (.setw vd sa sb) s = .next (failed .index s) := by
  rw [exec_setw_eq, execSetw, no_word, raise_eq]

theorem exec_setw_of_wordIdx {s : State} {vd : VReg} {sa : SReg} {k : Nat}
    (word : plainIdx (s.int sa) (wordCount s.params.wordWidth (s.size vd)) = some k) (sb : SReg) :
    exec (.setw vd sa sb) s = .next (done (s.setVec vd
      (wordWrite s.params.wordWidth (s.vec vd) k (s.scalar sb).toNat))) := by
  rw [exec_setw_eq, execSetw, word]
  exact succeed_eq _

theorem failsOrWrites_setw : FailsOrWrites (.setw vd sa sb) s := by
  cases index : plainIdx (s.int sa) (wordCount s.params.wordWidth (s.size vd)) with
  | none =>
    exact failsOrWrites_of_fails fun c h e p =>
      exec_setw_of_no_word (s := s.withInputs c h e p) index sb
  | some k =>
    refine failsOrWrites_of_setVec
      (wordWrite s.params.wordWidth (s.vec vd) k (s.scalar sb).toNat) rfl (fun inv => ?_)
      fun c h e p => exec_setw_of_wordIdx (s := s.withInputs c h e p) index sb
    rw [length_wordWrite]
    exact inv.sizes vd

theorem exec_getw_of_no_word {s : State} {va : VReg} {sa : SReg}
    (no_word : plainIdx (s.int sa) (wordCount s.params.wordWidth (s.size va)) = none) (sd : SReg) :
    exec (.getw sd va sa) s = .next (failed .index s) := by
  rw [exec_getw_eq, execGetw, no_word, raise_eq]

theorem exec_getw_of_wordIdx {s : State} {va : VReg} {sa : SReg} {k : Nat}
    (word : plainIdx (s.int sa) (wordCount s.params.wordWidth (s.size va)) = some k) (sd : SReg) :
    exec (.getw sd va sa) s = .next (done ((s.setScalar sd (s.storageWord va k)).setPadding
      (takeFree Config.paddingSource s.padding).2)) := by
  rw [exec_getw_eq, execGetw, word]
  rfl

/-- The one instruction that reads the padding stream, so `Leaves` keeps that stream. -/
theorem failsOrWrites_getw : FailsOrWrites (.getw sd va sa) s := by
  cases index : plainIdx (s.int sa) (wordCount s.params.wordWidth (s.size va)) with
  | none =>
    exact failsOrWrites_of_fails fun c h e p =>
      exec_getw_of_no_word (s := s.withInputs c h e p) index sd
  | some k =>
    refine .inr ⟨[.scalar sd (s.storageWord va k),
      .padding (takeFree Config.paddingSource s.padding).2], ?_, fun c h e p _ same => ?_⟩
    · exact List.forall_mem_cons.mpr
        ⟨List.mem_singleton_self sd, List.forall_mem_singleton.mpr rfl⟩
    · obtain rfl := same rfl
      exact exec_getw_of_wordIdx (s := s.withInputs c h e s.padding) index sd

theorem failsOrWrites_vcat : FailsOrWrites (.vcat vd va vb) s := by
  obtain above | fits := Nat.lt_or_ge s.params.cap (s.size va + s.size vb)
  · exact failsOrWrites_of_fails fun c h e p =>
      exec_vcat_of_above_cap (s := s.withInputs c h e p) above vd
  · refine failsOrWrites_of_setVec (s.vec va ++ s.vec vb) rfl (fun _ => ?_)
      fun c h e p => exec_vcat_of_fits (s := s.withInputs c h e p) fits vd
    rwa [List.length_append]

theorem failsOrWrites_vperm : FailsOrWrites (.vperm vd va) s := by
  by_cases inside : ∀ i ∈ s.indices, 0 ≤ i.toInt ∧ i.toInt < s.size va
  · refine failsOrWrites_of_setVec (permute (s.vec va) s.indices) rfl (fun inv => ?_)
      fun c h e p => exec_vperm_of_in_range (s := s.withInputs c h e p) inside vd
    rw [length_permute]
    exact inv.indices
  · exact failsOrWrites_of_fails fun c h e p => if_neg (mt (indicesInRange_iff ..).mp inside)

theorem failsOrWrites_vunperm : FailsOrWrites (.vunperm vd va) s := by
  by_cases same : s.indices.length = s.size va
  case neg =>
    exact failsOrWrites_of_fails fun c h e p =>
      exec_vunperm_of_length_ne (s := s.withInputs c h e p) same vd
  by_cases inside : ∀ i ∈ s.indices, 0 ≤ i.toInt ∧ i.toInt < s.size va
  · refine failsOrWrites_of_setVec (unpermute (s.vec va) s.indices) rfl (fun inv => ?_)
      fun c h e p => exec_vunperm_of_in_range (s := s.withInputs c h e p) same inside vd
    rw [length_unpermute]
    exact inv.sizes va
  · exact failsOrWrites_of_fails fun c h e p => (if_neg (not_not_intro same)).trans
      (if_neg (mt (indicesInRange_iff ..).mp inside))

theorem failsOrWrites_vhalf0 : FailsOrWrites (.vhalf0 vd va) s := by
  obtain even | odd := Nat.mod_two_eq_zero_or_one (s.size va)
  · refine failsOrWrites_of_setVec (slice (s.vec va) 0 (s.size va / 2)) rfl (fun inv => ?_)
      fun c h e p => exec_vhalf0_of_even (s := s.withInputs c h e p) even vd
    exact (length_slice_le ..).trans (inv.sizes va)
  · exact failsOrWrites_of_fails fun c h e p =>
      exec_vhalf0_of_odd (s := s.withInputs c h e p) odd vd

theorem failsOrWrites_vhalf1 : FailsOrWrites (.vhalf1 vd va) s := by
  obtain even | odd := Nat.mod_two_eq_zero_or_one (s.size va)
  · refine failsOrWrites_of_setVec (slice (s.vec va) (s.size va / 2) (s.size va)) rfl (fun inv => ?_)
      fun c h e p => exec_vhalf1_of_even (s := s.withInputs c h e p) even vd
    exact (length_slice_le ..).trans (inv.sizes va)
  · exact failsOrWrites_of_fails fun c h e p =>
      exec_vhalf1_of_odd (s := s.withInputs c h e p) odd vd

theorem failsOrWrites_nsb : FailsOrWrites (.nsb sd va sa) s := by
  cases found : nextSetBit (s.vec va) (s.int sa) with
  | some k =>
    obtain ⟨⟨start, is_set⟩, least⟩ := (nextSetBit_eq_some_iff _ _ _).mp found
    exact failsOrWrites_of_setInt k (List.mem_singleton_self sd) fun c h e p =>
      exec_nsb_of_least (s := s.withInputs c h e p) is_set start least sd
  | none =>
    have none_set := (nextSetBit_eq_none_iff _ _).mp found
    exact failsOrWrites_of_setInt (-1) (List.mem_singleton_self sd) fun c h e p =>
      exec_nsb_of_none (s := s.withInputs c h e p) none_set sd

theorem failsOrWrites_rank : FailsOrWrites (.rank sd va sa) s := by
  cases index : plainIdx (s.int sa) (s.size va) with
  | none =>
    have outside := (plainIdx_eq_none_iff _ _).mp index
    exact failsOrWrites_of_fails fun c h e p =>
      exec_rank_of_out_of_range (s := s.withInputs c h e p) outside sd
  | some k =>
    obtain ⟨at_k, below⟩ := (plainIdx_eq_some_iff _ _ _).mp index
    exact failsOrWrites_of_setInt
      (if (s.vec va).getD k false then countBelow (k + 1) (fun p => (s.vec va).getD p false) else 0)
      (List.mem_singleton_self sd) fun c h e p =>
        exec_rank_of_bit (s := s.withInputs c h e p) at_k (getElem?_eq_some_getD below) sd

theorem failsOrWrites_vruns : FailsOrWrites (.vruns sd va) s := by
  refine failsOrWrites_of_writes [.indices ((runs (s.vec va)).map fun r => BitVec.ofNat 32 r.2),
    .scalar sd (BitVec.ofInt 32 (truth ((s.vec va).headD false)))] ?_ fun _ _ _ _ => rfl
  rw [List.forall_mem_cons, List.forall_mem_singleton]
  refine ⟨⟨rfl, fun inv => ?_⟩, List.mem_singleton_self sd⟩
  rw [List.length_map]
  exact (length_runs_le (s.vec va)).trans (inv.sizes va)

theorem failsOrWrites_hamm : FailsOrWrites (.hamm sd va vb) s := by
  by_cases same : s.size va = s.size vb
  · exact failsOrWrites_of_setInt (popcount (List.zipWith (· != ·) (s.vec va) (s.vec vb)))
      (List.mem_singleton_self sd) fun c h e p => if_neg (not_not_intro same)
  · exact failsOrWrites_of_fails fun c h e p =>
      exec_hamm_of_size_ne (s := s.withInputs c h e p) same sd

theorem failsOrWrites_gfmul : FailsOrWrites (.gfmul vd va vb) s := by
  obtain above | fits := Nat.lt_or_ge s.params.cap (s.size va + s.size vb - 1)
  · exact failsOrWrites_of_fails fun c h e p =>
      exec_gfmul_of_above_cap (s := s.withInputs c h e p) above vd
  · refine failsOrWrites_of_setVec
      (fromInt (mulBits (s.vec va) (intOf (s.vec vb))) (s.size va + s.size vb - 1)) rfl (fun _ => ?_)
      fun c h e p => exec_gfmul_of_fits (s := s.withInputs c h e p) fits vd
    rwa [length_fromInt]

theorem failsOrWrites_gfquo : FailsOrWrites (.gfquo vd va vb sa) s := by
  refine failsOrWrites_of_modCheck_setVec rfl (exec_gfquo_eq vd va vb sa) (fun _ _ _ _ => rfl)
    fun _ inv => ?_
  rw [length_fromInt]
  exact inv.sizes va

theorem failsOrWrites_gfrem : FailsOrWrites (.gfrem vd va vb sa) s := by
  refine failsOrWrites_of_modCheck_setVec rfl (exec_gfrem_eq vd va vb sa) (fun _ _ _ _ => rfl)
    fun valid inv => ?_
  rw [length_fromInt]
  exact valid.toNat_le_cap inv

theorem failsOrWrites_gfmulm : FailsOrWrites (.gfmulm vd va vb vc sa) s := by
  refine failsOrWrites_of_modCheck_setVec rfl (exec_gfmulm_eq vd va vb vc sa) (fun _ _ _ _ => rfl)
    fun valid inv => ?_
  rw [length_fromInt]
  exact valid.toNat_le_cap inv

theorem failsOrWrites_gfmi : FailsOrWrites (.gfmi vd va vb sa) s := by
  refine failsOrWrites_of_modCheck (vm := vb) (sa := sa)
    (fun u => inverseWrites vd ((polyInverse (intOf (u.vec va)) (intOf (u.vec vb))).map
      fun b => fromInt b (u.int sa).toNat))
    (fun u => by rw [exec_gfmi_eq, setInverse_eq_applyWrites]) (fun _ _ _ _ => rfl)
    fun valid => inverseWrites_allowed rfl rfl fun v found inv => ?_
  obtain ⟨b, -, rfl⟩ := Option.map_eq_some_iff.mp found
  rw [length_fromInt]
  exact valid.toNat_le_cap inv

theorem failsOrWrites_modinv : FailsOrWrites (.modinv vd va vb) s := by
  by_cases zero : intOf (s.vec vb) = 0
  · exact failsOrWrites_of_fails fun c h e p =>
      exec_modinv_of_zero (s := s.withInputs c h e p) zero vd va
  refine failsOrWrites_of_writes
    (inverseWrites vd ((modInverse (intOf (s.vec va)) (intOf (s.vec vb))).map minRep))
    (inverseWrites_allowed rfl rfl fun v found inv => ?_) fun c h e p => ?_
  · obtain ⟨x, inverse, rfl⟩ := Option.map_eq_some_iff.mp found
    obtain ⟨answers, -⟩ := modInverse_spec (intOf (s.vec va)) (intOf (s.vec vb)) zero
    obtain ⟨below, -⟩ := answers x inverse
    exact (length_minRep_le_of_lt below).trans (inv.sizes vb)
  · rw [← setInverse_eq_applyWrites]
    exact exec_modinv_of_nonzero (s := s.withInputs c h e p) zero vd va

theorem failsOrWrites_vgcd : FailsOrWrites (.vgcd vd va vb) s := by
  refine failsOrWrites_of_setVec (minRep (Nat.gcd (intOf (s.vec va)) (intOf (s.vec vb)))) rfl
    (fun inv => ?_) fun _ _ _ _ => exec_vgcd vd va vb _
  have room := inv.thirtyTwo_le_cap
  exact (length_minRep_gcd_le ..).trans
    (max_le (max_le (inv.sizes va) (inv.sizes vb)) (by omega))

/-- `PRIME` draws, so `Leaves` keeps the entropy stream. -/
theorem failsOrWrites_prime : FailsOrWrites (.prime sd va sa) s := by
  obtain bad | rounds : s.int sa < 1 ∨ 1 ≤ s.int sa := by omega
  · exact failsOrWrites_of_fails fun c h e p =>
      exec_prime_of_bad_value (s := s.withInputs c h e p) bad sd va
  refine .inr ⟨[.scalar sd (BitVec.ofInt 32 (s.primeAnswer va sa).1.toNat),
    .entropy (s.primeAnswer va sa).2], ?_, fun c h e p same _ => ?_⟩
  · exact List.forall_mem_cons.mpr
      ⟨List.mem_singleton_self sd, List.forall_mem_singleton.mpr rfl⟩
  · obtain rfl := same rfl
    exact exec_prime_of_rounds (s := s.withInputs c h s.entropy p) rounds sd va

/-- `RANDP` draws, so `Leaves` keeps the entropy stream. -/
theorem failsOrWrites_randp : FailsOrWrites (.randp vd sa) s := by
  obtain bad | ⟨width, above⟩ | ⟨width, fits⟩ : s.int sa < 1 ∨
      (1 ≤ s.int sa ∧ s.params.cap < s.int sa) ∨ 1 ≤ s.int sa ∧ s.int sa ≤ s.params.cap := by omega
  · exact failsOrWrites_of_fails fun c h e p =>
      exec_randp_of_bad_value (s := s.withInputs c h e p) bad vd
  · exact failsOrWrites_of_fails fun c h e p =>
      exec_randp_of_above_cap (s := s.withInputs c h e p) width above vd
  refine .inr ⟨[.vector vd (s.randpCandidate sa).1, .entropy (s.randpCandidate sa).2], ?_,
    fun c h e p same _ => ?_⟩
  · refine List.forall_mem_cons.mpr ⟨⟨rfl, fun _ => ?_⟩, List.forall_mem_singleton.mpr rfl⟩
    rw [State.randpCandidate, length_primeCandidate (by omega)]
    omega
  · obtain rfl := same rfl
    exact exec_randp_of_fits (s := s.withInputs c h s.entropy p) width fits vd

theorem failsOrWrites_getbyte : FailsOrWrites (.getbyte sd va sa) s := by
  cases index : plainIdx (s.int sa) (s.size va / 8) with
  | none =>
    have outside := (plainIdx_eq_none_iff _ _).mp index
    exact failsOrWrites_of_fails fun c h e p =>
      exec_getbyte_of_out_of_range (s := s.withInputs c h e p) outside sd
  | some k =>
    obtain ⟨at_k, below⟩ := (plainIdx_eq_some_iff _ _ _).mp index
    exact failsOrWrites_of_setInt (byteOf (s.vec va) k) (List.mem_singleton_self sd)
      fun c h e p => exec_getbyte_of_byte (s := s.withInputs c h e p) at_k below sd

theorem failsOrWrites_appbyte : FailsOrWrites (.appbyte vd sa) s := by
  by_cases bad : s.int sa < 0 ∨ 255 < s.int sa
  · exact failsOrWrites_of_fails fun c h e p =>
      exec_appbyte_of_bad_value (s := s.withInputs c h e p) bad vd
  obtain ⟨nonneg, byte⟩ : 0 ≤ s.int sa ∧ s.int sa ≤ 255 := by omega
  have result c h e p := exec_appbyte_of_byte (s := s.withInputs c h e p) nonneg byte vd
  by_cases above : s.params.cap < s.size vd + 8
  · exact failsOrWrites_of_fails fun c h e p => (result c h e p).trans (if_pos above)
  · refine failsOrWrites_of_setVec (s.vec vd ++ fromInt (s.int sa).toNat 8) rfl (fun _ => ?_)
      fun c h e p => (result c h e p).trans (if_neg above)
    rw [List.length_append, length_fromInt]
    exact Nat.not_lt.mp above

end

/-- Every instruction in every state fails or makes writes that it may make. An instruction without a
check of its own is its shared rule, or its one equation. -/
theorem failsOrWrites (i : Instr) (s : State) : FailsOrWrites i s := by
  cases i with
  | nop => exact failsOrWrites_of_writes [] nofun fun _ _ _ _ => rfl
  | clrerr =>
    exact failsOrWrites_of_writes [.clearErr] (List.forall_mem_singleton.mpr rfl) fun _ _ _ _ => rfl
  | rdst sd =>
    exact failsOrWrites_of_setScalar s.status (List.mem_singleton_self sd) fun _ _ _ _ => rfl
  | sli sd imm16 =>
    exact failsOrWrites_of_setInt imm16.toInt (List.mem_singleton_self sd)
      fun _ _ _ _ => exec_sli sd imm16 _
  | slih sd imm16 =>
    exact failsOrWrites_of_setScalar (BitVec.ofNat 32 ((s.scalar sd).toNat * 2 ^ 16 + imm16.toNat))
      (List.mem_singleton_self sd) fun _ _ _ _ => exec_slih sd imm16 _
  | saddi sd imm16 =>
    exact failsOrWrites_of_setInt (s.int sd + imm16.toInt) (List.mem_singleton_self sd)
      fun _ _ _ _ => exec_saddi sd imm16 _
  | ixclr =>
    exact failsOrWrites_of_writes [.indices []]
      (List.forall_mem_singleton.mpr ⟨rfl, fun _ => Nat.zero_le _⟩) fun _ _ _ _ => rfl
  | ixpush sa => exact failsOrWrites_ixpush s sa
  | ixlen sd =>
    exact failsOrWrites_of_setInt s.indices.length (List.mem_singleton_self sd)
      fun _ _ _ _ => exec_ixlen sd _
  | ixget sd sa => exact failsOrWrites_ixget s sd sa
  | vzero vd sa => exact failsOrWrites_vzero s sa vd
  | vint vd sa => exact failsOrWrites_vint s sa vd
  | vints vd sa sb => exact failsOrWrites_vints s sa sb vd
  | vtoint sd va => exact failsOrWrites_vtoint s sd va
  | vsize sd va =>
    exact failsOrWrites_of_setInt (s.size va) (List.mem_singleton_self sd)
      fun _ _ _ _ => exec_vsize sd va _
  | getb sd va sa => exact failsOrWrites_getb s sd sa va
  | setb vd sa sb => exact failsOrWrites_setb s sa sb vd
  | vfill vd sa => exact failsOrWrites_vfill s sa vd
  | vslice vd va sa sb => exact failsOrWrites_vslice s sa sb vd va
  | vslset vd va sa sb => exact failsOrWrites_vslset s sa sb vd va
  | getw sd va sa => exact failsOrWrites_getw s sd sa va
  | setw vd sa sb => exact failsOrWrites_setw s sa sb vd
  | vmov vd va =>
    exact failsOrWrites_of_setVec (s.vec va) rfl (fun inv => inv.sizes va)
      fun _ _ _ _ => exec_vmov vd va _
  | vand vd va vb => exact failsOrWrites_of_logical rfl (exec_vand vd va vb)
  | vor vd va vb => exact failsOrWrites_of_logical rfl (exec_vor vd va vb)
  | vxor vd va vb => exact failsOrWrites_of_logical rfl (exec_vxor vd va vb)
  | vnot vd va =>
    exact failsOrWrites_of_setVec ((s.vec va).map (!·)) rfl
      (fun inv => (List.length_map _).trans_le (inv.sizes va)) fun _ _ _ _ => exec_vnot vd va _
  | vcat vd va vb => exact failsOrWrites_vcat s vd va vb
  | vceq sd va vb =>
    exact failsOrWrites_of_compare (rel := fun a b => decide (a = b)) (List.mem_singleton_self sd)
      fun _ => rfl
  | vcne sd va vb =>
    exact failsOrWrites_of_compare (rel := fun a b => decide (a ≠ b)) (List.mem_singleton_self sd)
      fun _ => rfl
  | vclt sd va vb =>
    exact failsOrWrites_of_compare (rel := fun a b => decide (a < b)) (List.mem_singleton_self sd)
      fun _ => rfl
  | vcle sd va vb =>
    exact failsOrWrites_of_compare (rel := fun a b => decide (a ≤ b)) (List.mem_singleton_self sd)
      fun _ => rfl
  | vcgt sd va vb =>
    exact failsOrWrites_of_compare (rel := fun a b => decide (a > b)) (List.mem_singleton_self sd)
      fun _ => rfl
  | vcge sd va vb =>
    exact failsOrWrites_of_compare (rel := fun a b => decide (a ≥ b)) (List.mem_singleton_self sd)
      fun _ => rfl
  | vcont sd va vb =>
    exact failsOrWrites_of_setInt (truth (occursIn (s.vec vb) (s.vec va)))
      (List.mem_singleton_self sd) fun _ _ _ _ => rfl
  | vrol vd sa => exact failsOrWrites_of_shift rfl length_rotateLeft (exec_vrol vd sa)
  | vror vd sa => exact failsOrWrites_of_shift rfl length_rotateRight (exec_vror vd sa)
  | vshl vd sa => exact failsOrWrites_of_shift rfl length_shiftLeft (exec_vshl vd sa)
  | vshr vd sa => exact failsOrWrites_of_shift rfl length_shiftRight (exec_vshr vd sa)
  | vperm vd va => exact failsOrWrites_vperm s vd va
  | vunperm vd va => exact failsOrWrites_vunperm s vd va
  | vhalf0 vd va => exact failsOrWrites_vhalf0 s vd va
  | vhalf1 vd va => exact failsOrWrites_vhalf1 s vd va
  | popc sd va | popcs sd va =>
    exact failsOrWrites_of_setInt (popcount (s.vec va)) (List.mem_singleton_self sd)
      fun _ _ _ _ => countBits_eq sd va _
  | nsb sd va sa => exact failsOrWrites_nsb s sd sa va
  | rank sd va sa => exact failsOrWrites_rank s sd sa va
  | isp2 sd va | isp2s sd va =>
    exact failsOrWrites_of_setInt (if popcount (s.vec va) = 1 then 1 else 0)
      (List.mem_singleton_self sd) fun _ _ _ _ => isPowerOfTwo_eq sd va _
  | vrev vd va =>
    exact failsOrWrites_of_setVec (s.vec va).reverse rfl
      (fun inv => List.length_reverse.trans_le (inv.sizes va)) fun _ _ _ _ => exec_vrev vd va _
  | vruns sd va => exact failsOrWrites_vruns s sd va
  | hamm sd va vb => exact failsOrWrites_hamm s sd va vb
  | jsim sd se va vb => exact failsOrWrites_of_jaccard rfl (exec_jsim sd se va vb)
  | jdist sd se va vb => exact failsOrWrites_of_jaccard rfl (exec_jdist sd se va vb)
  | gfmul vd va vb => exact failsOrWrites_gfmul s vd va vb
  | gfquo vd va vb sa => exact failsOrWrites_gfquo s sa vd va vb
  | gfrem vd va vb sa => exact failsOrWrites_gfrem s sa vd va vb
  | gfmulm vd va vb vc sa => exact failsOrWrites_gfmulm s sa vd va vb vc
  | gfmi vd va vb sa => exact failsOrWrites_gfmi s sa vd va vb
  | modinv vd va vb => exact failsOrWrites_modinv s vd va vb
  | vgcd vd va vb => exact failsOrWrites_vgcd s vd va vb
  | prime sd va sa => exact failsOrWrites_prime s sd sa va
  | randp vd sa => exact failsOrWrites_randp s sa vd
  | getbyte sd va sa => exact failsOrWrites_getbyte s sd sa va
  | appbyte vd sa => exact failsOrWrites_appbyte s sa vd


/-! ### Several writes -/

theorem Leaves.exec_eq {i : Instr} {s : State} {f : State → State} (h : Leaves i s f) :
    exec i s = .next (f s) := h s.resp s.host s.entropy s.padding (fun _ => rfl) fun _ => rfl

/-- What a property needs to hold after the writes: each of them keeps it. -/
theorem applyWrites_preserves {P : State → Prop} {ws : List Write}
    (keeps : ∀ w ∈ ws, ∀ u, P u → P (w.apply u)) {s : State} (start : P s) :
    P (applyWrites ws s) := by
  induction ws generalizing s with
  | nil => exact start
  | cons w ws ih =>
    obtain ⟨first, rest⟩ := List.forall_mem_cons.mp keeps
    exact ih rest (first s start)

/-- A reading of the state that no write changes. -/
theorem applyWrites_keeps {α : Type} (g : State → α) {ws : List Write}
    (keeps : ∀ w ∈ ws, ∀ u, g (w.apply u) = g u) (s : State) : g (applyWrites ws s) = g s :=
  applyWrites_preserves (P := fun u => g u = g s) (fun w mem u same => (keeps w mem u).trans same) rfl

/-- A change of the state that each write commutes with. -/
theorem applyWrites_comm {f : State → State} {ws : List Write}
    (comm : ∀ w ∈ ws, ∀ u, w.apply (f u) = f (w.apply u)) (s : State) :
    applyWrites ws (f s) = f (applyWrites ws s) := by
  induction ws generalizing s with
  | nil => rfl
  | cons w ws ih =>
    obtain ⟨first, rest⟩ := List.forall_mem_cons.mp comm
    rw [applyWrites, first, ih rest, applyWrites]

/-! ### What one write leaves unchanged -/

section
variable {i : Instr} {s : State} {w : Write}

theorem Write.apply_params (w : Write) (u : State) : (w.apply u).params = u.params := by
  cases w <;> rfl

theorem Write.apply_host (w : Write) (u : State) : (w.apply u).host = u.host := by
  cases w <;> rfl

theorem Write.Allowed.apply_scalar (allowed : w.Allowed i s) {r : SReg} (other : r ∉ i.scalarDests)
    (u : State) : (w.apply u).scalar r = u.scalar r := by
  cases w with
  | scalar r' v => exact u.scalar_setScalar_ne r' r v fun same => other (same ▸ allowed)
  | _ => rfl

theorem Write.Allowed.apply_vec (allowed : w.Allowed i s) {r : VReg} (other : i.vectorDest ≠ some r)
    (u : State) : (w.apply u).vec r = u.vec r := by
  cases w with
  | vector r' v =>
    obtain ⟨dest, -⟩ := allowed
    exact u.vec_setVec_ne r' r v fun same => other (same ▸ dest)
  | _ => rfl

theorem Write.Allowed.apply_indices (allowed : w.Allowed i s) (other : i.writesIndices = false)
    (u : State) : (w.apply u).indices = u.indices := by
  cases w with
  | indices l =>
    obtain ⟨writes, -⟩ := allowed
    exact absurd (writes.symm.trans other) (by decide)
  | _ => rfl

theorem Write.Allowed.apply_nr (allowed : w.Allowed i s) (other : i.writesNr = false)
    (u : State) : (w.apply u).nr = u.nr := by
  cases w with
  | nr b => exact absurd (Eq.trans (Eq.symm allowed) other) (by decide)
  | _ => rfl

theorem Write.Allowed.apply_err (allowed : w.Allowed i s) (other : i ≠ .clrerr) (u : State) :
    (w.apply u).err = u.err := by
  cases w with
  | clearErr => exact absurd allowed other
  | _ => rfl

/-- Writes other than draws see nothing of the entropy stream. -/
theorem Write.Allowed.apply_setEntropy (allowed : w.Allowed i s) (other : i.draws = false)
    (e : FreeStream) (u : State) : w.apply (u.setEntropy e) = (w.apply u).setEntropy e := by
  cases w with
  | entropy e' => exact absurd (Eq.trans (Eq.symm allowed) other) (by decide)
  | _ => rfl

/-- Writes other than a word of padding taken see nothing of the padding stream. -/
theorem Write.Allowed.apply_setPadding (allowed : w.Allowed i s) (other : i.readsPadding = false)
    (p : FreeStream) (u : State) : w.apply (u.setPadding p) = (w.apply u).setPadding p := by
  cases w with
  | padding p' => exact absurd (Eq.trans (Eq.symm allowed) other) (by decide)
  | _ => rfl

theorem Write.Allowed.apply_entropy (allowed : w.Allowed i s) (other : i.draws = false) (u : State) :
    (w.apply u).entropy = u.entropy :=
  (congrArg State.entropy (allowed.apply_setEntropy other u.entropy u) :)

theorem Write.Allowed.apply_padding (allowed : w.Allowed i s) (other : i.readsPadding = false)
    (u : State) : (w.apply u).padding = u.padding :=
  (congrArg State.padding (allowed.apply_setPadding other u.padding u) :)

theorem Write.apply_setPort (w : Write) (h : List HostEvent) (c : Option (BitVec 8)) (u : State) :
    w.apply { u with host := h, resp := c } = { w.apply u with host := h, resp := c } := by
  cases w <;> rfl

end

/-! ### The statements about what a command writes and reads -/

/-- Settles O13: the writes of a command are to its destinations, and a failing command makes none. -/
theorem commandWritesOnlyItsDestinations : Obligations.CommandWritesOnlyItsDestinations := by
  intro i s t result
  obtain ⟨code, leaves⟩ | ⟨ws, allowed, leaves⟩ := failsOrWrites i s
  · obtain rfl : failed code s = t := Host.Outcome.next.inj (leaves.exec_eq.symm.trans result)
    exact ⟨fun _ _ => rfl, fun _ _ => rfl, fun _ => rfl, fun _ => rfl, fun _ => rfl, fun _ => rfl,
      rfl, rfl⟩
  · obtain rfl : done (applyWrites ws s) = t := Host.Outcome.next.inj (leaves.exec_eq.symm.trans result)
    exact ⟨
      fun r other => applyWrites_keeps (·.scalar r) (fun w mem => (allowed w mem).apply_scalar other) s,
      fun r other => applyWrites_keeps (·.vec r) (fun w mem => (allowed w mem).apply_vec other) s,
      fun other => applyWrites_keeps (·.indices) (fun w mem => (allowed w mem).apply_indices other) s,
      fun other => applyWrites_keeps (·.nr) (fun w mem => (allowed w mem).apply_nr other) s,
      fun other => applyWrites_keeps (·.entropy) (fun w mem => (allowed w mem).apply_entropy other) s,
      fun other => applyWrites_keeps (·.padding) (fun w mem => (allowed w mem).apply_padding other) s,
      applyWrites_keeps (·.params) (fun w _ => w.apply_params) s,
      applyWrites_keeps (·.host) (fun w _ => w.apply_host) s⟩

/-- A change `f` of inputs that the command does not read, and that its writes do not touch, changes its
result by `g` alone. -/
theorem exec_of_unread {i : Instr} {s t : State} {f g : State → State} (result : exec i s = .next t)
    (unread : ∀ leaves, Leaves i s leaves → exec i (f s) = .next (leaves (f s)))
    (untouched : ∀ w : Write, w.Allowed i s → ∀ u, w.apply (f u) = f (w.apply u))
    (on_failed : ∀ code u, failed code (f u) = g (failed code u))
    (on_done : ∀ u, done (f u) = g (done u)) : exec i (f s) = .next (g t) := by
  obtain ⟨code, leaves⟩ | ⟨ws, allowed, leaves⟩ := failsOrWrites i s
  all_goals
    obtain rfl := Host.Outcome.next.inj (leaves.exec_eq.symm.trans result)
    rw [unread _ leaves]
  · rw [on_failed]
  · rw [applyWrites_comm fun w mem => untouched w (allowed w mem), on_done]

/-- Settles O14: a command that does not read a stream makes the same writes whatever the stream is, and
none of them touches it. -/
theorem freeInputsReachOnlyTheirReaders : Obligations.FreeInputsReachOnlyTheirReaders := by
  constructor
  · intro i s t p other result
    have not_read : i.readsPadding = true → p = s.padding := fun reads =>
      absurd (reads.symm.trans other) (by decide)
    exact exec_of_unread (f := (·.setPadding p)) (g := (·.setPadding p)) result
      (fun _ leaves => leaves s.resp s.host s.entropy p (fun _ => rfl) not_read)
      (fun _ allowed => allowed.apply_setPadding other p) (fun _ _ => rfl) fun _ => rfl
  · intro i s t e other result
    have not_read : i.draws = true → e = s.entropy := fun draws =>
      absurd (draws.symm.trans other) (by decide)
    exact exec_of_unread (f := (·.setEntropy e)) (g := (·.setEntropy e)) result
      (fun _ leaves => leaves s.resp s.host e s.padding not_read fun _ => rfl)
      (fun _ allowed => allowed.apply_setEntropy other e) (fun _ _ => rfl) fun _ => rfl

/-- Settles O15: no write touches the port, and the response is written last. -/
theorem laterCommandsAreInvisible : Obligations.LaterCommandsAreInvisible := fun _ s _ h c result =>
  exec_of_unread (f := fun u => { u with host := h, resp := c }) (g := (·.withHost h)) result
    (fun _ leaves => leaves c h s.entropy s.padding (fun _ => rfl) fun _ => rfl)
    (fun w _ => w.apply_setPort h c) (fun _ _ => rfl) fun _ => rfl

/-! ### The step (60_exceptions.md R243, 70_reset_and_hazards.md R271, R282) -/

/-- What a command word does: it fails, or it decodes to an instruction that makes its writes. -/
theorem runCommand_cases (w : Command) (s : State) :
    (∃ code, runCommand w s = .next (failed code s)) ∨
      ∃ i ws, decode w = .ok i ∧ (∀ x ∈ ws, Write.Allowed i s x) ∧
        runCommand w s = .next (done (applyWrites ws s)) := by
  cases word : decode w with
  | error e => exact .inl ⟨.illegal, runCommand_of_error word s⟩
  | ok i =>
    rw [runCommand_of_ok word]
    obtain ⟨code, leaves⟩ | ⟨ws, allowed, leaves⟩ := failsOrWrites i s
    · exact .inl ⟨code, leaves.exec_eq⟩
    · exact .inr ⟨i, ws, rfl, allowed, leaves.exec_eq⟩

/-- Settles O2. -/
theorem resetEventGivesTheResetState : Obligations.ResetEventGivesTheResetState :=
  fun _ _ event => step_reset event

theorem tableCommand_toNat (w : Command) : tableCommand 32 w.toNat = w := by
  rw [tableCommand, Nat.mod_eq_of_lt w.isLt, BitVec.ofNat_toNat, BitVec.setWidth_eq]

/-- Settles O3: a step takes the oldest event; the word offered by `withFetchWord` is the oldest. -/
theorem stepRunsTheDecodedCommand : Obligations.StepRunsTheDecodedCommand := by
  refine ⟨fun s w rest i event word => ?_, fun s no_event => step_idle no_event, fun s w i word => ?_⟩
  · exact (step_command event).trans (runCommand_of_ok word _)
  · rw [step_command (withFetchWord_host s 32 w.toNat), tableCommand_toNat]
    exact runCommand_of_ok word s

/-- Settles O9: a fault or a refusal is the answer of no command, and the response is 0 or an error's
code. -/
theorem everyStepYieldsANextState : Obligations.EveryStepYieldsANextState := by
  intro s
  cases events : s.host with
  | nil => exact ⟨_, step_idle events, nofun⟩
  | cons event rest =>
    cases event with
    | reset => exact ⟨_, step_reset events, nofun⟩
    | command w =>
      rw [step_command events]
      obtain ⟨code, result⟩ | ⟨i, ws, -, -, result⟩ := runCommand_cases w (s.withHost rest)
      · refine ⟨_, result, fun _ _ same => ?_⟩
        obtain ⟨-, rfl⟩ := List.cons.inj same
        exact ⟨rfl, _, rfl, code.code_le⟩
      · refine ⟨_, result, fun _ _ same => ?_⟩
        obtain ⟨-, rfl⟩ := List.cons.inj same
        exact ⟨applyWrites_keeps (·.host) (fun w _ => w.apply_host) _, 0, rfl, by decide⟩

/-- Settles O10: a failing command leaves `failed`, whose response is not 0; a succeeding one makes
writes, of which only that of `CLRERR` is to the latch. -/
theorem failingCommandChangesOnlyTheLatch : Obligations.FailingCommandChangesOnlyTheLatch := by
  intro s w rest event
  rw [step_command event]
  obtain ⟨code, result⟩ | ⟨i, ws, word, allowed, result⟩ := runCommand_cases w (s.withHost rest)
  · exact ⟨_, code.code, result, rfl, fun _ => rfl, fun zero => absurd zero code.code_ne_zero⟩
  · refine ⟨_, 0, result, rfl, fun nonzero => absurd rfl nonzero, fun _ not_clrerr => ?_⟩
    have other : i ≠ .clrerr := fun same => not_clrerr (word.trans (congrArg _ same))
    exact applyWrites_keeps (·.err) (fun x mem => (allowed x mem).apply_err other) _

/-! ### The invariant -/

/-- Settles O11. -/
theorem resetSatisfiesTheInvariant : Obligations.ResetSatisfiesTheInvariant where
  legal := by decide
  sizes r := by rw [State.size, State.reset_vec]; exact Nat.zero_le _
  indices := Nat.zero_le _
  err := by decide
  resp := nofun

theorem inv_failed {s : State} (inv : s.Inv) (code : ErrCode) : (failed code s).Inv where
  legal := inv.legal
  sizes := inv.sizes
  indices := inv.indices
  err := latch_le inv.err code
  resp c given := by
    obtain rfl := Option.some.inj given
    exact code.code_le

theorem inv_done {s : State} (inv : s.Inv) : (done s).Inv where
  legal := inv.legal
  sizes := inv.sizes
  indices := inv.indices
  err := inv.err
  resp c given := by
    obtain rfl := Option.some.inj given
    decide

/-- The bounds of a write are those of the invariant: they refer to the parameters, which no write
changes. -/
theorem Write.Allowed.apply_inv {i : Instr} {s u : State} {w : Write} (allowed : w.Allowed i s)
    (start : s.Inv) (params : u.params = s.params) (inv : u.Inv) : (w.apply u).Inv := by
  obtain ⟨legal, sizes, indices, err, resp⟩ := inv
  cases w with
  | vector r v =>
    obtain ⟨-, bound⟩ := allowed
    refine ⟨legal, fun r' => ?_, indices, err, resp⟩
    rw [Write.apply, State.size, State.vec_setVec, State.setVec_params]
    split
    · exact params ▸ bound start
    · exact sizes r'
  | indices l =>
    obtain ⟨-, bound⟩ := allowed
    exact ⟨legal, sizes, (bound start).trans_eq (congrArg Params.cap params.symm), err, resp⟩
  | clearErr => exact ⟨legal, sizes, indices, Nat.zero_le _, resp⟩
  | scalar r v | nr b | entropy e | padding p => exact ⟨legal, sizes, indices, err, resp⟩

theorem inv_applyWrites {i : Instr} {s : State} {ws : List Write}
    (allowed : ∀ w ∈ ws, w.Allowed i s) (inv : s.Inv) : (applyWrites ws s).Inv := by
  have kept := applyWrites_preserves (P := fun u => u.params = s.params ∧ u.Inv) (ws := ws)
    (fun w mem u ⟨params, held⟩ =>
      ⟨(w.apply_params u).trans params, (allowed w mem).apply_inv inv params held⟩) ⟨rfl, inv⟩
  exact kept.2

theorem inv_withHost {s : State} (inv : s.Inv) (rest : List HostEvent) : (s.withHost rest).Inv :=
  { inv with }

theorem inv_idle {s : State} (inv : s.Inv) : s.idle.Inv := { inv with resp := nofun }

/-- Of the reset state only the parameters are the old ones. -/
theorem inv_applyReset {s : State} (inv : s.Inv) : s.applyReset.Inv where
  legal := inv.legal
  sizes r := (congrArg List.length (State.reset_vec r)).trans_le (Nat.zero_le _)
  indices := Nat.zero_le _
  err := Nat.zero_le _
  resp := nofun

/-- Settles O12: a step is idle, a reset, or a command, which fails or makes writes within the bounds. -/
theorem everyStepKeepsTheInvariant : Obligations.EveryStepKeepsTheInvariant := by
  intro s t inv result
  cases events : s.host with
  | nil =>
    obtain rfl := Host.Outcome.next.inj ((step_idle events).symm.trans result)
    exact inv_idle inv
  | cons event rest =>
    have taken := inv_withHost inv rest
    cases event with
    | reset =>
      obtain rfl := Host.Outcome.next.inj ((step_reset events).symm.trans result)
      exact inv_applyReset taken
    | command w =>
      rw [step_command events] at result
      obtain ⟨code, answer⟩ | ⟨i, ws, -, allowed, answer⟩ := runCommand_cases w (s.withHost rest)
      all_goals obtain rfl := Host.Outcome.next.inj (answer.symm.trans result)
      · exact inv_failed taken code
      · exact inv_done (inv_applyWrites allowed taken)

/-! ### Registers and the read port -/

/-- Settles O17. -/
theorem registerReadsBackWhatWasWritten : Obligations.RegisterReadsBackWhatWasWritten :=
  ⟨State.scalar_setScalar, State.int_setInt_self, State.vec_setVec⟩

theorem readPort_scalar (s : State) (r : SReg) : s.readPort (r.setWidth 5) = s.scalar r := by
  have in_range := r.isLt
  have wide : (r.setWidth 5).toNat = r.toNat := by
    rw [BitVec.toNat_setWidth, Nat.mod_eq_of_lt (by omega)]
  rw [State.readPort, if_pos (wide ▸ in_range), BitVec.setWidth_setWidth_of_le _ (by decide),
    BitVec.setWidth_eq]

/-- 10_state.md R26: `STATUS` is below `2^9`, so its bits from 9 up are 0. -/
theorem getLsbD_status_of_ge (s : State) {k : Nat} (high : 9 ≤ k) : s.status.getLsbD k = false := by
  have err := s.err.isLt
  have nr := Bool.toNat_le s.nr
  have below : s.status.toNat < 2 ^ 9 := by rw [status_toNat]; omega
  exact Nat.testBit_lt_two_pow (below.trans_le (Nat.pow_le_pow_right Nat.two_pos high))

/-- Settles O16: the port splits on the selector; the bits of `STATUS` follow from its value. -/
theorem readPortShowsScalarsAndStatus : Obligations.ReadPortShowsScalarsAndStatus := by
  refine fun s => ⟨readPort_scalar s, rfl, fun sel high => ?_, status_toNat s,
    fun _ => getLsbD_status_of_ge s⟩
  rw [State.readPort, if_neg (by omega), if_neg (by omega)]

end Sys2Proof.Machine
end

section
/-! The statements of 30_encoding.md section 7: the pseudo-instructions (R81). -/

namespace Sys2Proof.Machine

/-! ### Runs in which every command succeeds -/

/-- A run of instructions from one state to another in which every command succeeds (20_memory.md R58). -/
inductive Succeeds : List Instr → State → State → Prop where
  /-- Nothing to run. -/
  | nil (s : State) : Succeeds [] s s
  /-- One command succeeds with the writes that make `t`, then the others do. -/
  | cons {i : Instr} {rest : List Instr} {s t u : State} (first : exec i s = .next (done t))
      (others : Succeeds rest (done t) u) : Succeeds (i :: rest) s u

section
variable {p q : List Instr} {s t u : State}

theorem Succeeds.execAll_eq (run : Succeeds p s t) : execAll p s = some t := by
  induction run with
  | nil s => exact execAll_nil s
  | cons first _ ih => rw [execAll_cons first, ih]

theorem Succeeds.append (run : Succeeds p s t) (more : Succeeds q t u) : Succeeds (p ++ q) s u := by
  induction run with
  | nil s => exact more
  | cons first _ ih => exact .cons first (ih more)

theorem succeeds_singleton {i : Instr} (only : exec i s = .next (done t)) :
    Succeeds [i] s (done t) := .cons only (.nil _)

/-- Stopped early, after one command or more, such a run has the response 0. -/
theorem Succeeds.of_front (run : Succeeds p s t) (front : q <+: p) (nonempty : q ≠ []) :
    ∃ u, execAll q s = some u ∧ u.resp = some 0 := by
  induction run generalizing q with
  | nil s => exact absurd (List.prefix_nil.mp front) nonempty
  | @cons i rest s t u first _ ih =>
    obtain rfl | ⟨q, rfl, shorter⟩ := List.prefix_cons_iff.mp front
    · exact absurd rfl nonempty
    rw [execAll_cons first]
    obtain rfl | longer := eq_or_ne q []
    · exact ⟨done t, rfl, rfl⟩
    · exact ih shorter longer

end

/-! ### SLI32 and VCLR -/

/-- The response of the command before leaves no trace. -/
theorem done_setScalar_done (s : State) (r : SReg) (v : Scalar) :
    done ((done s).setScalar r v) = done (s.setScalar r v) := rfl

theorem done_setVec_done (s : State) (r : VReg) (v : BitArray) :
    done ((done s).setVec r v) = done (s.setVec r v) := rfl

/-- `SLIH` moves out the sign extension that `SLI` made. -/
theorem slih_sli_value (x : Scalar) :
    signedImm (x.extractLsb' 16 16) <<< 16 ||| unsignedImm (x.extractLsb' 0 16) = x := by
  apply BitVec.eq_of_getLsbD_eq
  intro k hk
  rw [BitVec.getLsbD_or, BitVec.getLsbD_shiftLeft, unsignedImm, BitVec.getLsbD_setWidth,
    BitVec.getLsbD_extractLsb', Nat.zero_add]
  obtain low | high := Nat.lt_or_ge k 16
  · simp [low, hk]
  · have upper : k - 16 < 16 := by omega
    have inside : k - 16 < 32 := by omega
    rw [signedImm, BitVec.getLsbD_signExtend, if_pos upper, BitVec.getLsbD_extractLsb',
      Nat.add_sub_cancel' high]
    simp [hk, upper, inside, Nat.not_lt.mpr high]

theorem succeeds_sli32 (sd : SReg) (x : Scalar) (s : State) :
    Succeeds (sli32 sd x) s (done (s.setScalar sd x)) := by
  refine .cons (exec_sli sd (x.extractLsb' 16 16) s) (succeeds_singleton ?_)
  rw [exec_slih, ← shiftLeft_or_unsignedImm, done_scalar, State.setInt, State.scalar_setScalar_self,
    ← signedImm_eq_ofInt, slih_sli_value]
  rw [done_setScalar_done, State.setScalar_setScalar_self]

theorem exec_vzero_of_size {s : State} {sa : SReg} {n : Nat} (size : s.int sa = n)
    (fits : n ≤ s.params.cap) (vd : VReg) :
    exec (.vzero vd sa) s = .next (done (s.setVec vd (zeros n))) := by
  rw [exec_vzero_of_fits (by omega) (by omega), size, Int.toNat_natCast]

/-- An immediate that is not negative reads back as itself. -/
theorem exec_sli_ofNat {n : Nat} (small : n ≤ 32767) (sd : SReg) (s : State) :
    exec (.sli sd (BitVec.ofNat 16 n)) s = .next (done (s.setInt sd n)) := by
  have value : (BitVec.ofNat 16 n).toInt = n := by
    rw [BitVec.toInt_ofNat', Int.bmod_eq_of_le (by omega) (by omega)]
  rw [exec_sli, value]

theorem succeeds_vclr (vd : VReg) (sx : SReg) (s : State) :
    Succeeds (vclr vd sx) s (done ((s.setScalar sx 0).setVec vd [])) := by
  have size : (done (s.setInt sx (0 : Nat))).int sx = (0 : Nat) :=
    State.int_setInt_self _ _ _ (by decide) (by decide)
  exact .cons (exec_sli_ofNat (n := 0) (by decide) sx s)
    (succeeds_singleton (exec_vzero_of_size size (Nat.zero_le _) vd))

/-- Settles O59: two commands each, run one after the other. -/
theorem pseudoInstructionsLoadAndClear : Obligations.PseudoInstructionsLoadAndClear :=
  ⟨fun s sd imm32 => (succeeds_sli32 sd imm32 s).execAll_eq,
    fun s vd sx => (succeeds_vclr vd sx s).execAll_eq⟩

/-! ### VBITS -/

/-- What the expansion of `VBITS` has left at any time after its third command: the vector as built so
far, the last index set in `sx`, and 1 in `sy`. -/
def State.building (s : State) (vd : VReg) (sx sy : SReg) (x : Scalar) (v : BitArray) : State :=
  done (((s.setScalar sx x).setScalar sy 1).setVec vd v)

section
variable {vd : VReg} {sx sy : SReg}

theorem State.building_int_one (s : State) (x : Scalar) (v : BitArray) :
    (s.building vd sx sy x v).int sy = 1 :=
  ((s.setScalar sx x).int_setInt_self sy 1 (by decide) (by decide) :)

/-- Loading the first scratch scalar replaces what it held. -/
theorem State.building_setInt (s : State) (distinct : sx ≠ sy) (x : Scalar) (v : BitArray) (k : Int) :
    done ((s.building vd sx sy x v).setInt sx k) = s.building vd sx sy (BitVec.ofInt 32 k) v := by
  have swap : ((s.setScalar sx x).setScalar sy 1).setScalar sx (BitVec.ofInt 32 k) =
      (s.setScalar sx (BitVec.ofInt 32 k)).setScalar sy 1 := by
    rw [State.setScalar_comm _ _ _ distinct.symm, State.setScalar_setScalar_self]
  exact congrArg (fun u => done (u.setVec vd v)) swap

/-- The two commands that set one bit. -/
theorem succeeds_set_bit (s : State) (distinct : sx ≠ sy) (x : Scalar) {v : BitArray} {k : Nat}
    (small : k ≤ 32767) (inside : k < v.length) :
    Succeeds [.sli sx (BitVec.ofNat 16 k), .setb vd sx sy] (s.building vd sx sy x v)
      (s.building vd sx sy (BitVec.ofInt 32 k) (v.set k true)) := by
  have loaded := s.building_setInt (vd := vd) distinct x v k
  refine .cons (exec_sli_ofNat small sx _) (succeeds_singleton ?_)
  rw [loaded]
  have one := s.building_int_one (vd := vd) (sx := sx) (sy := sy) (BitVec.ofInt 32 k) v
  have index : (s.building vd sx sy (BitVec.ofInt 32 k) v).int sx = k := by
    rw [← loaded, done_int, State.int_setInt_self _ _ _ (by omega) (by omega)]
  have holds : (s.building vd sx sy (BitVec.ofInt 32 k) v).vec vd = v := State.vec_setVec_self ..
  rw [exec_setb_of_index (p := k) (.inr one) (.inl index) (by rwa [State.size, holds]), holds, one]
  rw [State.building, done_setVec_done, State.setVec_setVec_self]
  rfl

/-- The bits before index `k` are in place, those from `k` on are still 0; setting the ones among them
completes the sequence. -/
theorem succeeds_setBits (s : State) (distinct : sx ≠ sy) (bits built : BitArray) (x : Scalar)
    (short : built.length + bits.length ≤ 32767) :
    ∃ y, Succeeds (setBits vd sx sy built.length bits)
      (s.building vd sx sy x (built ++ zeros bits.length))
      (s.building vd sx sy y (built ++ bits)) := by
  induction bits generalizing built x with
  | nil => exact ⟨x, .nil _⟩
  | cons b bits ih =>
    rw [List.length_cons] at short
    have next (y : Scalar) := ih (built ++ [b]) y (by rw [List.length_append, List.length_singleton]; omega)
    simp only [List.length_append, List.length_singleton, List.append_assoc, List.singleton_append]
      at next
    cases b with
    | false => exact next x
    | true =>
      obtain ⟨y, others⟩ := next (BitVec.ofInt 32 built.length)
      have set_first : (built ++ zeros (bits.length + 1)).set built.length true =
          built ++ true :: zeros bits.length := by
        rw [List.set_append_right _ _ le_rfl, Nat.sub_self]
        rfl
      have first := succeeds_set_bit s (vd := vd) distinct x (v := built ++ zeros (bits.length + 1))
        (k := built.length) (by omega) (by rw [List.length_append, length_zeros]; omega)
      rw [set_first] at first
      exact ⟨y, first.append others⟩

/-- The three commands that start the expansion of `VBITS`. -/
theorem succeeds_vbits_start (s : State) (vd : VReg) {n : Nat}
    (small : n ≤ 32767) (fits : n ≤ s.params.cap) :
    Succeeds [.sli sx (BitVec.ofNat 16 n), .vzero vd sx, .sli sy 1] s
      (s.building vd sx sy (BitVec.ofInt 32 n) (zeros n)) := by
  have size : (done (s.setInt sx n)).int sx = n :=
    State.int_setInt_self _ _ _ (by omega) (by omega)
  exact .cons (exec_sli_ofNat small sx s) (.cons (exec_vzero_of_size size fits vd)
    (succeeds_singleton (exec_sli_ofNat (n := 1) (by decide) sy _)))

theorem succeeds_vbits (s : State) (vd : VReg) (distinct : sx ≠ sy) {bits : BitArray}
    (short : bits.length ≤ 32767) (fits : bits.length ≤ s.params.cap) :
    ∃ x, Succeeds (vbits vd sx sy bits) s (s.building vd sx sy x bits) := by
  obtain ⟨x, ones⟩ := succeeds_setBits s (vd := vd) distinct bits [] (BitVec.ofInt 32 bits.length)
    (by rwa [List.length_nil, Nat.zero_add])
  exact ⟨x, (succeeds_vbits_start s vd short fits).append ones⟩

/-- 41_storage_core.md section 8: the size of the vector built. -/
theorem succeeds_vsize_of_built (s : State) (x : Scalar) {bits : BitArray}
    (short : bits.length ≤ 32767) (sd : SReg) :
    ∃ t, Succeeds [.vsize sd vd] (s.building vd sx sy x bits) (done t) ∧ t.int sd = bits.length := by
  refine ⟨_, succeeds_singleton (exec_vsize sd vd _), ?_⟩
  rw [State.building, done_vec, State.vec_setVec_self,
    State.int_setInt_self _ _ _ (by omega) (by omega)]

/-- 41_storage_core.md section 8: each bit of the vector built. -/
theorem succeeds_getb_of_built (s : State) (distinct : sx ≠ sy) (x : Scalar) {bits : BitArray}
    (short : bits.length ≤ 32767) {k : Nat} {b : Bool} (bit : bits[k]? = some b) (sd : SReg) :
    ∃ t, Succeeds [.sli sx (BitVec.ofNat 16 k), .getb sd vd sx] (s.building vd sx sy x bits)
      (done t) ∧ t.int sd = b.toNat := by
  obtain ⟨inside, -⟩ := List.getElem?_eq_some_iff.mp bit
  have loaded := s.building_setInt (vd := vd) distinct x bits k
  have index : (s.building vd sx sy (BitVec.ofInt 32 k) bits).int sx = k := by
    rw [← loaded, done_int, State.int_setInt_self _ _ _ (by omega) (by omega)]
  have read : ((s.building vd sx sy (BitVec.ofInt 32 k) bits).vec vd)[k]? = some b := by
    rw [State.building, done_vec, State.vec_setVec_self, bit]
  refine ⟨_, .cons (exec_sli_ofNat (by omega) sx _)
    (succeeds_singleton (loaded ▸ exec_getb_of_bit (.inl index) read sd)), ?_⟩
  cases b <;> exact State.int_setInt_self _ _ _ (by decide) (by decide)

end

/-- Settles O60: the run of the expansion, in which every command succeeds, built up from the run that
sets one bit; the readback commands continue it. -/
theorem vbitsBuildsAnySequence : Obligations.VbitsBuildsAnySequence := by
  intro s vd sx sy bits distinct short fits
  obtain ⟨x, run⟩ := succeeds_vbits s vd distinct short fits
  refine ⟨⟨x, run.execAll_eq⟩, fun p nonempty front => run.of_front front nonempty,
    fun sd => ⟨?size, fun k b bit => ?bit⟩⟩
  case size =>
    obtain ⟨t, readback, value⟩ := succeeds_vsize_of_built s x short sd
    exact ⟨_, (run.append readback).execAll_eq, rfl, value⟩
  case bit =>
    obtain ⟨t, readback, value⟩ := succeeds_getb_of_built s distinct x short bit sd
    exact ⟨_, (run.append readback).execAll_eq, rfl, value⟩

end Sys2Proof.Machine
end
